-- ==== Sys2Proof/Word.lean ====
section
/-! DEFINITION. The machine word, the byte, the register number, and a table of fixed size.
XLEN = 32 and NREGS = 32 are 00_scope.md R6; bit numbering and modular arithmetic are R9. -/

namespace Sys2Proof

/-- A 32-bit unsigned word: registers, operands, addresses (00 R6, R9). -/
abbrev Word := BitVec 32

/-- One byte of the byte-addressed space (20 R61). -/
abbrev Byte := BitVec 8

/-- A general register number, 0 to 31 (10 R20). -/
abbrev Reg := BitVec 5

/-- A list together with the fact that it has `n` entries: the register file, PHT and BTB.
(A list compares entry by entry, so equal states are recognised by evaluation.) -/
structure Table (α : Type) (n : Nat) where
  entries : List α
  size_eq : entries.length = n
deriving DecidableEq, Repr

/-- The table with the same value everywhere. -/
def Table.fill {α : Type} (n : Nat) (v : α) : Table α n :=
  ⟨List.replicate n v, List.length_replicate⟩

/-- The entry at index `i`. -/
def Table.get {α : Type} {n : Nat} (t : Table α n) (i : Fin n) : α :=
  t.entries[i.val]'(by rw [t.size_eq]; exact i.isLt)

/-- The table with entry `i` replaced. -/
def Table.set {α : Type} {n : Nat} (t : Table α n) (i : Fin n) (v : α) : Table α n :=
  ⟨t.entries.set i.val v, by rw [List.length_set]; exact t.size_eq⟩

end Sys2Proof
end

