-- ==== Sys2Proof/Config.lean ====
section
/-! DEFINITION. The parameters of 00_scope.md R7: named by the spec, without values there.
They are fixed during a run (70 R535 step 1). `State` carries one `Config`, which no step changes,
so a statement about every state is a statement about every configuration. -/

namespace Sys2Proof

/-- Geometry of one cache (00 R7, R8): SETS is the power of two `2 ^ setBits`. -/
structure Geometry where
  /-- SET_BITS = log2(SETS). -/
  setBits : Nat
  /-- WAYS. -/
  ways : Nat
deriving DecidableEq, Repr

/-- SETS (00 R8: a power of two by construction). -/
def Geometry.sets (g : Geometry) : Nat := 2 ^ g.setBits

/-- The parameters without values (00 R7; 92 D1 to D4). -/
structure Config where
  /-- BLOCK_SHIFT = log2(BLOCK_WORDS), one value for all levels (D1). -/
  blockShift : Nat
  /-- L1I_SETS, L1I_WAYS (D2). -/
  l1i : Geometry
  /-- L1D_SETS, L1D_WAYS (D2). -/
  l1d : Geometry
  /-- L2_SETS, L2_WAYS (D2). -/
  l2 : Geometry
  /-- L2_MSHRS, the capacity of the miss-status table (D2). -/
  l2Mshrs : Nat
  /-- L2_HIT_LATENCY (D3). -/
  l2HitLatency : Nat
  /-- L2_TO_DRAM_LATENCY (D3). -/
  l2ToDramLatency : Nat
  /-- DRAM_ACCESS_LATENCY (D3). -/
  dramAccessLatency : Nat
  /-- DRAM_TO_L2C_LATENCY (D3). -/
  dramToL2cLatency : Nat
  /-- RESET_PC (D4). -/
  resetPc : Word
  /-- QUEUE_INIT_SIZE, the initial length of each request queue; not observable (47 R321), and without a
  value anywhere in the spec (91 N8). -/
  queueInitSize : Nat
deriving DecidableEq, Repr

/-- BLOCK_WORDS (00 R8: a power of two by construction). -/
def Config.blockWords (c : Config) : Nat := 2 ^ c.blockShift

/-- The spec's example configuration E (95_test_vectors.md section 0), which is not the hardware's:
the source gives no values. DESIGN CHOICE, unsafe for statements about `State.reset` only
(notes/assumptions/3.md). Configuration E names no QUEUE_INIT_SIZE, and no file of spec/ gives it a
value: the 2 is the model's own. DESIGN CHOICE, not observable (47 R321), unsafe only for a statement
about the length of a queue in `State.reset` (notes/assumptions/35.md). -/
def Config.exampleE : Config where
  blockShift := 3
  l1i := { setBits := 2, ways := 2 }
  l1d := { setBits := 2, ways := 2 }
  l2 := { setBits := 3, ways := 2 }
  l2Mshrs := 2
  l2HitLatency := 2
  l2ToDramLatency := 1
  dramAccessLatency := 3
  dramToL2cLatency := 1
  resetPc := 0x00400000#32
  queueInitSize := 2

end Sys2Proof
end

