-- ==== Sys2Proof/Syntax.lean ====
section
/-! DEFINITION. The 53 instructions of spec/opcode_table.json, one constructor a row, operands in the
order of the assembler form of 30_encoding.md R104 (destination first). Register numbers, shift
amounts, immediates and jump targets are the bit fields of 30 R92, R93; fields an instruction does
not use (R96) are no operands. -/

namespace Sys2Proof

/-- An instruction. `rd`, `rs`, `rt` are register numbers, `shamt` a shift amount, `imm` the 16-bit
immediate as encoded, `off` a displacement as encoded, `target` the 26-bit jump target. -/
inductive Instr where
  -- shifts (48 R402 to R407)
  | sll (rd rt : Reg) (shamt : BitVec 5)
  | srl (rd rt : Reg) (shamt : BitVec 5)
  | sra (rd rt : Reg) (shamt : BitVec 5)
  | sllv (rd rt rs : Reg)
  | srlv (rd rt rs : Reg)
  | srav (rd rt rs : Reg)
  -- register jumps and SYSCALL (49 R486, R487, R495)
  | jr (rs : Reg)
  | jalr (rd rs : Reg)
  | syscall
  -- HI/LO moves, multiply, divide (48 R430 to R438)
  | mfhi (rd : Reg)
  | mthi (rs : Reg)
  | mflo (rd : Reg)
  | mtlo (rs : Reg)
  | mult (rs rt : Reg)
  | multu (rs rt : Reg)
  | div (rs rt : Reg)
  | divu (rs rt : Reg)
  -- register arithmetic and logic (48 R410 to R419)
  | add (rd rs rt : Reg)
  | addu (rd rs rt : Reg)
  | sub (rd rs rt : Reg)
  | subu (rd rs rt : Reg)
  | and (rd rs rt : Reg)
  | or (rd rs rt : Reg)
  | xor (rd rs rt : Reg)
  | nor (rd rs rt : Reg)
  | slt (rd rs rt : Reg)
  | sltu (rd rs rt : Reg)
  -- REGIMM branches (49 R480 to R483)
  | bltz (rs : Reg) (off : BitVec 16)
  | bgez (rs : Reg) (off : BitVec 16)
  | bltzal (rs : Reg) (off : BitVec 16)
  | bgezal (rs : Reg) (off : BitVec 16)
  -- jumps (49 R484, R485)
  | j (target : BitVec 26)
  | jal (target : BitVec 26)
  -- branches (49 R476 to R479)
  | beq (rs rt : Reg) (off : BitVec 16)
  | bne (rs rt : Reg) (off : BitVec 16)
  | blez (rs : Reg) (off : BitVec 16)
  | bgtz (rs : Reg) (off : BitVec 16)
  -- immediate arithmetic and logic (48 R420 to R427)
  | addi (rt rs : Reg) (imm : BitVec 16)
  | addiu (rt rs : Reg) (imm : BitVec 16)
  | slti (rt rs : Reg) (imm : BitVec 16)
  | sltiu (rt rs : Reg) (imm : BitVec 16)
  | andi (rt rs : Reg) (imm : BitVec 16)
  | ori (rt rs : Reg) (imm : BitVec 16)
  | xori (rt rs : Reg) (imm : BitVec 16)
  | lui (rt : Reg) (imm : BitVec 16)
  -- loads and stores (49 R461 to R469); `off(rs)` addresses
  | lb (rt : Reg) (off : BitVec 16) (rs : Reg)
  | lh (rt : Reg) (off : BitVec 16) (rs : Reg)
  | lw (rt : Reg) (off : BitVec 16) (rs : Reg)
  | lbu (rt : Reg) (off : BitVec 16) (rs : Reg)
  | lhu (rt : Reg) (off : BitVec 16) (rs : Reg)
  | sb (rt : Reg) (off : BitVec 16) (rs : Reg)
  | sh (rt : Reg) (off : BitVec 16) (rs : Reg)
  | sw (rt : Reg) (off : BitVec 16) (rs : Reg)
deriving DecidableEq, Repr

end Sys2Proof
end

