-- ==== Sys2Proof/WellFormed.lean ====
section
/-! DEFINITION. The checks on what the model is given. Every term of `Instr` is well-formed by its
types: each operand is a bit field of the width its encoding gives it, and the spec forbids no
combination of operands (30 R92, R96). What the types do not say is checked here: a configuration
(00 R8, 93 U6) and an instruction word (30 R98: does it match a row of the opcode table). -/

namespace Sys2Proof

/-- A cache has at least one way, and its block, set and byte bits fit a 32-bit address (00 R8; the
tag of 10 R35 has 32 - 2 - BLOCK_SHIFT - SET_BITS bits, so that number is not negative). -/
def Geometry.wf (g : Geometry) (blockShift : Nat) : Bool :=
  decide (1 ≤ g.ways) && decide (2 + blockShift + g.setBits ≤ 32)

/-- The constraints of 00 R8. A machine whose configuration breaks them is refused (93 U6). -/
def Config.wf (c : Config) : Bool :=
  c.l1i.wf c.blockShift && c.l1d.wf c.blockShift && c.l2.wf c.blockShift && decide (1 ≤ c.l2Mshrs)

/-- One row of spec/opcode_table.json: a word `w` matches when `w &&& mask = pattern`. -/
structure OpcodeRow where
  mnemonic : String
  mask : Word
  pattern : Word
deriving DecidableEq, Repr

/-- The SPECIAL rows (30 R96): `op` = 0 and `funct` fixed. -/
def specialRow (mnemonic : String) (funct : Nat) : OpcodeRow :=
  ⟨mnemonic, 0xFC00003F#32, BitVec.ofNat 32 funct⟩

/-- The REGIMM rows (30 R97): `op` = 1 and `rtsel` fixed. -/
def regimmRow (mnemonic : String) (rtsel : Nat) : OpcodeRow :=
  ⟨mnemonic, 0xFC1F0000#32, BitVec.ofNat 32 (0x04000000 + rtsel * 0x10000)⟩

/-- The rows selected by `op` alone (30 R95). -/
def primaryRow (mnemonic : String) (op : Nat) : OpcodeRow :=
  ⟨mnemonic, 0xFC000000#32, BitVec.ofNat 32 (op * 0x04000000)⟩

/-- The row of each instruction (spec/opcode_table.json; 30 R95, R96, R97). -/
def Instr.row : Instr → OpcodeRow
  | .sll .. => specialRow "SLL" 0x00
  | .srl .. => specialRow "SRL" 0x02
  | .sra .. => specialRow "SRA" 0x03
  | .sllv .. => specialRow "SLLV" 0x04
  | .srlv .. => specialRow "SRLV" 0x06
  | .srav .. => specialRow "SRAV" 0x07
  | .jr .. => specialRow "JR" 0x08
  | .jalr .. => specialRow "JALR" 0x09
  | .syscall => specialRow "SYSCALL" 0x0C
  | .mfhi .. => specialRow "MFHI" 0x10
  | .mthi .. => specialRow "MTHI" 0x11
  | .mflo .. => specialRow "MFLO" 0x12
  | .mtlo .. => specialRow "MTLO" 0x13
  | .mult .. => specialRow "MULT" 0x18
  | .multu .. => specialRow "MULTU" 0x19
  | .div .. => specialRow "DIV" 0x1A
  | .divu .. => specialRow "DIVU" 0x1B
  | .add .. => specialRow "ADD" 0x20
  | .addu .. => specialRow "ADDU" 0x21
  | .sub .. => specialRow "SUB" 0x22
  | .subu .. => specialRow "SUBU" 0x23
  | .and .. => specialRow "AND" 0x24
  | .or .. => specialRow "OR" 0x25
  | .xor .. => specialRow "XOR" 0x26
  | .nor .. => specialRow "NOR" 0x27
  | .slt .. => specialRow "SLT" 0x2A
  | .sltu .. => specialRow "SLTU" 0x2B
  | .bltz .. => regimmRow "BLTZ" 0x00
  | .bgez .. => regimmRow "BGEZ" 0x01
  | .bltzal .. => regimmRow "BLTZAL" 0x10
  | .bgezal .. => regimmRow "BGEZAL" 0x11
  | .j .. => primaryRow "J" 0x02
  | .jal .. => primaryRow "JAL" 0x03
  | .beq .. => primaryRow "BEQ" 0x04
  | .bne .. => primaryRow "BNE" 0x05
  | .blez .. => primaryRow "BLEZ" 0x06
  | .bgtz .. => primaryRow "BGTZ" 0x07
  | .addi .. => primaryRow "ADDI" 0x08
  | .addiu .. => primaryRow "ADDIU" 0x09
  | .slti .. => primaryRow "SLTI" 0x0A
  | .sltiu .. => primaryRow "SLTIU" 0x0B
  | .andi .. => primaryRow "ANDI" 0x0C
  | .ori .. => primaryRow "ORI" 0x0D
  | .xori .. => primaryRow "XORI" 0x0E
  | .lui .. => primaryRow "LUI" 0x0F
  | .lb .. => primaryRow "LB" 0x20
  | .lh .. => primaryRow "LH" 0x21
  | .lw .. => primaryRow "LW" 0x23
  | .lbu .. => primaryRow "LBU" 0x24
  | .lhu .. => primaryRow "LHU" 0x25
  | .sb .. => primaryRow "SB" 0x28
  | .sh .. => primaryRow "SH" 0x29
  | .sw .. => primaryRow "SW" 0x2B

/-- The word matches the row. -/
def OpcodeRow.admits (r : OpcodeRow) (w : Word) : Bool := w &&& r.mask == r.pattern

/-- A word that encodes `i`, whatever its ignored fields hold. -/
def Instr.matchedBy (i : Instr) (w : Word) : Bool := i.row.admits w

end Sys2Proof
end

