-- ==== Sys2Proof/Decode.lean ====
section
/-! DEFINITION. From words to instructions and back (30_encoding.md). `decodeWord` is total and rejects
by name; the fields an instruction does not use are ignored (R96, 92 D13). Every numeric encoding is
general knowledge supplied by the spec (93 G4, G6; notes/assumptions/9.md). -/

namespace Sys2Proof

/-! ### Field extraction (30 R93) -/

/-- `op = w[31:26]`. -/
def opField (w : Word) : BitVec 6 := w.extractLsb' 26 6

/-- `rs = w[25:21]`. -/
def rsField (w : Word) : Reg := w.extractLsb' 21 5

/-- `rt = w[20:16]`, also `rtsel` of the RI format. -/
def rtField (w : Word) : Reg := w.extractLsb' 16 5

/-- `rd = w[15:11]`. -/
def rdField (w : Word) : Reg := w.extractLsb' 11 5

/-- `shamt = w[10:6]`. -/
def shamtField (w : Word) : BitVec 5 := w.extractLsb' 6 5

/-- `funct = w[5:0]`. -/
def functField (w : Word) : BitVec 6 := w.extractLsb' 0 6

/-- `imm16 = w[15:0]`. -/
def immField (w : Word) : BitVec 16 := w.extractLsb' 0 16

/-- `jtarget = w[25:0]`. -/
def targetField (w : Word) : BitVec 26 := w.extractLsb' 0 26

/-! ### Decoding -/

/-- Why a word is no instruction (30 R98), or that there is no whole word. -/
inductive DecodeError where
  /-- no row of 30 R95 has this `op` -/
  | unrecognisedOp (op : BitVec 6)
  /-- `op` = 0 and no row of 30 R96 has this `funct` -/
  | unrecognisedFunct (funct : BitVec 6)
  /-- `op` = 1 and no row of 30 R97 has this `rtsel` -/
  | unrecognisedRtsel (rtsel : Reg)
  /-- fewer than four bytes (30 R91: every instruction is one 32-bit word) -/
  | truncated
deriving DecidableEq, Repr

/-- The SPECIAL map (30 R96). -/
def decodeSpecial (w : Word) : Except DecodeError Instr :=
  match (functField w).toNat with
  | 0x00 => .ok (.sll (rdField w) (rtField w) (shamtField w))
  | 0x02 => .ok (.srl (rdField w) (rtField w) (shamtField w))
  | 0x03 => .ok (.sra (rdField w) (rtField w) (shamtField w))
  | 0x04 => .ok (.sllv (rdField w) (rtField w) (rsField w))
  | 0x06 => .ok (.srlv (rdField w) (rtField w) (rsField w))
  | 0x07 => .ok (.srav (rdField w) (rtField w) (rsField w))
  | 0x08 => .ok (.jr (rsField w))
  | 0x09 => .ok (.jalr (rdField w) (rsField w))
  | 0x0C => .ok .syscall
  | 0x10 => .ok (.mfhi (rdField w))
  | 0x11 => .ok (.mthi (rsField w))
  | 0x12 => .ok (.mflo (rdField w))
  | 0x13 => .ok (.mtlo (rsField w))
  | 0x18 => .ok (.mult (rsField w) (rtField w))
  | 0x19 => .ok (.multu (rsField w) (rtField w))
  | 0x1A => .ok (.div (rsField w) (rtField w))
  | 0x1B => .ok (.divu (rsField w) (rtField w))
  | 0x20 => .ok (.add (rdField w) (rsField w) (rtField w))
  | 0x21 => .ok (.addu (rdField w) (rsField w) (rtField w))
  | 0x22 => .ok (.sub (rdField w) (rsField w) (rtField w))
  | 0x23 => .ok (.subu (rdField w) (rsField w) (rtField w))
  | 0x24 => .ok (.and (rdField w) (rsField w) (rtField w))
  | 0x25 => .ok (.or (rdField w) (rsField w) (rtField w))
  | 0x26 => .ok (.xor (rdField w) (rsField w) (rtField w))
  | 0x27 => .ok (.nor (rdField w) (rsField w) (rtField w))
  | 0x2A => .ok (.slt (rdField w) (rsField w) (rtField w))
  | 0x2B => .ok (.sltu (rdField w) (rsField w) (rtField w))
  | _ => .error (.unrecognisedFunct (functField w))

/-- The REGIMM map (30 R97). -/
def decodeRegimm (w : Word) : Except DecodeError Instr :=
  match (rtField w).toNat with
  | 0x00 => .ok (.bltz (rsField w) (immField w))
  | 0x01 => .ok (.bgez (rsField w) (immField w))
  | 0x10 => .ok (.bltzal (rsField w) (immField w))
  | 0x11 => .ok (.bgezal (rsField w) (immField w))
  | _ => .error (.unrecognisedRtsel (rtField w))

/-- The primary map (30 R95). -/
def decodeWord (w : Word) : Except DecodeError Instr :=
  match (opField w).toNat with
  | 0x00 => decodeSpecial w
  | 0x01 => decodeRegimm w
  | 0x02 => .ok (.j (targetField w))
  | 0x03 => .ok (.jal (targetField w))
  | 0x04 => .ok (.beq (rsField w) (rtField w) (immField w))
  | 0x05 => .ok (.bne (rsField w) (rtField w) (immField w))
  | 0x06 => .ok (.blez (rsField w) (immField w))
  | 0x07 => .ok (.bgtz (rsField w) (immField w))
  | 0x08 => .ok (.addi (rtField w) (rsField w) (immField w))
  | 0x09 => .ok (.addiu (rtField w) (rsField w) (immField w))
  | 0x0A => .ok (.slti (rtField w) (rsField w) (immField w))
  | 0x0B => .ok (.sltiu (rtField w) (rsField w) (immField w))
  | 0x0C => .ok (.andi (rtField w) (rsField w) (immField w))
  | 0x0D => .ok (.ori (rtField w) (rsField w) (immField w))
  | 0x0E => .ok (.xori (rtField w) (rsField w) (immField w))
  | 0x0F => .ok (.lui (rtField w) (immField w))
  | 0x20 => .ok (.lb (rtField w) (immField w) (rsField w))
  | 0x21 => .ok (.lh (rtField w) (immField w) (rsField w))
  | 0x23 => .ok (.lw (rtField w) (immField w) (rsField w))
  | 0x24 => .ok (.lbu (rtField w) (immField w) (rsField w))
  | 0x25 => .ok (.lhu (rtField w) (immField w) (rsField w))
  | 0x28 => .ok (.sb (rtField w) (immField w) (rsField w))
  | 0x29 => .ok (.sh (rtField w) (immField w) (rsField w))
  | 0x2B => .ok (.sw (rtField w) (immField w) (rsField w))
  | _ => .error (.unrecognisedOp (opField w))

/-- The word of four bytes, the first at the lowest address (little-endian, 20 R63). -/
def wordOfBytes (b0 b1 b2 b3 : Byte) : Word := b3 ++ b2 ++ b1 ++ b0

/-- Byte `k` of a word, `k` = 0..3: bits `[8k+7 : 8k]` (20 R63). -/
def byteOfWord (w : Word) (k : Nat) : Byte := w.extractLsb' (8 * k) 8

/-- Decoding at the front of a byte sequence, with the bytes after the instruction (30 R91). -/
def decodeBytes : List Byte → Except DecodeError (Instr × List Byte)
  | b0 :: b1 :: b2 :: b3 :: rest =>
    match decodeWord (wordOfBytes b0 b1 b2 b3) with
    | .ok i => .ok (i, rest)
    | .error e => .error e
  | _ => .error .truncated

/-- The decoder on a word numbered as spec/opcode_table.json numbers it: laid out as the four bytes
the hardware stores, bits at or above `nbits` zero, and decoded. -/
def decodeTableWord (nbits w : Nat) : Option Instr :=
  let v : Word := BitVec.ofNat 32 (w % 2 ^ nbits)
  match decodeBytes [byteOfWord v 0, byteOfWord v 1, byteOfWord v 2, byteOfWord v 3] with
  | .ok (i, _) => some i
  | .error _ => none

/-! ### Encoding (30 R92, R95 to R97), ignored fields zero -/

/-- Format R. -/
def rWord (rs rt rd : Reg) (shamt : BitVec 5) (funct : BitVec 6) : Word :=
  (0#6 : BitVec 6) ++ rs ++ rt ++ rd ++ shamt ++ funct

/-- Formats I and RI. -/
def iWord (op : BitVec 6) (rs rt : Reg) (imm : BitVec 16) : Word := op ++ rs ++ rt ++ imm

/-- Format J. -/
def jWord (op : BitVec 6) (target : BitVec 26) : Word := op ++ target

/-- The instruction's word. -/
def encode : Instr → Word
  | .sll rd rt shamt => rWord 0 rt rd shamt 0x00
  | .srl rd rt shamt => rWord 0 rt rd shamt 0x02
  | .sra rd rt shamt => rWord 0 rt rd shamt 0x03
  | .sllv rd rt rs => rWord rs rt rd 0 0x04
  | .srlv rd rt rs => rWord rs rt rd 0 0x06
  | .srav rd rt rs => rWord rs rt rd 0 0x07
  | .jr rs => rWord rs 0 0 0 0x08
  | .jalr rd rs => rWord rs 0 rd 0 0x09
  | .syscall => rWord 0 0 0 0 0x0C
  | .mfhi rd => rWord 0 0 rd 0 0x10
  | .mthi rs => rWord rs 0 0 0 0x11
  | .mflo rd => rWord 0 0 rd 0 0x12
  | .mtlo rs => rWord rs 0 0 0 0x13
  | .mult rs rt => rWord rs rt 0 0 0x18
  | .multu rs rt => rWord rs rt 0 0 0x19
  | .div rs rt => rWord rs rt 0 0 0x1A
  | .divu rs rt => rWord rs rt 0 0 0x1B
  | .add rd rs rt => rWord rs rt rd 0 0x20
  | .addu rd rs rt => rWord rs rt rd 0 0x21
  | .sub rd rs rt => rWord rs rt rd 0 0x22
  | .subu rd rs rt => rWord rs rt rd 0 0x23
  | .and rd rs rt => rWord rs rt rd 0 0x24
  | .or rd rs rt => rWord rs rt rd 0 0x25
  | .xor rd rs rt => rWord rs rt rd 0 0x26
  | .nor rd rs rt => rWord rs rt rd 0 0x27
  | .slt rd rs rt => rWord rs rt rd 0 0x2A
  | .sltu rd rs rt => rWord rs rt rd 0 0x2B
  | .bltz rs off => iWord 0x01 rs 0x00 off
  | .bgez rs off => iWord 0x01 rs 0x01 off
  | .bltzal rs off => iWord 0x01 rs 0x10 off
  | .bgezal rs off => iWord 0x01 rs 0x11 off
  | .j target => jWord 0x02 target
  | .jal target => jWord 0x03 target
  | .beq rs rt off => iWord 0x04 rs rt off
  | .bne rs rt off => iWord 0x05 rs rt off
  | .blez rs off => iWord 0x06 rs 0 off
  | .bgtz rs off => iWord 0x07 rs 0 off
  | .addi rt rs imm => iWord 0x08 rs rt imm
  | .addiu rt rs imm => iWord 0x09 rs rt imm
  | .slti rt rs imm => iWord 0x0A rs rt imm
  | .sltiu rt rs imm => iWord 0x0B rs rt imm
  | .andi rt rs imm => iWord 0x0C rs rt imm
  | .ori rt rs imm => iWord 0x0D rs rt imm
  | .xori rt rs imm => iWord 0x0E rs rt imm
  | .lui rt imm => iWord 0x0F 0 rt imm
  | .lb rt off rs => iWord 0x20 rs rt off
  | .lh rt off rs => iWord 0x21 rs rt off
  | .lw rt off rs => iWord 0x23 rs rt off
  | .lbu rt off rs => iWord 0x24 rs rt off
  | .lhu rt off rs => iWord 0x25 rs rt off
  | .sb rt off rs => iWord 0x28 rs rt off
  | .sh rt off rs => iWord 0x29 rs rt off
  | .sw rt off rs => iWord 0x2B rs rt off

/-- The bits of a word that `i`'s decoding reads: the selector bits of its row and its operands. The
other bits are ignored (30 R96). -/
def Instr.usedBits : Instr → Word
  | .sll .. | .srl .. | .sra .. => 0xFC1FFFFF#32
  | .sllv .. | .srlv .. | .srav .. => 0xFFFFF83F#32
  | .jr .. | .mthi .. | .mtlo .. => 0xFFE0003F#32
  | .jalr .. => 0xFFE0F83F#32
  | .syscall => 0xFC00003F#32
  | .mfhi .. | .mflo .. => 0xFC00F83F#32
  | .mult .. | .multu .. | .div .. | .divu .. => 0xFFFF003F#32
  | .add .. | .addu .. | .sub .. | .subu .. | .and .. | .or .. | .xor .. | .nor .. | .slt ..
  | .sltu .. => 0xFFFFF83F#32
  | .bltz .. | .bgez .. | .bltzal .. | .bgezal .. => 0xFFFFFFFF#32
  | .j .. | .jal .. => 0xFFFFFFFF#32
  | .beq .. | .bne .. => 0xFFFFFFFF#32
  | .blez .. | .bgtz .. => 0xFFE0FFFF#32
  | .addi .. | .addiu .. | .slti .. | .sltiu .. | .andi .. | .ori .. | .xori .. => 0xFFFFFFFF#32
  | .lui .. => 0xFC1FFFFF#32
  | .lb .. | .lh .. | .lw .. | .lbu .. | .lhu .. => 0xFFFFFFFF#32
  | .sb .. | .sh .. | .sw .. => 0xFFFFFFFF#32

end Sys2Proof
end

