-- ==== Sys2Proof/Machine/State.lean ====
section
/-! DEFINITION. The machine's state as plain data (10_state.md), and its value after reset (R42). -/

namespace Sys2Proof.Machine

/-! ### Pipeline records -/

/-- One instruction in flight, the Op of 10 R26 (the source's InFlightInstruction). -/
structure Op where
  /-- the address the word was requested at -/
  pc : Word
  /-- the raw instruction word -/
  instr : Word
  opcode : BitVec 6
  subop : BitVec 6
  imm16 : BitVec 16
  seImm : Word
  shamt : BitVec 5
  jtarget : BitVec 26
  src1 : Option Reg
  src2 : Option Reg
  src1Val : Word
  src2Val : Word
  dst : Option Reg
  dstVal : Word
  dstReady : Bool
  isMem : Bool
  memAddr : Word
  memWrite : Bool
  memValue : Word
  isBranch : Bool
  branchCond : Bool
  branchTaken : Bool
  branchDest : Word
  predIsBranch : Bool
  predTaken : Bool
  predDest : Word
deriving DecidableEq, Repr

/-- The pending-recovery record `rec` (10 R28). -/
structure Recovery where
  active : Bool
  depth : Nat
  dest : Word
deriving DecidableEq, Repr

/-- No recovery pending. -/
def Recovery.inactive : Recovery := ⟨false, 0, 0⟩

/-! ### Predictor records -/

/-- One branch-target-buffer entry (10 R32). -/
structure BtbEntry where
  valid : Bool
  addr : Word
  target : Word
  uncond : Bool
deriving DecidableEq, Repr

/-! ### Cache hierarchy records -/

/-- CacheBlock (10 R35). `tag` is the address shifted right, so its high bits are zero. -/
structure CacheBlock where
  valid : Bool
  dirty : Bool
  tag : Word
  /-- LRU rank, 0 = most recently used -/
  rank : Nat
  /-- BLOCK_WORDS words -/
  data : List Word
deriving DecidableEq, Repr

/-- The ways of one set. -/
abbrev CacheSet := List CacheBlock

/-- A cache: `[set][way]` (10 R36). -/
abbrev Cache := List CacheSet

/-- The states of a queue entry (47 R320 to R332; 30 R101). -/
inductive QueueState where
  | notStalled
  | stalledOnL2cHit
  | stalledOnDramRequest
  | stalledOnDram
  | stalledOnDramResponse
deriving DecidableEq, Repr

/-- PendingMemoryRequest (10 R38). `addr` is a block address (47 R323). -/
structure QueueEntry where
  valid : Bool
  addr : Word
  state : QueueState
  stall : Nat
deriving DecidableEq, Repr

/-- One miss-status entry (10 R37). -/
structure MshrEntry where
  valid : Bool
  done : Bool
  addr : Word
deriving DecidableEq, Repr

/-- The flat store as its listed bytes: addresses strictly rising, no byte equal to what an unlisted
address reads as (`Memory.wf`). -/
abbrev Memory := List Host.Cell

/-- The cache hierarchy and the flat store below it (10 R35 to R39). -/
structure Hierarchy where
  l1i : Cache
  l1d : Cache
  l2 : Cache
  mshr : List MshrEntry
  iq : List QueueEntry
  dq : List QueueEntry
  store : Memory
deriving DecidableEq, Repr

/-- The whole machine. -/
structure State where
  /-- the parameters; no step changes them -/
  cfg : Config
  /-- x[0]..x[31] (R20) -/
  regs : Table Word 32
  hi : Word
  lo : Word
  /-- PC, the fetch program counter (R23) -/
  pc : Word
  /-- slot DE: written by fetch, read by decode (R25) -/
  de : Option Op
  /-- slot EX: written by decode, read by execute -/
  ex : Option Op
  /-- slot ME: written by execute, read by mem -/
  me : Option Op
  /-- slot WB: written by mem, read by writeback -/
  wb : Option Op
  /-- the pending-recovery record `rec` (R28) -/
  recov : Recovery
  /-- mdu_busy (R29) -/
  mduBusy : Nat
  /-- GHR (R30) -/
  ghr : BitVec 8
  /-- PHT[0..255] (R31) -/
  pht : Table (BitVec 2) 256
  /-- BTB[0..1023] (R32) -/
  btb : Table BtbEntry 1024
  /-- the run flag (R33) -/
  run : Bool
  statFetched : Nat
  statRetired : Nat
  statSquash : Nat
  hier : Hierarchy
  /-- `stop()` has released the cache storage (70 R537) -/
  stopped : Bool
deriving DecidableEq, Repr

/-! ### How a step can stop -/

/-- The fatal conditions of 60 R506. The spec names exactly these two and calls both unreachable. -/
inductive Fault where
  /-- `fatal("no victim")`: raised by `Install` (and so by a step whose mem or fetch handler fills a
  block) when the set has no invalid way and no way of rank WAYS - 1 (47 R298, 93 U5). Safe: the
  machine stops where the spec defines nothing. -/
  | noVictim
  /-- `fatal("store to non-resident block")`: raised by `Store` in the mem handler when L1D does not
  hold the block (47 R340, 93 U4). Safe: the machine stops where the spec defines nothing. -/
  | storeToNonResident
deriving DecidableEq, Repr

/-- Why the model gives a step no meaning. -/
inductive Refusal where
  /-- an instruction without a meaning yet; raised by no arm of `exec`. Safe. -/
  | notModelled (mnemonic : String)
  /-- raised by `step`: the configuration breaks 00 R8 (93 U6: refuse the configuration). Safe. -/
  | badConfiguration
  /-- raised by `step`: `cycle()` after `stop()` (70 R537, 93 U3: refuse). Safe. -/
  | cycleAfterStop
deriving DecidableEq, Repr

/-! ### Reset (10 R42) -/

/-- A block as created at cache initialisation, in way `w`: all zero, rank `w` (R42; 90 C3, 92 D7). -/
def CacheBlock.initial (cfg : Config) (w : Nat) : CacheBlock :=
  ⟨false, false, 0, w, List.replicate cfg.blockWords 0⟩

/-- A cache after `init()`: SETS sets of WAYS initial blocks. -/
def Cache.initial (cfg : Config) (g : Geometry) : Cache :=
  List.replicate g.sets ((List.range g.ways).map (CacheBlock.initial cfg))

/-- A queue slot that holds no request, after `init()` and where the queue is doubled. R42 says only that
no entry is valid, and 30 R101 gives the states no numeric value that zeroing could mean: `state` =
NOT_STALLED, and address and stall 0 in a slot made by doubling, are the model's. DESIGN CHOICE, not
observable: no rule reads an invalid slot, and a request overwrites all of it (notes/assumptions/36.md). -/
def QueueEntry.free : QueueEntry := ⟨false, 0, .notStalled, 0⟩

/-- The hierarchy after `init()`, over the flat store as it is (R42: not written). -/
def Hierarchy.initial (cfg : Config) (store : Memory) : Hierarchy where
  l1i := Cache.initial cfg cfg.l1i
  l1d := Cache.initial cfg cfg.l1d
  l2 := Cache.initial cfg cfg.l2
  mshr := List.replicate cfg.l2Mshrs ⟨false, false, 0⟩
  iq := List.replicate cfg.queueInitSize QueueEntry.free
  dq := List.replicate cfg.queueInitSize QueueEntry.free
  store := store

/-- The state after `init()` for a configuration: everything of the table of R42. `run` and the flat
store are not written by `init()` and so are given. -/
def State.initial (cfg : Config) (run : Bool) (store : Memory) : State where
  cfg := cfg
  regs := Table.fill 32 0
  hi := 0
  lo := 0
  pc := cfg.resetPc
  de := none
  ex := none
  me := none
  wb := none
  recov := Recovery.inactive
  mduBusy := 0
  ghr := 0
  pht := Table.fill 256 0
  btb := Table.fill 1024 ⟨false, 0, 0, false⟩
  run := run
  statFetched := 0
  statRetired := 0
  statSquash := 0
  hier := Hierarchy.initial cfg store
  stopped := false

/-- The machine right after reset, ready for its first cycle (70 R535): `init()` in the spec's example
configuration E (DESIGN CHOICE, notes/assumptions/3.md) with nothing loaded into the flat store and
the run flag set by the harness (DESIGN CHOICE, notes/assumptions/4.md). -/
def State.reset : State := State.initial Config.exampleE true []

end Sys2Proof.Machine
end

