-- ==== Sys2Proof/Machine/Ops.lean ====
section
/-! DEFINITION. The named operations over registers and the flat store, the fixed latencies, and the
recovery protocol. The hardware takes no exception and returns from none (60 R500, R503, R504); the
one mechanism that discards work in flight and redirects fetch is the misprediction recovery
(60 R505), written here once. -/

namespace Sys2Proof.Machine

/-- An operation of the machine that may end in a fault or a refusal. -/
abbrev Result (α : Type) := Host.Outcome α Fault Refusal

/-- Go on with the value, or stop as the first part stopped. -/
def andThen {α β : Type} (x : Result α) (f : α → Result β) : Result β :=
  match x with
  | .next a => f a
  | .fault r => .fault r
  | .refused r => .refused r

/-! ### Parameters the source fixes (00 R6) -/

/-- MULT_LATENCY. -/
def multLatency : Nat := 4

/-- DIV_LATENCY. -/
def divLatency : Nat := 32

/-- BRANCH_FLUSH_DEPTH. -/
def branchFlushDepth : Nat := 3

/-! ### General registers (10 R20, R21) -/

/-- `x[r]`: register 0 reads 0. -/
def State.reg (s : State) (r : Reg) : Word :=
  if r = 0#5 then 0 else s.regs.get r.toFin

/-- `x[r] <- v`: dropped when `r` = 0. -/
def State.writeReg (s : State) (r : Reg) (v : Word) : State :=
  if r = 0#5 then s else { s with regs := s.regs.set r.toFin v }

/-! ### Extension (00 R9) -/

/-- `sext_16`. -/
def sext16 (v : BitVec 16) : Word := v.signExtend 32

/-- `zext_16`. -/
def zext16 (v : BitVec 16) : Word := v.zeroExtend 32

/-- `sext_8`. -/
def sext8 (v : Byte) : Word := v.signExtend 32

/-- `zext_8`. -/
def zext8 (v : Byte) : Word := v.zeroExtend 32

/-! ### Bytes and halfwords of a word, little-endian (20 R63) -/

/-- The byte an address selects in its aligned word: `k = a[1:0]` (20 R64). -/
def byteIndex (a : Word) : Nat := (a.extractLsb' 0 2).toNat

/-- The halfword an address selects in its aligned word: `h = a[1]`; `a[0]` is ignored (20 R64). -/
def halfIndex (a : Word) : Nat := (a.extractLsb' 1 1).toNat

/-- Halfword `h` of a word: bits `[16h+15 : 16h]`. -/
def halfOfWord (w : Word) (h : Nat) : BitVec 16 := w.extractLsb' (16 * h) 16

/-- `w` with byte `k` replaced by `v`. -/
def replaceByte (w : Word) (k : Nat) (v : Byte) : Word :=
  (w &&& ~~~(0xFF#32 <<< (8 * k))) ||| (v.zeroExtend 32 <<< (8 * k))

/-- `w` with halfword `h` replaced by `v`. -/
def replaceHalf (w : Word) (h : Nat) (v : BitVec 16) : Word :=
  (w &&& ~~~(0xFFFF#32 <<< (16 * h))) ||| (v.zeroExtend 32 <<< (16 * h))

/-- `a & ~3`: the address of the aligned word containing `a` (20 R64, R65). -/
def wordAddr (a : Word) : Word := a &&& ~~~3#32

/-! ### The flat store (20 R60, R61) -/

/-- What a byte nobody loaded or wrote reads as (92 D11; any other initial content is listed, 93 U8).
DESIGN CHOICE, unsafe: notes/assumptions/6.md. -/
def unlistedByte : Byte := 0

/-- The byte at an address. -/
def Memory.readByte : Memory → Nat → Byte
  | [], _ => unlistedByte
  | (k, v) :: rest, a => if a = k then v else readByte rest a

/-- List a byte in front, unless it reads the same unlisted. -/
def Memory.consByte (a : Nat) (v : Byte) (rest : Memory) : Memory :=
  if v = unlistedByte then rest else (a, v) :: rest

/-- The store with one byte written, in canonical form. -/
def Memory.writeByte : Memory → Nat → Byte → Memory
  | [], a, v => Memory.consByte a v []
  | (k, u) :: rest, a, v =>
    if a < k then Memory.consByte a v ((k, u) :: rest)
    else if a = k then Memory.consByte a v rest
    else (k, u) :: writeByte rest a v

/-- The canonical form, above a lower bound: addresses strictly rising and below 2^32, no byte listed
that reads the same unlisted. -/
def Memory.wfAbove : Nat → Memory → Bool
  | _, [] => true
  | lo, (k, v) :: rest =>
    decide (lo ≤ k) && decide (k < 2 ^ 32) && decide (v ≠ unlistedByte) && wfAbove (k + 1) rest

/-- The canonical form of the flat store. -/
def Memory.wf (m : Memory) : Bool := Memory.wfAbove 0 m

/-- `readWord(a)`: the aligned word containing `a`; `a[1:0]` ignored (20 R60, R61). -/
def Memory.readWord (m : Memory) (a : Word) : Word :=
  let b := (wordAddr a).toNat
  wordOfBytes (m.readByte b) (m.readByte (b + 1)) (m.readByte (b + 2)) (m.readByte (b + 3))

/-- `writeWord(a, v)`: the aligned word containing `a` takes `v` (20 R60, R61). -/
def Memory.writeWord (m : Memory) (a : Word) (v : Word) : Memory :=
  let b := (wordAddr a).toNat
  (((m.writeByte b (byteOfWord v 0)).writeByte (b + 1) (byteOfWord v 1)).writeByte (b + 2)
    (byteOfWord v 2)).writeByte (b + 3) (byteOfWord v 3)

/-! ### The multiplier/divider countdown (43 R161, R173) -/

/-- The decrement at the start of every execute evaluation. -/
def State.tickMdu (s : State) : State := { s with mduBusy := s.mduBusy - 1 }

/-- HI and LO take a multiply's or divide's results and the countdown is loaded (43 R173). -/
def State.writeHiLo (s : State) (hi lo : Word) (latency : Nat) : State :=
  { s with hi := hi, lo := lo, mduBusy := latency }

/-- `HI <- v`, the countdown unchanged (43 R178). -/
def State.writeHi (s : State) (v : Word) : State := { s with hi := v }

/-- `LO <- v`, the countdown unchanged (43 R178). -/
def State.writeLo (s : State) (v : Word) : State := { s with lo := v }

/-! ### Recovery (40 R117 to R125) -/

/-- `Recover(depth, dest)`: record the request, unless one is recorded already this cycle (R118, R119). -/
def State.recover (s : State) (depth : Nat) (dest : Word) : State :=
  if s.recov.active then s else { s with recov := ⟨true, depth, dest⟩ }

/-- Empty a slot when the flush depth reaches its stage (R120, R121). -/
def flushSlot (depth stage : Nat) (slot : Option Op) : Option Op :=
  if stage ≤ depth then none else slot

/-- `ApplyRecovery()`: the end of the cycle (R120). -/
def State.applyRecovery (s : State) : State :=
  if s.recov.active then
    { s with
      pc := s.recov.dest
      de := flushSlot s.recov.depth 2 s.de
      ex := flushSlot s.recov.depth 3 s.ex
      me := flushSlot s.recov.depth 4 s.me
      wb := flushSlot s.recov.depth 5 s.wb
      recov := Recovery.inactive
      statSquash := s.statSquash + 1 }
  else s

end Sys2Proof.Machine
end

