-- ==== Sys2Proof/Machine/Flags.lean ====
section
/-! DEFINITION. The hardware has no flags, condition codes or predicate registers (10 R40): no carry,
overflow or zero flag (48 R440). What stands in their place are the comparisons: the conditions
of the set-on-less-than instructions and of the conditional branches. -/

namespace Sys2Proof.Machine

/-- `1` or `0`, the result of a set-on-less-than instruction. -/
def wordOfBool (b : Bool) : Word := if b then 1 else 0

/-- `s32(a) < s32(b)` (48 R418, R422). -/
def lessSigned (a b : Word) : Bool := decide (a.toInt < b.toInt)

/-- `a < b` unsigned (48 R419, R423). -/
def lessUnsigned (a b : Word) : Bool := decide (a.toNat < b.toNat)

/-- BEQ is taken (49 R476). -/
def condEq (a b : Word) : Bool := a == b

/-- BNE is taken (49 R477). -/
def condNe (a b : Word) : Bool := !(a == b)

/-- BLEZ is taken: `s32(a) <= 0` (49 R478). -/
def condLez (a : Word) : Bool := decide (a.toInt ≤ 0)

/-- BGTZ is taken: `s32(a) > 0` (49 R479). -/
def condGtz (a : Word) : Bool := decide (0 < a.toInt)

/-- BLTZ and BLTZAL are taken: `s32(a) < 0` (49 R480, R482). -/
def condLtz (a : Word) : Bool := decide (a.toInt < 0)

/-- BGEZ and BGEZAL are taken: `s32(a) >= 0` (49 R481, R483). -/
def condGez (a : Word) : Bool := decide (0 ≤ a.toInt)

end Sys2Proof.Machine
end

