-- ==== Sys2Proof/Machine/Operands.lean ====
section
/-! DEFINITION. What decode does to an Op (44 R202, R203; 30 R93, R94, R100) and how execute gets its
operands (43 R164 to R170, operand_bypass_mux), with every immediate and address form (30 R94). -/

namespace Sys2Proof.Machine

/-! ### Immediate and target forms (30 R94; 49 R460, R475) -/

/-- Base plus sign-extended displacement, modulo 2^32 (49 R460; 43 R174). -/
def effectiveAddress (base : Word) (off : BitVec 16) : Word := base + sext16 off

/-- The address of the next instruction in sequence (30 R91). -/
def nextSeq (pc : Word) : Word := pc + 4

/-- `bt = pc + 4 + (sext_16(imm16) << 2)` (49 R475). -/
def branchTarget (pc : Word) (off : BitVec 16) : Word := nextSeq pc + (sext16 off <<< 2)

/-- `jt = (pc + 4)[31:28] ++ jtarget ++ 0b00` (49 R475). -/
def jumpTarget (pc : Word) (target : BitVec 26) : Word :=
  (nextSeq pc).extractLsb' 28 4 ++ target ++ 0#2

/-! ### Decode: fields and classes -/

/-- What decode marks on an Op (30 R100). -/
structure OperandClass where
  src1 : Option Reg
  src2 : Option Reg
  dst : Option Reg
  isMem : Bool
  memWrite : Bool
  isBranch : Bool
  branchCond : Bool
deriving DecidableEq, Repr

/-- A plain register operation. -/
def aluClass (src1 src2 dst : Option Reg) : OperandClass :=
  ⟨src1, src2, dst, false, false, false, false⟩

/-- A load. -/
def loadClass (rs rt : Reg) : OperandClass := ⟨some rs, none, some rt, true, false, false, false⟩

/-- A store. -/
def storeClass (rs rt : Reg) : OperandClass := ⟨some rs, some rt, none, true, true, false, false⟩

/-- A conditional branch. -/
def branchClass (src1 src2 dst : Option Reg) : OperandClass :=
  ⟨src1, src2, dst, false, false, true, true⟩

/-- An unconditional jump. -/
def jumpClass (src1 dst : Option Reg) : OperandClass := ⟨src1, none, dst, false, false, true, false⟩

/-- The link register of JAL, BLTZAL, BGEZAL (10 R20). -/
def linkReg : Reg := 31

/-- The register SYSCALL reads (30 R100; 49 R495). -/
def syscallReg : Reg := 2

/-- The rows of 30 R100. -/
def classOf : Instr → OperandClass
  | .sll rd rt _ => aluClass none (some rt) (some rd)
  | .srl rd rt _ => aluClass none (some rt) (some rd)
  | .sra rd rt _ => aluClass none (some rt) (some rd)
  | .sllv rd rt rs => aluClass (some rs) (some rt) (some rd)
  | .srlv rd rt rs => aluClass (some rs) (some rt) (some rd)
  | .srav rd rt rs => aluClass (some rs) (some rt) (some rd)
  | .jr rs => jumpClass (some rs) none
  | .jalr rd rs => jumpClass (some rs) (some rd)
  | .syscall => aluClass (some syscallReg) none none
  | .mfhi rd => aluClass none none (some rd)
  | .mthi rs => aluClass (some rs) none none
  | .mflo rd => aluClass none none (some rd)
  | .mtlo rs => aluClass (some rs) none none
  | .mult rs rt => aluClass (some rs) (some rt) none
  | .multu rs rt => aluClass (some rs) (some rt) none
  | .div rs rt => aluClass (some rs) (some rt) none
  | .divu rs rt => aluClass (some rs) (some rt) none
  | .add rd rs rt => aluClass (some rs) (some rt) (some rd)
  | .addu rd rs rt => aluClass (some rs) (some rt) (some rd)
  | .sub rd rs rt => aluClass (some rs) (some rt) (some rd)
  | .subu rd rs rt => aluClass (some rs) (some rt) (some rd)
  | .and rd rs rt => aluClass (some rs) (some rt) (some rd)
  | .or rd rs rt => aluClass (some rs) (some rt) (some rd)
  | .xor rd rs rt => aluClass (some rs) (some rt) (some rd)
  | .nor rd rs rt => aluClass (some rs) (some rt) (some rd)
  | .slt rd rs rt => aluClass (some rs) (some rt) (some rd)
  | .sltu rd rs rt => aluClass (some rs) (some rt) (some rd)
  | .bltz rs _ => branchClass (some rs) none none
  | .bgez rs _ => branchClass (some rs) none none
  | .bltzal rs _ => branchClass (some rs) none (some linkReg)
  | .bgezal rs _ => branchClass (some rs) none (some linkReg)
  | .j _ => jumpClass none none
  | .jal _ => jumpClass none (some linkReg)
  | .beq rs rt _ => branchClass (some rs) (some rt) none
  | .bne rs rt _ => branchClass (some rs) (some rt) none
  | .blez rs _ => branchClass (some rs) none none
  | .bgtz rs _ => branchClass (some rs) none none
  | .addi rt rs _ => aluClass (some rs) none (some rt)
  | .addiu rt rs _ => aluClass (some rs) none (some rt)
  | .slti rt rs _ => aluClass (some rs) none (some rt)
  | .sltiu rt rs _ => aluClass (some rs) none (some rt)
  | .andi rt rs _ => aluClass (some rs) none (some rt)
  | .ori rt rs _ => aluClass (some rs) none (some rt)
  | .xori rt rs _ => aluClass (some rs) none (some rt)
  | .lui rt _ => aluClass none none (some rt)
  | .lb rt _ rs => loadClass rs rt
  | .lh rt _ rs => loadClass rs rt
  | .lw rt _ rs => loadClass rs rt
  | .lbu rt _ rs => loadClass rs rt
  | .lhu rt _ rs => loadClass rs rt
  | .sb rt _ rs => storeClass rs rt
  | .sh rt _ rs => storeClass rs rt
  | .sw rt _ rs => storeClass rs rt

/-- The row "unrecognised" of 30 R100 (R98). -/
def unrecognisedClass : OperandClass := aluClass none none none

/-- `Classify(op)` for a given row (44 R203). -/
def Op.classify (op : Op) (c : OperandClass) : Op :=
  { op with
    src1 := c.src1, src2 := c.src2, dst := c.dst, isMem := c.isMem, memWrite := c.memWrite
    isBranch := c.isBranch, branchCond := c.branchCond }

/-- `Op.subop`: `funct` when `op` = 0, `rt` when `op` = 1, else 0 (30 R93). -/
def subopOf (w : Word) : BitVec 6 :=
  if opField w = 0 then functField w
  else if opField w = 1 then (rtField w).zeroExtend 6
  else 0

/-- `DecodeFields(op)`: from `op.instr` alone (44 R202; 30 R93, R94). -/
def Op.decodeFields (op : Op) : Op :=
  { op with
    opcode := opField op.instr, subop := subopOf op.instr, imm16 := immField op.instr
    seImm := sext16 (immField op.instr), shamt := shamtField op.instr
    jtarget := targetField op.instr }

/-- The row of 30 R100 a word selects. -/
def classOfWord (w : Word) : OperandClass :=
  match decodeWord w with
  | .ok i => classOf i
  | .error _ => unrecognisedClass

/-- What decode does to an Op: fields, then class (44 R200). -/
def Op.decode (op : Op) : Op := op.decodeFields.classify (classOfWord op.instr)

/-- The Op read as `i`: operation and class of `i`. It changes nothing in an Op that decode has
already classified as `i`; decoding lazily at execute is the same machine (44 R207). -/
def Op.readAs (op : Op) (i : Instr) : Op :=
  { op with opcode := opField (encode i), subop := subopOf (encode i) }.classify (classOf i)

/-- `ReadsHiLo`: MFHI and MFLO (43 R176). -/
def readsHiLo : Instr → Bool
  | .mfhi _ | .mflo _ => true
  | _ => false

/-! ### operand_bypass_mux (43 R166 to R169) -/

/-- The `WB` branch, else the register file (R168, R169). -/
def State.bypassWb (s : State) (r : Reg) : Word :=
  match s.wb with
  | some w => if w.dst = some r then w.dstVal else s.reg r
  | none => s.reg r

/-- `ResolveOperand(r)`: a value and a stall request (R166). -/
def State.resolveOperand (s : State) (r : Reg) : Word × Bool :=
  if r = 0#5 then (0, false)
  else
    match s.me with
    | some m =>
      if m.dst = some r then (if m.dstReady then (m.dstVal, false) else (0, true))
      else (s.bypassWb r, false)
    | none => (s.bypassWb r, false)

/-- A source that is `none` is not resolved; its value field keeps what it holds (R165). -/
def State.resolveSource (s : State) (src : Option Reg) (held : Word) : Word × Bool :=
  match src with
  | some r => s.resolveOperand r
  | none => (held, false)

/-- Both sources resolved, or `none` when either asks for a stall (R160, R170). -/
def State.resolveOperands (s : State) (op : Op) : Option Op :=
  let a := s.resolveSource op.src1 op.src1Val
  let b := s.resolveSource op.src2 op.src2Val
  if a.2 || b.2 then none else some { op with src1Val := a.1, src2Val := b.1 }

end Sys2Proof.Machine
end

