-- ==== Sys2Proof/Machine/Predictor.lean ====
section
/-! DEFINITION. gshare_predictor, branch_target_buffer, btb_update_logic (46_branch_predictor.md). -/

namespace Sys2Proof.Machine

/-- `BtbIndex(pc) = pc[11:2]` (R262). -/
def btbIndex (pc : Word) : BitVec 10 := pc.extractLsb' 2 10

/-- `PatternIndex(pc) = GHR ^ pc[9:2]` (R263). -/
def patternIndex (ghr : BitVec 8) (pc : Word) : BitVec 8 := ghr ^^^ pc.extractLsb' 2 8

/-- The BTB entry a pc selects (R262). -/
def State.btbEntry (s : State) (pc : Word) : BtbEntry := s.btb.get (btbIndex pc).toFin

/-- The pattern counter at an index. -/
def State.counter (s : State) (i : BitVec 8) : BitVec 2 := s.pht.get i.toFin

/-- What `Predict` returns. -/
structure Prediction where
  nextPc : Word
  isBranch : Bool
  taken : Bool
deriving DecidableEq, Repr

/-- The entry holds the branch at `pc`: valid, and all 32 address bits equal (R262). -/
def BtbEntry.hits (e : BtbEntry) (pc : Word) : Bool := e.valid && e.addr == pc

/-- `Predict(pc)` (R264, R265, R266); it changes no state (R267). -/
def State.predict (s : State) (pc : Word) : Prediction :=
  let e := s.btbEntry pc
  if e.hits pc then
    if e.uncond || decide (1 < (s.counter (patternIndex s.ghr pc)).toNat) then
      ⟨e.target, true, true⟩
    else ⟨nextSeq pc, true, false⟩
  else ⟨nextSeq pc, false, false⟩

/-- A 2-bit counter counts up, saturating at 3, or down, saturating at 0 (R268, R270). -/
def saturate (c : BitVec 2) (taken : Bool) : BitVec 2 :=
  if taken then (if c = 3 then 3 else c + 1) else (if c = 0 then 0 else c - 1)

/-- The history with an outcome shifted into bit 0; bit 7 is dropped (R268). -/
def shiftHistory (ghr : BitVec 8) (taken : Bool) : BitVec 8 :=
  (ghr <<< 1) ||| (if taken then 1 else 0)

/-- `Update(pc, taken)`: the counter at the index of the history before the shift, then the history
(R268, R269; 92 D41). -/
def State.updateDirection (s : State) (pc : Word) (taken : Bool) : State :=
  let i := patternIndex s.ghr pc
  { s with pht := s.pht.set i.toFin (saturate (s.counter i) taken), ghr := shiftHistory s.ghr taken }

/-- `BtbRefresh(pc, target, uncond)`: the entry is overwritten (R272). -/
def State.refreshBtb (s : State) (pc target : Word) (uncond : Bool) : State :=
  { s with btb := s.btb.set (btbIndex pc).toFin ⟨true, pc, target, uncond⟩ }

end Sys2Proof.Machine
end

