-- ==== Sys2Proof/Machine/Execute.lean ====
section
/-! DEFINITION. The execute handler (43_execute_stage.md): pipeline_hazard_detector's stall decisions,
branch resolution and the move to ME, once, for every instruction. A meaning gives `Compute(op)`. -/

namespace Sys2Proof.Machine

/-! ### What `Compute` writes into the Op (R172, R174, R179) -/

/-- A register result: `dst_val` and `dst_ready` (R172). -/
def Op.result (op : Op) (v : Word) : Op := { op with dstVal := v, dstReady := true }

/-- The effective address of a load (R174); mem obtains the value. -/
def Op.address (op : Op) (a : Word) : Op := { op with memAddr := a }

/-- The effective address and the store value of a store (R174). -/
def Op.storeAt (op : Op) (a v : Word) : Op := { op with memAddr := a, memValue := v }

/-- A resolved branch: direction and destination, the latter whether or not it is taken (R179). -/
def Op.branch (op : Op) (taken : Bool) (dest : Word) : Op :=
  { op with branchTaken := taken, branchDest := dest }

/-! ### Branch resolution (R180 to R185) -/

/-- `Mismatch(op)` (R180): no prediction, another direction, or another target when taken. -/
def Op.mismatch (op : Op) : Bool :=
  !op.predIsBranch || op.predTaken != op.branchTaken ||
    (op.branchTaken && op.predDest != op.branchDest)

/-- `CorrectNextPc(op)` (R181). -/
def Op.correctNextPc (op : Op) : Word := if op.branchTaken then op.branchDest else nextSeq op.pc

/-- The recovery of a mismatch (R180, R183). -/
def State.recoverIfMismatch (s : State) (op : Op) : State :=
  if op.mismatch then s.recover branchFlushDepth op.correctNextPc else s

/-- The direction update of a conditional branch (R182). -/
def State.updateIfCond (s : State) (op : Op) : State :=
  if op.branchCond then s.updateDirection op.pc op.branchTaken else s

/-- Everything a resolved branch does: `Recover`, `Update`, `BtbRefresh` (R160, R187). -/
def State.resolveBranch (s : State) (op : Op) : State :=
  if op.isBranch then
    ((s.recoverIfMismatch op).updateIfCond op).refreshBtb op.pc op.branchDest (!op.branchCond)
  else s

/-- The move `EX <- none; ME <- op` (R186). -/
def State.moveToMem (s : State) (op : Op) : State := { s with ex := none, me := some op }

/-! ### Execute() (R160) -/

/-- `Execute()` with the Op in EX prepared by `prepare`: the countdown (R161), the empty slot (R162),
back-pressure (R163), operand resolution and its stall (R164, R170), the HI/LO wait (R176), `Compute`,
branch resolution, the move (R186). A stalled evaluation changes nothing but the countdown. -/
def executeWith (prepare : Op → Op) (waits : Bool) (compute : Op → State → Op × State) (s : State) :
    Result State :=
  let wasBusy := decide (0 < s.mduBusy)
  let s := s.tickMdu
  match s.ex with
  | none => .next s
  | some held =>
    if s.me.isSome then .next s
    else
      match s.resolveOperands (prepare held) with
      | none => .next s
      | some op =>
        if waits && wasBusy then .next s
        else
          let (op, s) := compute op s
          .next ((s.resolveBranch op).moveToMem op)

/-- `Execute()` with the Op in EX read as the instruction `i`. -/
def executeAs (i : Instr) (compute : Op → State → Op × State) (s : State) : Result State :=
  executeWith (·.readAs i) (readsHiLo i) compute s

/-- `Compute` of an instruction whose whole effect is in the Op. -/
def inOp (f : Op → Op) : Op → State → Op × State := fun op s => (f op, s)

/-- An unrecognised word: it computes nothing and moves on (30 R98; 93 U1). -/
def executeUnrecognised (s : State) : Result State :=
  executeWith (·.classify unrecognisedClass) false (inOp id) s

end Sys2Proof.Machine
end

