-- ==== Sys2Proof/Machine/Alu.lean ====
section
/-! DEFINITION. Register arithmetic and logic (48 R410 to R419). `src1_val` is `x[rs]`, `src2_val` is
`x[rt]` (30 R100). Nothing traps on overflow (48 R410, R412; 92 D14). -/

namespace Sys2Proof.Machine

/-- ADD: wraps (48 R410). -/
def execAdd (rd rs rt : Reg) (s : State) : Result State :=
  executeAs (.add rd rs rt) (inOp fun op => op.result (op.src1Val + op.src2Val)) s

/-- ADDU (48 R411). -/
def execAddu (rd rs rt : Reg) (s : State) : Result State :=
  executeAs (.addu rd rs rt) (inOp fun op => op.result (op.src1Val + op.src2Val)) s

/-- SUB: wraps (48 R412). -/
def execSub (rd rs rt : Reg) (s : State) : Result State :=
  executeAs (.sub rd rs rt) (inOp fun op => op.result (op.src1Val - op.src2Val)) s

/-- SUBU (48 R413). -/
def execSubu (rd rs rt : Reg) (s : State) : Result State :=
  executeAs (.subu rd rs rt) (inOp fun op => op.result (op.src1Val - op.src2Val)) s

/-- AND (48 R414). -/
def execAnd (rd rs rt : Reg) (s : State) : Result State :=
  executeAs (.and rd rs rt) (inOp fun op => op.result (op.src1Val &&& op.src2Val)) s

/-- OR (48 R415). -/
def execOr (rd rs rt : Reg) (s : State) : Result State :=
  executeAs (.or rd rs rt) (inOp fun op => op.result (op.src1Val ||| op.src2Val)) s

/-- XOR (48 R416). -/
def execXor (rd rs rt : Reg) (s : State) : Result State :=
  executeAs (.xor rd rs rt) (inOp fun op => op.result (op.src1Val ^^^ op.src2Val)) s

/-- NOR (48 R417). -/
def execNor (rd rs rt : Reg) (s : State) : Result State :=
  executeAs (.nor rd rs rt) (inOp fun op => op.result (~~~(op.src1Val ||| op.src2Val))) s

/-- SLT (48 R418). -/
def execSlt (rd rs rt : Reg) (s : State) : Result State :=
  executeAs (.slt rd rs rt)
    (inOp fun op => op.result (wordOfBool (lessSigned op.src1Val op.src2Val))) s

/-- SLTU (48 R419). -/
def execSltu (rd rs rt : Reg) (s : State) : Result State :=
  executeAs (.sltu rd rs rt)
    (inOp fun op => op.result (wordOfBool (lessUnsigned op.src1Val op.src2Val))) s

end Sys2Proof.Machine
end

