-- ==== Sys2Proof/Machine/Branches.lean ====
section
/-! DEFINITION. Branches and jumps (49 R475 to R487). Execute resolves direction and destination; the
recovery, the direction update and the BTB refresh follow in `executeAs` (43 R180 to R185). There are
no delay slots; the link value is `pc + 4` (43 R184). `src1_val` is `x[rs]`, `src2_val` is `x[rt]`. -/

namespace Sys2Proof.Machine

/-- BEQ (49 R476). -/
def execBeq (rs rt : Reg) (off : BitVec 16) (s : State) : Result State :=
  executeAs (.beq rs rt off)
    (inOp fun op => op.branch (condEq op.src1Val op.src2Val) (branchTarget op.pc off)) s

/-- BNE (49 R477). -/
def execBne (rs rt : Reg) (off : BitVec 16) (s : State) : Result State :=
  executeAs (.bne rs rt off)
    (inOp fun op => op.branch (condNe op.src1Val op.src2Val) (branchTarget op.pc off)) s

/-- BLEZ (49 R478). -/
def execBlez (rs : Reg) (off : BitVec 16) (s : State) : Result State :=
  executeAs (.blez rs off)
    (inOp fun op => op.branch (condLez op.src1Val) (branchTarget op.pc off)) s

/-- BGTZ (49 R479). -/
def execBgtz (rs : Reg) (off : BitVec 16) (s : State) : Result State :=
  executeAs (.bgtz rs off)
    (inOp fun op => op.branch (condGtz op.src1Val) (branchTarget op.pc off)) s

/-- BLTZ (49 R480). -/
def execBltz (rs : Reg) (off : BitVec 16) (s : State) : Result State :=
  executeAs (.bltz rs off)
    (inOp fun op => op.branch (condLtz op.src1Val) (branchTarget op.pc off)) s

/-- BGEZ (49 R481). -/
def execBgez (rs : Reg) (off : BitVec 16) (s : State) : Result State :=
  executeAs (.bgez rs off)
    (inOp fun op => op.branch (condGez op.src1Val) (branchTarget op.pc off)) s

/-- BLTZAL: the link is written taken or not, the condition reads `rs` before it (49 R482). -/
def execBltzal (rs : Reg) (off : BitVec 16) (s : State) : Result State :=
  executeAs (.bltzal rs off)
    (inOp fun op =>
      (op.branch (condLtz op.src1Val) (branchTarget op.pc off)).result (nextSeq op.pc)) s

/-- BGEZAL: the link is written taken or not (49 R483). -/
def execBgezal (rs : Reg) (off : BitVec 16) (s : State) : Result State :=
  executeAs (.bgezal rs off)
    (inOp fun op =>
      (op.branch (condGez op.src1Val) (branchTarget op.pc off)).result (nextSeq op.pc)) s

/-- J (49 R484). -/
def execJ (target : BitVec 26) (s : State) : Result State :=
  executeAs (.j target) (inOp fun op => op.branch true (jumpTarget op.pc target)) s

/-- JAL (49 R485). -/
def execJal (target : BitVec 26) (s : State) : Result State :=
  executeAs (.jal target)
    (inOp fun op => (op.branch true (jumpTarget op.pc target)).result (nextSeq op.pc)) s

/-- JR: all 32 bits of `x[rs]`, no alignment check (49 R486). -/
def execJr (rs : Reg) (s : State) : Result State :=
  executeAs (.jr rs) (inOp fun op => op.branch true op.src1Val) s

/-- JALR: with `rd` = `rs` the jump uses the old value (49 R487). -/
def execJalr (rd rs : Reg) (s : State) : Result State :=
  executeAs (.jalr rd rs) (inOp fun op => (op.branch true op.src1Val).result (nextSeq op.pc)) s

end Sys2Proof.Machine
end

