-- ==== Sys2Proof/Machine/Immediate.lean ====
section
/-! DEFINITION. Immediate arithmetic and logic (48 R420 to R427). `src1_val` is `x[rs]` (30 R100);
arithmetic and comparisons sign-extend the immediate, the logical ones zero-extend it (30 R94). -/

namespace Sys2Proof.Machine

/-- `imm16 ++ 0x0000` (48 R427). -/
def upperImmediate (imm : BitVec 16) : Word := imm ++ 0#16

/-- ADDI: wraps (48 R420). -/
def execAddi (rt rs : Reg) (imm : BitVec 16) (s : State) : Result State :=
  executeAs (.addi rt rs imm) (inOp fun op => op.result (op.src1Val + sext16 imm)) s

/-- ADDIU: the immediate is sign-extended (48 R421). -/
def execAddiu (rt rs : Reg) (imm : BitVec 16) (s : State) : Result State :=
  executeAs (.addiu rt rs imm) (inOp fun op => op.result (op.src1Val + sext16 imm)) s

/-- SLTI (48 R422). -/
def execSlti (rt rs : Reg) (imm : BitVec 16) (s : State) : Result State :=
  executeAs (.slti rt rs imm)
    (inOp fun op => op.result (wordOfBool (lessSigned op.src1Val (sext16 imm)))) s

/-- SLTIU: sign-extended, then compared unsigned (48 R423). -/
def execSltiu (rt rs : Reg) (imm : BitVec 16) (s : State) : Result State :=
  executeAs (.sltiu rt rs imm)
    (inOp fun op => op.result (wordOfBool (lessUnsigned op.src1Val (sext16 imm)))) s

/-- ANDI (48 R424). -/
def execAndi (rt rs : Reg) (imm : BitVec 16) (s : State) : Result State :=
  executeAs (.andi rt rs imm) (inOp fun op => op.result (op.src1Val &&& zext16 imm)) s

/-- ORI (48 R425). -/
def execOri (rt rs : Reg) (imm : BitVec 16) (s : State) : Result State :=
  executeAs (.ori rt rs imm) (inOp fun op => op.result (op.src1Val ||| zext16 imm)) s

/-- XORI (48 R426). -/
def execXori (rt rs : Reg) (imm : BitVec 16) (s : State) : Result State :=
  executeAs (.xori rt rs imm) (inOp fun op => op.result (op.src1Val ^^^ zext16 imm)) s

/-- LUI: reads no register (48 R427). -/
def execLui (rt : Reg) (imm : BitVec 16) (s : State) : Result State :=
  executeAs (.lui rt imm) (inOp fun op => op.result (upperImmediate imm)) s

end Sys2Proof.Machine
end

