-- ==== Sys2Proof/Machine/LoadStore.lean ====
section
/-! DEFINITION. Loads and stores (49 R460 to R470). In execute each computes its effective address,
and a store its value (43 R174); the access is made by the mem handler (MemStage.lean: `Extract` and
`Merge`, size and extension by the Op's opcode, 42 R145 to R147), and a load's register is written by
the writeback handler. `src1_val` is `x[rs]`, `src2_val` is `x[rt]` (30 R100). -/

namespace Sys2Proof.Machine

/-- LB (49 R461). -/
def execLb (rt : Reg) (off : BitVec 16) (rs : Reg) (s : State) : Result State :=
  executeAs (.lb rt off rs) (inOp fun op => op.address (effectiveAddress op.src1Val off)) s

/-- LBU (49 R462). -/
def execLbu (rt : Reg) (off : BitVec 16) (rs : Reg) (s : State) : Result State :=
  executeAs (.lbu rt off rs) (inOp fun op => op.address (effectiveAddress op.src1Val off)) s

/-- LH (49 R463). -/
def execLh (rt : Reg) (off : BitVec 16) (rs : Reg) (s : State) : Result State :=
  executeAs (.lh rt off rs) (inOp fun op => op.address (effectiveAddress op.src1Val off)) s

/-- LHU (49 R464). -/
def execLhu (rt : Reg) (off : BitVec 16) (rs : Reg) (s : State) : Result State :=
  executeAs (.lhu rt off rs) (inOp fun op => op.address (effectiveAddress op.src1Val off)) s

/-- LW (49 R465). -/
def execLw (rt : Reg) (off : BitVec 16) (rs : Reg) (s : State) : Result State :=
  executeAs (.lw rt off rs) (inOp fun op => op.address (effectiveAddress op.src1Val off)) s

/-- SB (49 R467). -/
def execSb (rt : Reg) (off : BitVec 16) (rs : Reg) (s : State) : Result State :=
  executeAs (.sb rt off rs)
    (inOp fun op => op.storeAt (effectiveAddress op.src1Val off) op.src2Val) s

/-- SH (49 R468). -/
def execSh (rt : Reg) (off : BitVec 16) (rs : Reg) (s : State) : Result State :=
  executeAs (.sh rt off rs)
    (inOp fun op => op.storeAt (effectiveAddress op.src1Val off) op.src2Val) s

/-- SW (49 R469). -/
def execSw (rt : Reg) (off : BitVec 16) (rs : Reg) (s : State) : Result State :=
  executeAs (.sw rt off rs)
    (inOp fun op => op.storeAt (effectiveAddress op.src1Val off) op.src2Val) s

end Sys2Proof.Machine
end

