-- ==== Sys2Proof/Machine/MulDiv.lean ====
section
/-! DEFINITION. Multiply, divide and the HI/LO moves (48 R430 to R438; 43 R173 to R178). HI and LO are
written at execute; the multiply and divide never wait (43 R177). -/

namespace Sys2Proof.Machine

/-- The high and low word of a 64-bit number. -/
def highWord (p : BitVec 64) : Word := p.extractLsb' 32 32
/-- Bits 31..0. -/
def lowWord (p : BitVec 64) : Word := p.extractLsb' 0 32

/-- `s32(a) * s32(b)` in 64 bits (48 R431). -/
def signedProduct (a b : Word) : BitVec 64 := BitVec.ofInt 64 (a.toInt * b.toInt)

/-- `a * b` unsigned in 64 bits (48 R432). -/
def unsignedProduct (a b : Word) : BitVec 64 := BitVec.ofNat 64 (a.toNat * b.toNat)

/-- The signed quotient, truncated toward zero; 0 for a zero divisor (48 R433; 92 D16). -/
def signedQuotient (a b : Word) : Word := BitVec.ofInt 32 (a.toInt.tdiv b.toInt)

/-- The signed remainder, with the dividend's sign; 0 for a zero divisor (48 R433). -/
def signedRemainder (a b : Word) : Word :=
  if b = 0 then 0 else BitVec.ofInt 32 (a.toInt - a.toInt.tdiv b.toInt * b.toInt)

/-- The unsigned quotient; 0 for a zero divisor (48 R434). -/
def unsignedQuotient (a b : Word) : Word := BitVec.ofNat 32 (a.toNat / b.toNat)

/-- The unsigned remainder; 0 for a zero divisor (48 R434). -/
def unsignedRemainder (a b : Word) : Word :=
  if b = 0 then 0 else BitVec.ofNat 32 (a.toNat % b.toNat)

/-- MULT (48 R431). -/
def execMult (rs rt : Reg) (s : State) : Result State :=
  executeAs (.mult rs rt)
    (fun op s =>
      let p := signedProduct op.src1Val op.src2Val
      (op, s.writeHiLo (highWord p) (lowWord p) multLatency)) s

/-- MULTU (48 R432). -/
def execMultu (rs rt : Reg) (s : State) : Result State :=
  executeAs (.multu rs rt)
    (fun op s =>
      let p := unsignedProduct op.src1Val op.src2Val
      (op, s.writeHiLo (highWord p) (lowWord p) multLatency)) s

/-- DIV; divide by zero gives HI = LO = 0 with no trap (48 R433; 43 R175). -/
def execDiv (rs rt : Reg) (s : State) : Result State :=
  executeAs (.div rs rt)
    (fun op s =>
      (op, s.writeHiLo (signedRemainder op.src1Val op.src2Val)
        (signedQuotient op.src1Val op.src2Val) divLatency)) s

/-- DIVU; divide by zero gives HI = LO = 0 with no trap (48 R434; 43 R175). -/
def execDivu (rs rt : Reg) (s : State) : Result State :=
  executeAs (.divu rs rt)
    (fun op s =>
      (op, s.writeHiLo (unsignedRemainder op.src1Val op.src2Val)
        (unsignedQuotient op.src1Val op.src2Val) divLatency)) s

/-- MFHI: waits while the countdown was positive, then takes the current HI (48 R435; 43 R176). -/
def execMfhi (rd : Reg) (s : State) : Result State :=
  executeAs (.mfhi rd) (fun op s => (op.result s.hi, s)) s

/-- MFLO: as MFHI, with LO (48 R436). -/
def execMflo (rd : Reg) (s : State) : Result State :=
  executeAs (.mflo rd) (fun op s => (op.result s.lo, s)) s

/-- MTHI: no wait, the countdown unchanged (48 R437; 43 R178). -/
def execMthi (rs : Reg) (s : State) : Result State :=
  executeAs (.mthi rs) (fun op s => (op, s.writeHi op.src1Val)) s

/-- MTLO: no wait, the countdown unchanged (48 R438; 43 R178). -/
def execMtlo (rs : Reg) (s : State) : Result State :=
  executeAs (.mtlo rs) (fun op s => (op, s.writeLo op.src1Val)) s

end Sys2Proof.Machine
end

