-- ==== Sys2Proof/Machine/Shifts.lean ====
section
/-! DEFINITION. The shifts (48 R402 to R407). `src2_val` is `x[rt]`, `src1_val` is `x[rs]` (30 R100). -/

namespace Sys2Proof.Machine

/-- The shift amount of a register shift: the low five bits (48 R405). -/
def shiftAmount (v : Word) : Nat := (v.extractLsb' 0 5).toNat

/-- `(v << n)[31:0]`. -/
def shiftLeft (v : Word) (n : Nat) : Word := v <<< n

/-- `v >> n`, zeros shifted in. -/
def shiftRight (v : Word) (n : Nat) : Word := v >>> n

/-- `v >>s n`, copies of bit 31 shifted in. -/
def shiftRightArith (v : Word) (n : Nat) : Word := v.sshiftRight n

/-- SLL (48 R402). -/
def execSll (rd rt : Reg) (shamt : BitVec 5) (s : State) : Result State :=
  executeAs (.sll rd rt shamt) (inOp fun op => op.result (shiftLeft op.src2Val shamt.toNat)) s

/-- SRL (48 R403). -/
def execSrl (rd rt : Reg) (shamt : BitVec 5) (s : State) : Result State :=
  executeAs (.srl rd rt shamt) (inOp fun op => op.result (shiftRight op.src2Val shamt.toNat)) s

/-- SRA (48 R404). -/
def execSra (rd rt : Reg) (shamt : BitVec 5) (s : State) : Result State :=
  executeAs (.sra rd rt shamt) (inOp fun op => op.result (shiftRightArith op.src2Val shamt.toNat)) s

/-- SLLV (48 R405). -/
def execSllv (rd rt rs : Reg) (s : State) : Result State :=
  executeAs (.sllv rd rt rs)
    (inOp fun op => op.result (shiftLeft op.src2Val (shiftAmount op.src1Val))) s

/-- SRLV (48 R406). -/
def execSrlv (rd rt rs : Reg) (s : State) : Result State :=
  executeAs (.srlv rd rt rs)
    (inOp fun op => op.result (shiftRight op.src2Val (shiftAmount op.src1Val))) s

/-- SRAV (48 R407). -/
def execSrav (rd rt rs : Reg) (s : State) : Result State :=
  executeAs (.srav rd rt rs)
    (inOp fun op => op.result (shiftRightArith op.src2Val (shiftAmount op.src1Val))) s

end Sys2Proof.Machine
end

