-- ==== Sys2Proof/Machine/System.lean ====
section
/-! DEFINITION. SYSCALL (49 R495), the one system instruction (R496). -/

namespace Sys2Proof.Machine

/-- SYSCALL in execute: it resolves register 2, computes nothing and moves on (43 R188). -/
def execSyscall (s : State) : Result State := executeAs .syscall (inOp id) s

/-- The selector of the halting syscall (49 R495; 92 D31). -/
def haltSelector : Word := 10

/-- `IsHaltSyscall(op)`: SPECIAL, SYSCALL, and the selector it read is 10 (41 R133). The halt itself
is taken at writeback. -/
def Op.isHaltSyscall (op : Op) : Bool :=
  op.opcode == 0x00 && op.subop == 0x0C && op.src1Val == haltSelector

end Sys2Proof.Machine
end

