-- ==== Sys2Proof/Machine/Dispatch.lean ====
section
/-! DEFINITION. One arm per instruction. `exec i s` is the evaluation of `Execute()` (43 R160) with the
Op in EX read as `i`: the stage in which an instruction computes. What mem and writeback do for the
Op afterwards is MemStage.lean and Stages.lean (notes/assumptions/1.md). -/

namespace Sys2Proof.Machine

def exec (i : Instr) (s : State) : Host.Outcome State Fault Refusal :=
  match i with
  | .sll rd rt shamt => Sys2Proof.Machine.execSll rd rt shamt s
  | .srl rd rt shamt => Sys2Proof.Machine.execSrl rd rt shamt s
  | .sra rd rt shamt => Sys2Proof.Machine.execSra rd rt shamt s
  | .sllv rd rt rs => Sys2Proof.Machine.execSllv rd rt rs s
  | .srlv rd rt rs => Sys2Proof.Machine.execSrlv rd rt rs s
  | .srav rd rt rs => Sys2Proof.Machine.execSrav rd rt rs s
  | .jr rs => Sys2Proof.Machine.execJr rs s
  | .jalr rd rs => Sys2Proof.Machine.execJalr rd rs s
  | .syscall => Sys2Proof.Machine.execSyscall s
  | .mfhi rd => Sys2Proof.Machine.execMfhi rd s
  | .mthi rs => Sys2Proof.Machine.execMthi rs s
  | .mflo rd => Sys2Proof.Machine.execMflo rd s
  | .mtlo rs => Sys2Proof.Machine.execMtlo rs s
  | .mult rs rt => Sys2Proof.Machine.execMult rs rt s
  | .multu rs rt => Sys2Proof.Machine.execMultu rs rt s
  | .div rs rt => Sys2Proof.Machine.execDiv rs rt s
  | .divu rs rt => Sys2Proof.Machine.execDivu rs rt s
  | .add rd rs rt => Sys2Proof.Machine.execAdd rd rs rt s
  | .addu rd rs rt => Sys2Proof.Machine.execAddu rd rs rt s
  | .sub rd rs rt => Sys2Proof.Machine.execSub rd rs rt s
  | .subu rd rs rt => Sys2Proof.Machine.execSubu rd rs rt s
  | .and rd rs rt => Sys2Proof.Machine.execAnd rd rs rt s
  | .or rd rs rt => Sys2Proof.Machine.execOr rd rs rt s
  | .xor rd rs rt => Sys2Proof.Machine.execXor rd rs rt s
  | .nor rd rs rt => Sys2Proof.Machine.execNor rd rs rt s
  | .slt rd rs rt => Sys2Proof.Machine.execSlt rd rs rt s
  | .sltu rd rs rt => Sys2Proof.Machine.execSltu rd rs rt s
  | .bltz rs off => Sys2Proof.Machine.execBltz rs off s
  | .bgez rs off => Sys2Proof.Machine.execBgez rs off s
  | .bltzal rs off => Sys2Proof.Machine.execBltzal rs off s
  | .bgezal rs off => Sys2Proof.Machine.execBgezal rs off s
  | .j target => Sys2Proof.Machine.execJ target s
  | .jal target => Sys2Proof.Machine.execJal target s
  | .beq rs rt off => Sys2Proof.Machine.execBeq rs rt off s
  | .bne rs rt off => Sys2Proof.Machine.execBne rs rt off s
  | .blez rs off => Sys2Proof.Machine.execBlez rs off s
  | .bgtz rs off => Sys2Proof.Machine.execBgtz rs off s
  | .addi rt rs imm => Sys2Proof.Machine.execAddi rt rs imm s
  | .addiu rt rs imm => Sys2Proof.Machine.execAddiu rt rs imm s
  | .slti rt rs imm => Sys2Proof.Machine.execSlti rt rs imm s
  | .sltiu rt rs imm => Sys2Proof.Machine.execSltiu rt rs imm s
  | .andi rt rs imm => Sys2Proof.Machine.execAndi rt rs imm s
  | .ori rt rs imm => Sys2Proof.Machine.execOri rt rs imm s
  | .xori rt rs imm => Sys2Proof.Machine.execXori rt rs imm s
  | .lui rt imm => Sys2Proof.Machine.execLui rt imm s
  | .lb rt off rs => Sys2Proof.Machine.execLb rt off rs s
  | .lh rt off rs => Sys2Proof.Machine.execLh rt off rs s
  | .lw rt off rs => Sys2Proof.Machine.execLw rt off rs s
  | .lbu rt off rs => Sys2Proof.Machine.execLbu rt off rs s
  | .lhu rt off rs => Sys2Proof.Machine.execLhu rt off rs s
  | .sb rt off rs => Sys2Proof.Machine.execSb rt off rs s
  | .sh rt off rs => Sys2Proof.Machine.execSh rt off rs s
  | .sw rt off rs => Sys2Proof.Machine.execSw rt off rs s

end Sys2Proof.Machine
end

