-- ==== Sys2Proof/Machine/Cache.lean ====
section
/-! DEFINITION. The memory hierarchy (47_cache_hierarchy.md): cache_tag_array, cache_data_array,
lru_replacement_unit, mshr_controller, l1_icache, l1_dcache, l2_cache. -/

namespace Sys2Proof.Machine

/-! ### Address decomposition (R291, R292; 30 R102); `a[1:0]` takes part in none of it -/

/-- `Set_C(a) = (a >> (2 + BLOCK_SHIFT)) & (SETS_C - 1)`. -/
def setIndex (cfg : Config) (g : Geometry) (a : Word) : Nat :=
  ((a >>> (2 + cfg.blockShift)) &&& BitVec.ofNat 32 (g.sets - 1)).toNat

/-- `Tag_C(a) = a >> (2 + BLOCK_SHIFT + SET_BITS_C)`. -/
def tagOf (cfg : Config) (g : Geometry) (a : Word) : Word := a >>> (2 + cfg.blockShift + g.setBits)

/-- `Offset(a) = (a >> 2) & (BLOCK_WORDS - 1)`. -/
def wordOffset (cfg : Config) (a : Word) : Nat :=
  ((a >>> 2) &&& BitVec.ofNat 32 (cfg.blockWords - 1)).toNat

/-- `BlockAddr(a) = a & ~(4*BLOCK_WORDS - 1)`. -/
def blockAddr (cfg : Config) (a : Word) : Word :=
  a &&& ~~~BitVec.ofNat 32 (4 * cfg.blockWords - 1)

/-- `BlockAddrOf_C(tag, set) = ((tag << SET_BITS_C) | set) << (2 + BLOCK_SHIFT)`. -/
def blockAddrOf (cfg : Config) (g : Geometry) (tag : Word) (set : Nat) : Word :=
  ((tag <<< g.setBits) ||| BitVec.ofNat 32 set) <<< (2 + cfg.blockShift)

/-! ### One set: hit test, LRU, victim -/

/-- The scan of `Find`: the first way that is valid and whose tag matches (R295). -/
def findWay (ways : CacheSet) (tag : Word) : Option Nat :=
  ways.findIdx? (fun b => b.valid && b.tag == tag)

/-- The block in a way (an all-zero one outside the set, which no rule reads). -/
def blockAt (ways : CacheSet) (w : Nat) : CacheBlock := ways.getD w ⟨false, false, 0, 0, []⟩

/-- One rank of a `Touch` of a way whose rank is `r`. -/
def bumpRank (r : Nat) (b : CacheBlock) : CacheBlock :=
  if b.rank < r then { b with rank := b.rank + 1 } else b

/-- `Touch`: ranks below the accessed way's are incremented, the accessed way's becomes 0 (R297). -/
def touchWay (ways : CacheSet) (w : Nat) : CacheSet :=
  let bumped := ways.map (bumpRank (blockAt ways w).rank)
  bumped.set w { blockAt bumped w with rank := 0 }

/-- `Victim`: the first invalid way, else the way of rank WAYS - 1 (R298). -/
def victimWay (ways : CacheSet) (numWays : Nat) : Result Nat :=
  match ways.findIdx? (fun b => !b.valid) with
  | some w => .next w
  | none =>
    match ways.findIdx? (fun b => b.rank == numWays - 1) with
    | some w => .next w
    | none => .fault .noVictim

/-! ### One cache -/

/-- The ways of a set. -/
def Cache.ways (c : Cache) (set : Nat) : CacheSet := c.getD set []

/-- `Find_C(a)` (R295). -/
def Cache.find (cfg : Config) (g : Geometry) (c : Cache) (a : Word) : Option Nat :=
  findWay (c.ways (setIndex cfg g a)) (tagOf cfg g a)

/-- The block of `C` in the set of `a`, way `w`. -/
def Cache.block (cfg : Config) (g : Geometry) (c : Cache) (a : Word) (w : Nat) : CacheBlock :=
  blockAt (c.ways (setIndex cfg g a)) w

/-- `Touch_C(Set_C(a), w)`. -/
def Cache.touch (cfg : Config) (g : Geometry) (c : Cache) (a : Word) (w : Nat) : Cache :=
  c.set (setIndex cfg g a) (touchWay (c.ways (setIndex cfg g a)) w)

/-- Replace the block in the set of `a`, way `w`. -/
def Cache.setBlock (cfg : Config) (g : Geometry) (c : Cache) (a : Word) (w : Nat) (b : CacheBlock) :
    Cache :=
  c.set (setIndex cfg g a) ((c.ways (setIndex cfg g a)).set w b)

/-- The filling part of `Install`: way `w` takes the block of address `b`, then `Touch` (R305). -/
def Cache.fill (cfg : Config) (g : Geometry) (c : Cache) (b : Word) (w : Nat) (data : List Word)
    (dirty : Bool) : Cache :=
  (c.setBlock cfg g b w
    { c.block cfg g b w with valid := true, dirty := dirty, tag := tagOf cfg g b, data := data }).touch
    cfg g b w

/-- The word of `a` in a cache that holds its block (R322). -/
def Cache.readHit (cfg : Config) (g : Geometry) (c : Cache) (a : Word) (w : Nat) : Word :=
  (c.block cfg g a w).data.getD (wordOffset cfg a) 0

/-! ### The levels below L1 -/

/-- The word addresses of a block. -/
def blockWordAddrs (cfg : Config) (b : Word) : List Word :=
  (List.range cfg.blockWords).map (fun i => b + BitVec.ofNat 32 (4 * i))

/-- `DramReadBlock(b)` (R316). -/
def dramReadBlock (cfg : Config) (m : Memory) (b : Word) : List Word :=
  (blockWordAddrs cfg b).map m.readWord

/-- Write successive words. -/
def writeWords : Memory → Word → List Word → Memory
  | m, _, [] => m
  | m, a, v :: rest => writeWords (m.writeWord a v) (a + 4) rest

/-- The address of the block in the set of `b`, way `w`: `BlockAddrOf_C(tag, set)` (R308). -/
def Cache.residentAddr (cfg : Config) (g : Geometry) (c : Cache) (b : Word) (w : Nat) : Word :=
  blockAddrOf cfg g (c.block cfg g b w).tag (setIndex cfg g b)

/-- `Install_L2(b, data, dirty)`, with the writeback of a dirty victim to the flat store
(R305, R306, R308, R317). -/
def installL2 (cfg : Config) (h : Hierarchy) (b : Word) (data : List Word) (dirty : Bool) :
    Result Hierarchy :=
  match h.l2.find cfg cfg.l2 b with
  | some w => .next { h with l2 := h.l2.touch cfg cfg.l2 b w }
  | none =>
    andThen (victimWay (h.l2.ways (setIndex cfg cfg.l2 b)) cfg.l2.ways) fun w =>
      let victim := h.l2.block cfg cfg.l2 b w
      let store :=
        if victim.valid && victim.dirty then
          writeWords h.store (h.l2.residentAddr cfg cfg.l2 b w) victim.data
        else h.store
      .next { h with l2 := h.l2.fill cfg cfg.l2 b w data dirty, store := store }

/-- The side of the hierarchy, `cacheKind` (30 R101). -/
inductive Side where
  /-- instruction: IQ, L1I -/
  | i
  /-- data: DQ, L1D -/
  | d
deriving DecidableEq, Repr

/-- The side's first-level cache. -/
def Hierarchy.l1 (h : Hierarchy) : Side → Cache
  | .i => h.l1i
  | .d => h.l1d

/-- Replace the side's first-level cache. -/
def Hierarchy.setL1 (h : Hierarchy) (k : Side) (c : Cache) : Hierarchy :=
  match k with
  | .i => { h with l1i := c }
  | .d => { h with l1d := c }

/-- The side's request queue. -/
def Hierarchy.queue (h : Hierarchy) : Side → List QueueEntry
  | .i => h.iq
  | .d => h.dq

/-- Replace the side's request queue. -/
def Hierarchy.setQueue (h : Hierarchy) (k : Side) (q : List QueueEntry) : Hierarchy :=
  match k with
  | .i => { h with iq := q }
  | .d => { h with dq := q }

/-- The geometry of the side's first-level cache. -/
def l1Geometry (cfg : Config) : Side → Geometry
  | .i => cfg.l1i
  | .d => cfg.l1d

/-- The writeback of a dirty L1 victim, block address `vb`, into L2 (R318): L2 hit, the L2 block's
data is replaced, it becomes dirty and is touched; L2 miss, it is installed dirty. L1I blocks are
never dirty (10 R36), so only L1D comes here. -/
def writebackToL2 (cfg : Config) (h : Hierarchy) (vb : Word) (data : List Word) : Result Hierarchy :=
  match h.l2.find cfg cfg.l2 vb with
  | some w =>
    .next { h with
      l2 := (h.l2.setBlock cfg cfg.l2 vb w
        { h.l2.block cfg cfg.l2 vb w with data := data, dirty := true }).touch cfg cfg.l2 vb w }
  | none => installL2 cfg h vb data true

/-- `Install_L1(b, data, 0)` of a side, with the writeback of a dirty victim (R305, R306, R308). The
victim's dirty bit is overwritten by the fill that follows its writeback. -/
def installL1 (cfg : Config) (k : Side) (h : Hierarchy) (b : Word) (data : List Word) :
    Result Hierarchy :=
  match (h.l1 k).find cfg (l1Geometry cfg k) b with
  | some w => .next (h.setL1 k ((h.l1 k).touch cfg (l1Geometry cfg k) b w))
  | none =>
    andThen (victimWay ((h.l1 k).ways (setIndex cfg (l1Geometry cfg k) b)) (l1Geometry cfg k).ways) fun w =>
      let victim := (h.l1 k).block cfg (l1Geometry cfg k) b w
      andThen
        (if victim.valid && victim.dirty then
          writebackToL2 cfg h ((h.l1 k).residentAddr cfg (l1Geometry cfg k) b w) victim.data
        else .next h)
        fun h' => .next (h'.setL1 k ((h'.l1 k).fill cfg (l1Geometry cfg k) b w data false))

/-- `BlockBelowL1(b)`: L2's copy if L2 holds the block, else the flat store's (R315). -/
def blockBelowL1 (cfg : Config) (h : Hierarchy) (b : Word) : List Word :=
  match h.l2.find cfg cfg.l2 b with
  | some w => (h.l2.block cfg cfg.l2 b w).data
  | none => dramReadBlock cfg h.store b

/-! ### mshr_controller: the miss-status table (10 R37; R328, R331, R332) -/

/-- A valid entry for block address `b`. -/
def MshrEntry.holds (e : MshrEntry) (b : Word) : Bool := e.valid && e.addr == b

/-- Take the lowest-index invalid entry for `b`; `none` when the table is full (R328). -/
def allocateMshr : List MshrEntry → Word → Option (List MshrEntry)
  | [], _ => none
  | e :: rest, b =>
    if e.valid then (allocateMshr rest b).map (e :: ·) else some (⟨true, false, b⟩ :: rest)

/-- The valid entry for `b` gets `done` (R331). -/
def markMshrDone (table : List MshrEntry) (b : Word) : List MshrEntry :=
  table.map fun e => if e.holds b then { e with done := true } else e

/-- The valid entry for `b` is released (R332). -/
def releaseMshr (table : List MshrEntry) (b : Word) : List MshrEntry :=
  table.map fun e => if e.holds b then { e with valid := false } else e

/-! ### The request queues and their state machine (R320 to R333) -/

/-- A queue entry for block address `b` is valid. -/
def QueueEntry.serves (e : QueueEntry) (b : Word) : Bool := e.valid && e.addr == b

/-- A new request (R322). -/
def QueueEntry.request (b : Word) : QueueEntry := ⟨true, b, .notStalled, 0⟩

/-- A new entry takes the lowest-index invalid slot; `none` when there is none (R321). -/
def claimSlot : List QueueEntry → Word → Option (List QueueEntry)
  | [], _ => none
  | e :: rest, b =>
    if e.valid then (claimSlot rest b).map (e :: ·) else some (QueueEntry.request b :: rest)

/-- Coalesce onto the entry for `b`, or claim a slot, or double the queue and take the first new slot
(R321, R323). -/
def enqueue (q : List QueueEntry) (b : Word) : List QueueEntry :=
  if q.any (·.serves b) then q
  else
    match claimSlot q b with
    | some q' => q'
    | none => q ++ QueueEntry.request b :: List.replicate (q.length - 1) QueueEntry.free

/-- What one entry's step gives: the hierarchy, the entry, and whether the entry finished. -/
structure Stepped where
  hier : Hierarchy
  entry : QueueEntry
  finished : Bool
deriving DecidableEq, Repr

/-- `NOT_STALLED` with `stall` = 0 (R326, R327, R328). -/
def stepNotStalled (cfg : Config) (k : Side) (h : Hierarchy) (e : QueueEntry) : Stepped :=
  match (h.l1 k).find cfg (l1Geometry cfg k) e.addr with
  | some w =>
    ⟨h.setL1 k ((h.l1 k).touch cfg (l1Geometry cfg k) e.addr w), { e with valid := false }, true⟩
  | none =>
    match h.l2.find cfg cfg.l2 e.addr with
    | some w =>
      ⟨{ h with l2 := h.l2.touch cfg cfg.l2 e.addr w },
        { e with state := .stalledOnL2cHit, stall := cfg.l2HitLatency }, false⟩
    | none =>
      if h.mshr.any (·.holds e.addr) then ⟨h, e, false⟩
      else
        match allocateMshr h.mshr e.addr with
        | some table =>
          ⟨{ h with mshr := table },
            { e with state := .stalledOnDramRequest, stall := cfg.l2ToDramLatency }, false⟩
        | none => ⟨h, e, false⟩

/-- `STALLED_ON_L2C_HIT` with `stall` = 0 (R330). -/
def stepL2cHit (cfg : Config) (k : Side) (h : Hierarchy) (e : QueueEntry) : Result Stepped :=
  andThen (installL1 cfg k h e.addr (blockBelowL1 cfg h e.addr)) fun h' =>
    .next ⟨h', { e with valid := false }, true⟩

/-- `STALLED_ON_DRAM_RESPONSE` with `stall` = 0: the L2 fill, the MSHR release, and the L1 fill if
this entry is the waited one (R332). -/
def stepDramResponse (cfg : Config) (k : Side) (h : Hierarchy) (e : QueueEntry) (waited : Bool) :
    Result Stepped :=
  andThen (installL2 cfg h e.addr (dramReadBlock cfg h.store e.addr) false) fun h1 =>
    let h2 := { h1 with mshr := releaseMshr h1.mshr e.addr }
    andThen
      (if waited then installL1 cfg k h2 e.addr (blockBelowL1 cfg h2 e.addr) else .next h2)
      fun h3 => .next ⟨h3, { e with valid := false }, true⟩

/-- `Step(e, waited)`: the transition of an entry whose `stall` is 0 (R326 to R332). -/
def stepEntry (cfg : Config) (k : Side) (h : Hierarchy) (e : QueueEntry) (waited : Bool) :
    Result Stepped :=
  match e.state with
  | .notStalled => .next (stepNotStalled cfg k h e)
  | .stalledOnL2cHit => stepL2cHit cfg k h e
  | .stalledOnDramRequest =>
    .next ⟨h, { e with state := .stalledOnDram, stall := cfg.dramAccessLatency }, false⟩
  | .stalledOnDram =>
    .next ⟨{ h with mshr := markMshrDone h.mshr e.addr },
      { e with state := .stalledOnDramResponse, stall := cfg.dramToL2cLatency }, false⟩
  | .stalledOnDramResponse => stepDramResponse cfg k h e waited

/-- One entry in one scan: an invalid slot is passed over, a stalled entry counts down, another takes
its transition (R325, R333). -/
def advanceEntry (cfg : Config) (k : Side) (h : Hierarchy) (e : QueueEntry) (waited : Bool) :
    Result Stepped :=
  if !e.valid then .next ⟨h, e, false⟩
  else if 0 < e.stall then .next ⟨h, { e with stall := e.stall - 1 }, false⟩
  else stepEntry cfg k h e waited

/-- What a scan gives: the hierarchy, the entries, and whether the waited entry finished. -/
structure Scanned where
  hier : Hierarchy
  entries : List QueueEntry
  avail : Bool
deriving DecidableEq, Repr

/-- The scan of a queue in ascending index; each step sees the changes of those before it
(R322, R324, R333). -/
def scanQueue (cfg : Config) (k : Side) (b : Word) : Hierarchy → List QueueEntry → Result Scanned
  | h, [] => .next ⟨h, [], false⟩
  | h, e :: rest =>
    andThen (advanceEntry cfg k h e (e.addr == b)) fun r =>
      andThen (scanQueue cfg k b r.hier rest) fun t =>
        .next ⟨t.hier, r.entry :: t.entries, (e.addr == b && r.finished) || t.avail⟩

/-! ### The views (20 R74) -/

/-- What lies below the L1s for the word at `a`: the word in L2 if it holds the block, else the flat
store's. -/
def Hierarchy.wordBelowL1 (h : Hierarchy) (cfg : Config) (a : Word) : Word :=
  match h.l2.find cfg cfg.l2 a with
  | some w => h.l2.readHit cfg cfg.l2 a w
  | none => h.store.readWord a

/-- `FetchView` (side `i`) and `DataView` (side `d`) of the aligned word containing `a` (20 R74). -/
def Hierarchy.view (h : Hierarchy) (cfg : Config) (k : Side) (a : Word) : Word :=
  match (h.l1 k).find cfg (l1Geometry cfg k) a with
  | some w => (h.l1 k).readHit cfg (l1Geometry cfg k) a w
  | none => h.wordBelowL1 cfg a

/-! ### Load and Store (R322, R340) -/

/-- What `Load` returns beside the new hierarchy: `some w` is Available(w), `none` is Pending. -/
structure Loaded where
  hier : Hierarchy
  word : Option Word
deriving DecidableEq, Repr

/-- `Load(a, kind)` (R322). When the waited entry finished, the word is that of the side's view after
the scan (20 R74): the word of the L1 block, which is resident then, or, where a later entry of the
same scan has evicted it again, the word the view falls to (DEDUCED, notes/assumptions/23.md). -/
def load (cfg : Config) (k : Side) (h : Hierarchy) (a : Word) : Result Loaded :=
  let b := blockAddr cfg a
  andThen (scanQueue cfg k b h (enqueue (h.queue k) b)) fun t =>
    let h' := t.hier.setQueue k t.entries
    .next ⟨h', if t.avail then some (h'.view cfg k a) else none⟩

/-- `Store(a, w)`: one whole word of the resident L1D block (R340, R341). -/
def storeWord (cfg : Config) (h : Hierarchy) (a : Word) (v : Word) : Result Hierarchy :=
  match h.l1d.find cfg cfg.l1d a with
  | none => .fault .storeToNonResident
  | some w =>
    let blk := h.l1d.block cfg cfg.l1d a w
    .next { h with
      l1d := (h.l1d.setBlock cfg cfg.l1d a w
        { blk with data := blk.data.set (wordOffset cfg a) v, dirty := true }).touch cfg cfg.l1d a w }

end Sys2Proof.Machine
end

