-- ==== Sys2Proof/Machine/MemStage.lean ====
section
/-! DEFINITION. memory_stage (42_memory_stage.md), the second handler of every cycle. -/

namespace Sys2Proof.Machine

/-- Access sizes: 1, 2 or 4 bytes (20 R68). -/
inductive AccessSize where
  | byte
  | half
  | word
deriving DecidableEq, Repr

/-- The size of a load or store by its opcode (42 R145; 30 R95). -/
def accessSize (opcode : BitVec 6) : AccessSize :=
  match opcode.toNat with
  | 0x20 | 0x24 | 0x28 => .byte   -- LB, LBU, SB
  | 0x21 | 0x25 | 0x29 => .half   -- LH, LHU, SH
  | _ => .word                    -- LW, SW

/-- LB and LH sign-extend, LBU and LHU do not (42 R145). -/
def loadIsSigned (opcode : BitVec 6) : Bool := opcode == 0x20 || opcode == 0x21

/-- `Extract(w, op)`: the slice of the word that `a` selects, extended to 32 bits (42 R146; 20 R66). -/
def extractWord (opcode : BitVec 6) (a w : Word) : Word :=
  match accessSize opcode with
  | .word => w
  | .half =>
    let v := halfOfWord w (halfIndex a)
    if loadIsSigned opcode then sext16 v else zext16 v
  | .byte =>
    let v := byteOfWord w (byteIndex a)
    if loadIsSigned opcode then sext8 v else zext8 v

/-- `Merge(w, op)`: the word with the slice that `a` selects replaced (42 R147; 20 R67). -/
def mergeWord (opcode : BitVec 6) (a w v : Word) : Word :=
  match accessSize opcode with
  | .word => v
  | .half => replaceHalf w (halfIndex a) (v.extractLsb' 0 16)
  | .byte => replaceByte w (byteIndex a) (v.extractLsb' 0 8)

/-- The move `ME <- none; WB <- op` (42 R149). -/
def State.moveToWb (s : State) (op : Op) : State := { s with me := none, wb := some op }

/-- The hierarchy takes a new value. -/
def State.setHier (s : State) (h : Hierarchy) : State := { s with hier := h }

/-- A memory Op in the cycle its word is available: a store merges and writes L1D, a load takes its
value (42 R146, R147, R149). -/
def completeAccess (s : State) (op : Op) (w : Word) : Result State :=
  if op.memWrite then
    andThen (storeWord s.cfg s.hier op.memAddr (mergeWord op.opcode op.memAddr w op.memValue)) fun h =>
      .next ((s.setHier h).moveToWb op)
  else .next (s.moveToWb { op with dstVal := extractWord op.opcode op.memAddr w, dstReady := true })

/-- `Mem()` (42 R140): an empty ME, back-pressure from WB (R141), a non-memory Op (R142), a memory Op
that asks and defers on a miss (R143, R148) or completes. -/
def memStage (s : State) : Result State :=
  match s.me with
  | none => .next s
  | some op =>
    if s.wb.isSome then .next s
    else if op.isMem then
      andThen (load s.cfg .d s.hier op.memAddr) fun r =>
        match r.word with
        | none => .next (s.setHier r.hier)
        | some w => completeAccess (s.setHier r.hier) op w
    else .next (s.moveToWb op)

end Sys2Proof.Machine
end

