-- ==== Sys2Proof/Machine/Stages.lean ====
section
/-! DEFINITION. The other handlers: writeback (41), execute as dispatch on the Op's word (43), decode
(44), fetch (45). -/

namespace Sys2Proof.Machine

/-! ### writeback_stage -/

/-- The register commit of an Op with a destination (41 R131, R132). -/
def State.commit (s : State) (op : Op) : State :=
  match op.dst with
  | some d => s.writeReg d op.dstVal
  | none => s

/-- The halt of the halting syscall (41 R133). -/
def State.haltIf (s : State) (op : Op) : State :=
  if op.isHaltSyscall then { s with run := false } else s

/-- One Op leaves WB and is counted (41 R130, R134). -/
def State.retire (s : State) : State := { s with wb := none, statRetired := s.statRetired + 1 }

/-- `Writeback()` (41 R130); it never stalls (R135). -/
def writebackStage (s : State) : State :=
  match s.wb with
  | none => s
  | some op => ((s.commit op).haltIf op).retire

/-! ### execute_stage -/

/-- `Execute()` (43 R160): the Op in EX runs as the instruction its word decodes to; an unrecognised
word runs without effect (30 R98). With EX empty only the countdown moves (R161, R162). -/
def executeStage (s : State) : Result State :=
  match s.ex with
  | none => .next s.tickMdu
  | some op =>
    match decodeWord op.instr with
    | .ok i => exec i s
    | .error _ => executeUnrecognised s

/-! ### decode_stage -/

/-- `Decode()` (44 R200): it stalls while EX is occupied (R201). -/
def decodeStage (s : State) : State :=
  match s.de with
  | none => s
  | some op => if s.ex.isSome then s else { s with de := none, ex := some op.decode }

/-! ### fetch_stage -/

/-- `NewOp(pc, w)` with the recorded prediction (45 R228, R231): every other field zero, false, none. -/
def newOp (pc w : Word) (p : Prediction) : Op where
  pc := pc
  instr := w
  opcode := 0
  subop := 0
  imm16 := 0
  seImm := 0
  shamt := 0
  jtarget := 0
  src1 := none
  src2 := none
  src1Val := 0
  src2Val := 0
  dst := none
  dstVal := 0
  dstReady := false
  isMem := false
  memAddr := 0
  memWrite := false
  memValue := 0
  isBranch := false
  branchCond := false
  branchTaken := false
  branchDest := 0
  predIsBranch := p.isBranch
  predTaken := p.taken
  predDest := p.nextPc

/-- The word has arrived: with DE free an Op is created, PC takes the prediction and the Op is counted;
with DE occupied nothing happens (45 R226 to R230). -/
def State.deliver (s : State) (w : Word) : State :=
  if s.de.isSome then s
  else
    { s with
      de := some (newOp s.pc w (s.predict s.pc))
      pc := (s.predict s.pc).nextPc
      statFetched := s.statFetched + 1 }

/-- The request for the word at PC, made in every running cycle before DE is looked at
(45 R223, R224). -/
def fetchRunning (s : State) : Result State :=
  andThen (load s.cfg .i s.hier s.pc) fun r =>
    match r.word with
    | none => .next (s.setHier r.hier)
    | some w => .next ((s.setHier r.hier).deliver w)

/-- `Fetch()` (45 R220, R243): halted, it only steps PC by 4 (R222; 90 C1). -/
def fetchStage (s : State) : Result State :=
  if s.run then fetchRunning s else .next { s with pc := nextSeq s.pc }

/-! ### cycle() -/

/-- `cycle()` (40 R110): the handlers from the oldest stage to the youngest, in place (R111), then the
pending recovery. -/
def cycle (s : State) : Result State :=
  andThen (memStage (writebackStage s)) fun s1 =>
    andThen (executeStage s1) fun s2 =>
      andThen (fetchStage (decodeStage s2)) fun s3 =>
        .next s3.applyRecovery

end Sys2Proof.Machine
end

