-- ==== Sys2Proof/Machine/Harness.lean ====
section
/-! DEFINITION. The harness's operations on the machine (40 R126; 70 R530, R535, R537; 10 R43). They are
no part of a step. -/

namespace Sys2Proof.Machine

/-- `init()`: every piece of state of R42; `run`, the flat store and the parameters are not written
(10 R42; 70 R530). -/
def State.init (s : State) : State := State.initial s.cfg s.run s.hier.store

/-- The harness sets the run flag (10 R33; 70 R535 step 4). -/
def State.start (s : State) : State := { s with run := true }

/-- The harness puts one word into the flat store, before the first cycle (70 R535 step 2). -/
def State.loadWord (s : State) (a v : Word) : State :=
  s.setHier { s.hier with store := s.hier.store.writeWord a v }

/-- `stop()`: all cache storage is released, nothing is written back, no architectural state changes
(70 R537; 92 D36). -/
def State.stop (s : State) : State :=
  { s.setHier { s.hier with l1i := [], l1d := [], l2 := [] } with stopped := true }

/-- The instruction word `w` as fetch and decode deliver it to execute: it stands in the flat store at
PC, its Op (created at PC, with the prediction made there, and decoded) is in EX, and PC and the
fetch counter have moved on, as 45 R228 to R231 and 44 R200 do it. What would keep the next step from
running it, or stands in front of it in the pipeline's front end, is taken away: the Ops in DE, EX, ME
and the HI/LO countdown (notes/assumptions/1.md). -/
def placeInExecute (s : State) (w : Word) : State :=
  let p := s.predict s.pc
  { s.loadWord s.pc w with
    de := none
    ex := some (newOp s.pc w p).decode
    me := none
    mduBusy := 0
    pc := p.nextPc
    statFetched := s.statFetched + 1 }

end Sys2Proof.Machine
end

