-- ==== Sys2Proof/Machine/Step.lean ====
section
/-! DEFINITION. One step of the machine: one `cycle()` (00 R11; 40 R110). -/

namespace Sys2Proof.Machine

/-- One `cycle()`. Outside the spec's domain it refuses: after `stop()` (93 U3), and in a configuration
that breaks 00 R8 (93 U6). -/
def step (s : State) : Host.Outcome State Fault Refusal :=
  if s.stopped then .refused .cycleAfterStop
  else if s.cfg.wf then cycle s
  else .refused .badConfiguration

/-- `s` with the instruction of word `w` (numbered as the opcode table numbers it, bits at or above
`nbits` zero) placed so that the very next step runs it: see `placeInExecute`. -/
def State.withFetchWord (s : State) (nbits w : Nat) : State :=
  placeInExecute s (BitVec.ofNat 32 (w % 2 ^ nbits))

end Sys2Proof.Machine
end

