-- ==== Sys2Proof/Machine/Isa.lean ====
section
/-! DEFINITION. The instruction rules of 48 and 49 in their architectural form (48 R401): what one
instruction does to the registers, HI, LO, memory and the next address when instructions run one at a
time in program order (70 R540). No step uses it; statements compare the pipeline with it. -/

namespace Sys2Proof.Machine

/-- The effect of one instruction in program order. -/
structure IsaEffect where
  /-- the register written, if any (register 0 discards it) -/
  dst : Option Reg
  value : Word
  hi : Word
  lo : Word
  /-- the address stored to and the new value of the aligned word containing it -/
  store : Option (Word × Word)
  /-- the address of the next instruction -/
  next : Word
  /-- the halting syscall -/
  halts : Bool
deriving DecidableEq, Repr

/-- Nothing but `pc <- pc + 4`; also an unrecognised word (30 R98). -/
def isaNothing (pc hi lo : Word) : IsaEffect := ⟨none, 0, hi, lo, none, nextSeq pc, false⟩

/-- `x[rd] <- v`. -/
def IsaEffect.write (e : IsaEffect) (rd : Reg) (v : Word) : IsaEffect :=
  { e with dst := some rd, value := v }

/-- `HI <- hi; LO <- lo`. -/
def IsaEffect.hiLo (e : IsaEffect) (hi lo : Word) : IsaEffect := { e with hi := hi, lo := lo }

/-- The word containing `a` becomes `w`. -/
def IsaEffect.storeWord (e : IsaEffect) (a w : Word) : IsaEffect := { e with store := some (a, w) }

/-- `if c then pc <- t else pc <- pc + 4`. -/
def IsaEffect.goto (e : IsaEffect) (c : Bool) (t : Word) : IsaEffect :=
  if c then { e with next := t } else e

/-- The instruction rules. `x` reads a general register, `mem` the aligned word containing an
address, both before the instruction. -/
def isaEffect (i : Instr) (pc : Word) (x : Reg → Word) (hi lo : Word) (mem : Word → Word) : IsaEffect :=
  let e := isaNothing pc hi lo
  match i with
  | .sll rd rt shamt => e.write rd (x rt <<< shamt.toNat)
  | .srl rd rt shamt => e.write rd (x rt >>> shamt.toNat)
  | .sra rd rt shamt => e.write rd ((x rt).sshiftRight shamt.toNat)
  | .sllv rd rt rs => e.write rd (x rt <<< ((x rs).toNat % 32))
  | .srlv rd rt rs => e.write rd (x rt >>> ((x rs).toNat % 32))
  | .srav rd rt rs => e.write rd ((x rt).sshiftRight ((x rs).toNat % 32))
  | .jr rs => e.goto true (x rs)
  | .jalr rd rs => (e.write rd (pc + 4)).goto true (x rs)
  | .syscall => { e with halts := x 2 == 10 }
  | .mfhi rd => e.write rd hi
  | .mthi rs => e.hiLo (x rs) lo
  | .mflo rd => e.write rd lo
  | .mtlo rs => e.hiLo hi (x rs)
  | .mult rs rt =>
    let p := BitVec.ofInt 64 ((x rs).toInt * (x rt).toInt)
    e.hiLo (p.extractLsb' 32 32) (p.extractLsb' 0 32)
  | .multu rs rt =>
    let p := BitVec.ofNat 64 ((x rs).toNat * (x rt).toNat)
    e.hiLo (p.extractLsb' 32 32) (p.extractLsb' 0 32)
  | .div rs rt =>
    if x rt = 0 then e.hiLo 0 0
    else e.hiLo (BitVec.ofInt 32 ((x rs).toInt.tmod (x rt).toInt))
      (BitVec.ofInt 32 ((x rs).toInt.tdiv (x rt).toInt))
  | .divu rs rt => if x rt = 0 then e.hiLo 0 0 else e.hiLo (x rs % x rt) (x rs / x rt)
  | .add rd rs rt => e.write rd (x rs + x rt)
  | .addu rd rs rt => e.write rd (x rs + x rt)
  | .sub rd rs rt => e.write rd (x rs - x rt)
  | .subu rd rs rt => e.write rd (x rs - x rt)
  | .and rd rs rt => e.write rd (x rs &&& x rt)
  | .or rd rs rt => e.write rd (x rs ||| x rt)
  | .xor rd rs rt => e.write rd (x rs ^^^ x rt)
  | .nor rd rs rt => e.write rd (~~~(x rs ||| x rt))
  | .slt rd rs rt => e.write rd (if (x rs).toInt < (x rt).toInt then 1 else 0)
  | .sltu rd rs rt => e.write rd (if (x rs).toNat < (x rt).toNat then 1 else 0)
  | .bltz rs off => e.goto ((x rs).toInt < 0) (branchTarget pc off)
  | .bgez rs off => e.goto (0 ≤ (x rs).toInt) (branchTarget pc off)
  | .bltzal rs off => (e.write 31 (pc + 4)).goto ((x rs).toInt < 0) (branchTarget pc off)
  | .bgezal rs off => (e.write 31 (pc + 4)).goto (0 ≤ (x rs).toInt) (branchTarget pc off)
  | .j target => e.goto true (jumpTarget pc target)
  | .jal target => (e.write 31 (pc + 4)).goto true (jumpTarget pc target)
  | .beq rs rt off => e.goto (x rs = x rt) (branchTarget pc off)
  | .bne rs rt off => e.goto (x rs ≠ x rt) (branchTarget pc off)
  | .blez rs off => e.goto ((x rs).toInt ≤ 0) (branchTarget pc off)
  | .bgtz rs off => e.goto (0 < (x rs).toInt) (branchTarget pc off)
  | .addi rt rs imm => e.write rt (x rs + imm.signExtend 32)
  | .addiu rt rs imm => e.write rt (x rs + imm.signExtend 32)
  | .slti rt rs imm => e.write rt (if (x rs).toInt < (imm.signExtend 32).toInt then 1 else 0)
  | .sltiu rt rs imm => e.write rt (if (x rs).toNat < (imm.signExtend 32).toNat then 1 else 0)
  | .andi rt rs imm => e.write rt (x rs &&& imm.zeroExtend 32)
  | .ori rt rs imm => e.write rt (x rs ||| imm.zeroExtend 32)
  | .xori rt rs imm => e.write rt (x rs ^^^ imm.zeroExtend 32)
  | .lui rt imm => e.write rt (imm ++ 0#16)
  | .lb rt off rs =>
    let a := x rs + off.signExtend 32
    e.write rt ((byteOfWord (mem a) (byteIndex a)).signExtend 32)
  | .lh rt off rs =>
    let a := x rs + off.signExtend 32
    e.write rt ((halfOfWord (mem a) (halfIndex a)).signExtend 32)
  | .lw rt off rs => e.write rt (mem (x rs + off.signExtend 32))
  | .lbu rt off rs =>
    let a := x rs + off.signExtend 32
    e.write rt ((byteOfWord (mem a) (byteIndex a)).zeroExtend 32)
  | .lhu rt off rs =>
    let a := x rs + off.signExtend 32
    e.write rt ((halfOfWord (mem a) (halfIndex a)).zeroExtend 32)
  | .sb rt off rs =>
    let a := x rs + off.signExtend 32
    e.storeWord a (replaceByte (mem a) (byteIndex a) ((x rt).extractLsb' 0 8))
  | .sh rt off rs =>
    let a := x rs + off.signExtend 32
    e.storeWord a (replaceHalf (mem a) (halfIndex a) ((x rt).extractLsb' 0 16))
  | .sw rt off rs => e.storeWord (x rs + off.signExtend 32) (x rt)

/-- The effect of the instruction word `w`: an unrecognised one does nothing (30 R98). -/
def isaEffectOfWord (w pc : Word) (x : Reg → Word) (hi lo : Word) (mem : Word → Word) : IsaEffect :=
  match decodeWord w with
  | .ok i => isaEffect i pc x hi lo mem
  | .error _ => isaNothing pc hi lo

end Sys2Proof.Machine
end

