-- ==== Sys2Proof/Machine/Signals.lean ====
section
/-! DEFINITION. The signals the spec's interface tables name (41 R137, 42 R152, 43 R190, 45 R242,
46 R278; the names are the spec's own), read off the state a handler starts from. They are no part of
a step: they say when and with what a handler makes its calls. -/

namespace Sys2Proof.Machine

/-- `rf_we`, `rf_waddr`, `rf_wdata`: the register-file write port of writeback, `none` when not
enabled (41 R137). -/
def State.rfWrite (s : State) : Option (Reg × Word) :=
  match s.wb with
  | some op =>
    match op.dst with
    | some d => if d = 0#5 then none else some (d, op.dstVal)
    | none => none
  | none => none

/-- Writeback's halt request `run <- 0` (41 R137). -/
def State.haltRequest (s : State) : Bool :=
  match s.wb with
  | some op => op.isHaltSyscall
  | none => false

/-- `dreq_valid`, `dreq_addr`: the address mem gives to `Load(·, D)` this cycle (42 R152). -/
def State.dataRequest (s : State) : Option Word :=
  match s.me with
  | some op => if op.isMem && s.wb.isNone then some op.memAddr else none
  | none => none

/-- `ireq_valid`, `ireq_addr`: the address fetch gives to `Load(·, I)` this cycle (45 R242). -/
def State.fetchRequest (s : State) : Option Word := if s.run then some s.pc else none

/-- The Op in EX waits for HI or LO: `ReadsHiLo(op)` and `was_busy` (43 R176). -/
def State.hiLoWait (s : State) (op : Op) : Bool :=
  match decodeWord op.instr with
  | .ok i => readsHiLo i && decide (0 < s.mduBusy)
  | .error _ => false

/-- The bypass asks for a stall of the Op in EX (43 R166, R170). -/
def State.bypassStall (s : State) (op : Op) : Bool :=
  (s.resolveSource op.src1 op.src1Val).2 || (s.resolveSource op.src2 op.src2Val).2

/-- `ex_hold` of pipeline_hazard_detector, for the Op in EX (43 R190). -/
def State.exHold (s : State) (op : Op) : Bool :=
  s.me.isSome || s.bypassStall op || s.hiLoWait op

end Sys2Proof.Machine
end

