-- ==== Sys2Proof/Safety.lean ====
section
/-! DEFINITION. The terms the statements use: the invariants of the spec (10 R36, R37; 47 R296, R335;
42 R150; 45 R232), which rule out states no run reaches; what an Op delivers when mem and writeback
get it; and the program-order view of a state (70 R540). -/

namespace Sys2Proof.Machine

/-! ### Caches (10 R35, R36; 47 R296) -/

/-- One set: WAYS ways, ranks a permutation of 0..WAYS-1, no tag valid in two ways (47 R296). -/
def SetInv (numWays : Nat) (ways : CacheSet) : Prop :=
  ways.length = numWays ∧ (ways.map (·.rank)).Perm (List.range numWays) ∧
    ways.Pairwise (fun a b => a.valid = true → b.valid = true → a.tag ≠ b.tag)

/-- One cache: SETS sets, each block with BLOCK_WORDS words and a tag of the width of 10 R35. -/
def CacheInv (cfg : Config) (g : Geometry) (c : Cache) : Prop :=
  c.length = g.sets ∧ ∀ ways ∈ c, SetInv g.ways ways ∧
    ∀ b ∈ ways, b.data.length = cfg.blockWords ∧ b.tag.toNat < 2 ^ (32 - (2 + cfg.blockShift + g.setBits))

/-- The three caches, L1I never dirty (10 R36), the table's capacity, the flat store's form. -/
structure CachesInv (cfg : Config) (h : Hierarchy) : Prop where
  l1i : CacheInv cfg cfg.l1i h.l1i
  l1d : CacheInv cfg cfg.l1d h.l1d
  l2 : CacheInv cfg cfg.l2 h.l2
  l1iClean : ∀ ways ∈ h.l1i, ∀ b ∈ ways, b.dirty = false
  mshrs : h.mshr.length = cfg.l2Mshrs
  store : h.store.wf = true

/-- Clean copies equal what lies below them: a clean L2 block the flat store, a clean L1D block the
level below L1 (47 R345). -/
structure CleanCopies (cfg : Config) (h : Hierarchy) : Prop where
  l2 : ∀ set ∈ List.range h.l2.length, ∀ b ∈ h.l2.ways set, b.valid = true → b.dirty = false →
    b.data = dramReadBlock cfg h.store (blockAddrOf cfg cfg.l2 b.tag set)
  l1d : ∀ set ∈ List.range h.l1d.length, ∀ b ∈ h.l1d.ways set, b.valid = true → b.dirty = false →
    b.data = blockBelowL1 cfg h (blockAddrOf cfg cfg.l1d b.tag set)

/-- What a block holds, apart from its rank. -/
def CacheBlock.content (b : CacheBlock) : Bool × Bool × Word × List Word :=
  (b.valid, b.dirty, b.tag, b.data)

/-- `c'` is `c` with way `w` of the set of `b` holding the block of `b`; every other block of the cache
is the same but for its rank (47 R305). -/
def Replaces (cfg : Config) (g : Geometry) (c c' : Cache) (b : Word) (w : Nat) (data : List Word)
    (dirty : Bool) : Prop :=
  ∀ set, (c'.ways set).map (·.content) =
    if set = setIndex cfg g b then
      ((c.ways set).map (·.content)).set w (true, dirty, tagOf cfg g b, data)
    else (c.ways set).map (·.content)

/-! ### Request queues and miss-status table (10 R37, R38; 47 R323, R335) -/

/-- The entry is in one of the three DRAM states. -/
def QueueEntry.inDram (e : QueueEntry) : Bool :=
  e.valid && (e.state == .stalledOnDramRequest || e.state == .stalledOnDram ||
    e.state == .stalledOnDramResponse)

/-- At most one valid entry per block address, and the addresses are block addresses (47 R323). -/
def QueueInv (cfg : Config) (q : List QueueEntry) : Prop :=
  q.Pairwise (fun a b => a.valid = true → b.valid = true → a.addr ≠ b.addr) ∧
    ∀ e ∈ q, e.valid = true → blockAddr cfg e.addr = e.addr

/-- One valid miss-status entry per address (10 R37), and each is held by exactly one queue entry in a
DRAM state, which are all of those (47 R335). -/
structure MissInv (cfg : Config) (h : Hierarchy) : Prop where
  iq : QueueInv cfg h.iq
  dq : QueueInv cfg h.dq
  unique : h.mshr.Pairwise (fun a b => a.valid = true → b.valid = true → a.addr ≠ b.addr)
  holders : (((h.iq ++ h.dq).filter (·.inDram)).map (·.addr)).Perm
    ((h.mshr.filter (·.valid)).map (·.addr))

/-! ### Pipeline -/

/-- What fetch records (45 R232). -/
def Op.PredictionInv (op : Op) : Prop :=
  (op.predTaken = true → op.predIsBranch = true) ∧ (op.predTaken = false → op.predDest = nextSeq op.pc)

/-- The fields decode writes are those of the word (44 R207). -/
def Op.DecodedInv (op : Op) : Prop := op.decode = op

/-- The slots: predictions as fetch records them, decoded fields beyond DE, no result before execute,
every result of a non-load ready in ME, every result ready in WB (45 R232; 41 R131; 43 R172). -/
structure SlotsInv (s : State) : Prop where
  de : ∀ op ∈ s.de, op.PredictionInv ∧ op.dstReady = false
  ex : ∀ op ∈ s.ex, op.PredictionInv ∧ op.DecodedInv ∧ op.dstReady = false
  me : ∀ op ∈ s.me, op.PredictionInv ∧ op.DecodedInv ∧
    (op.dst ≠ none → op.dstReady = !op.isMem)
  wb : ∀ op ∈ s.wb, op.PredictionInv ∧ op.DecodedInv ∧ (op.dst ≠ none → op.dstReady = true)

/-- The fetch path (45 R232): each Op's recorded next address is where the next younger one stands,
up to PC while fetch runs. -/
structure PathInv (s : State) : Prop where
  exDe : ∀ e ∈ s.ex, ∀ d ∈ s.de, d.pc = e.predDest
  exPc : ∀ e ∈ s.ex, s.de = none → s.run = true → s.pc = e.predDest
  dePc : ∀ d ∈ s.de, s.run = true → s.pc = d.predDest

/-- What holds of the machine at every cycle boundary. -/
structure State.Inv (s : State) : Prop where
  config : s.cfg.wf = true
  zeroReg : s.regs.get 0 = 0
  noRecovery : s.recov = Recovery.inactive
  busy : s.mduBusy ≤ divLatency
  slots : SlotsInv s
  path : PathInv s
  caches : CachesInv s.cfg s.hier
  clean : CleanCopies s.cfg s.hier
  miss : MissInv s.cfg s.hier
  /-- DQ has a valid entry only for the memory Op that waits in ME (42 R150). -/
  dataQueue : ∀ e ∈ s.hier.dq, e.valid = true →
    ∃ op ∈ s.me, op.isMem = true ∧ e.addr = blockAddr s.cfg op.memAddr

/-! ### Execute and what follows it -/

/-- Execute finds `op` in EX and ME free: it consumes the Op unless it waits for HI or LO (43 R163,
R171). -/
def State.Executes (s : State) (op : Op) : Prop := s.ex = some op ∧ s.me = none

/-- The operand execute resolves while ME is free: 0 for register 0, else the value in WB bound for
the register, else the register file's (43 R166 to R169). -/
def State.operand (s : State) (r : Reg) : Word :=
  if r = 0#5 then 0
  else
    match s.wb with
    | some w => if w.dst = some r then w.dstVal else s.regs.get r.toFin
    | none => s.regs.get r.toFin

/-- The Op passes through mem with no effect: in every state in which it stands in ME and WB is free
(42 R142). -/
def Op.PassesMem (m : Op) : Prop :=
  ∀ u : State, u.me = some m → u.wb = none → memStage u = .next { u with me := none, wb := some m }

/-- In every state in which the Op stands in WB it retires, and writeback does nothing else but
`x[rd] <- v`, which register 0 discards (41 R130 to R134). -/
def Op.CommitsReg (m : Op) (rd : Reg) (v : Word) : Prop :=
  ∀ z : State, z.wb = some m → writebackStage z =
    { z with
      wb := none
      regs := if rd = 0#5 then z.regs else z.regs.set rd.toFin v
      statRetired := z.statRetired + 1 }

/-- In every state in which the Op stands in WB it retires and writeback does nothing else. -/
def Op.CommitsNothing (m : Op) : Prop :=
  ∀ z : State, z.wb = some m → writebackStage z =
    { z with wb := none, statRetired := z.statRetired + 1 }

/-- The Op ends with `x[rd] <- v` and nothing else; the value is ready for the bypass from now on
(43 R168, R172). -/
structure Op.Delivers (m : Op) (rd : Reg) (v : Word) : Prop where
  dst : m.dst = some rd
  dstVal : m.dstVal = v
  ready : m.dstReady = true
  passes : m.PassesMem
  commits : m.CommitsReg rd v

/-- The Op has no destination and ends with no effect but its retirement. -/
structure Op.DeliversNothing (m : Op) : Prop where
  dst : m.dst = none
  passes : m.PassesMem
  commits : m.CommitsNothing

/-- The Op is a load of `ea`: in every state in which it stands in ME, WB is free and the data side
answers its request for `ea`, mem asks, defers while the answer is Pending, and on Available(w) moves
it on with `f w`, which writeback commits to `rd` (42 R140, R146 to R149). -/
structure Op.LoadsInto (m : Op) (rd : Reg) (ea : Word) (f : Word → Word) : Prop where
  dst : m.dst = some rd
  memAddr : m.memAddr = ea
  completes : ∀ (u : State) (r : Loaded), u.me = some m → u.wb = none →
    load u.cfg .d u.hier ea = .next r →
      match r.word with
      | none => memStage u = .next { u with hier := r.hier }
      | some w => ∃ m', memStage u = .next { u with hier := r.hier, me := none, wb := some m' } ∧
          m'.dst = some rd ∧ m'.dstVal = f w ∧ m'.CommitsReg rd (f w)

/-- The Op is a store to `ea`: as a load it first asks for the word; on Available(w) the word `f w` is
stored and the Op moves on, writing no register (42 R140, R144, R147). -/
structure Op.StoresTo (m : Op) (ea : Word) (f : Word → Word) : Prop where
  dst : m.dst = none
  memAddr : m.memAddr = ea
  completes : ∀ (u : State) (r : Loaded), u.me = some m → u.wb = none →
    load u.cfg .d u.hier ea = .next r →
      match r.word with
      | none => memStage u = .next { u with hier := r.hier }
      | some w => ∀ h, storeWord u.cfg r.hier ea (f w) = .next h →
          memStage u = .next { u with hier := h, me := none, wb := some m }
  commits : m.CommitsNothing

/-- What the resolution of the branch `op` does to the state: the recovery of a mismatch with the
prediction fetch recorded, unless one is pending, the direction update of a conditional branch, the
BTB entry (43 R180 to R185; 46 R268, R272). -/
structure BranchEffects (s t : State) (op : Op) (taken : Bool) (dest : Word) (cond : Bool) : Prop where
  recov : t.recov =
    if !op.predIsBranch || op.predTaken != taken || (taken && op.predDest != dest) then
      (if s.recov.active then s.recov else ⟨true, 3, if taken then dest else op.pc + 4⟩)
    else s.recov
  ghr : t.ghr = if cond then (s.ghr <<< 1) ||| (if taken then 1 else 0) else s.ghr
  pht : ∀ i, t.counter i =
    if cond && i == s.ghr ^^^ op.pc.extractLsb' 2 8 then saturate (s.counter i) taken else s.counter i
  btb : ∀ i : Fin 1024, t.btb.get i =
    if i.val = (op.pc.toNat / 4) % 1024 then ⟨true, op.pc, dest, !cond⟩ else s.btb.get i

/-- The branch or jump executed: the Op moved on as `m`, resolved to `taken` and `dest`, with the
effects of its resolution on the machine (43 R179, R186). -/
structure BranchMoves (s t : State) (op m : Op) (taken : Bool) (dest : Word) (cond : Bool) : Prop where
  ex : t.ex = none
  me : t.me = some m
  branchTaken : m.branchTaken = taken
  branchDest : m.branchDest = dest
  effects : BranchEffects s t op taken dest cond

/-- The instructions that write HI (48 R430 to R437). -/
def setsHi : Instr → Bool
  | .mthi _ | .mult _ _ | .multu _ _ | .div _ _ | .divu _ _ => true
  | _ => false

/-- The instructions that write LO. -/
def setsLo : Instr → Bool
  | .mtlo _ | .mult _ _ | .multu _ _ | .div _ _ | .divu _ _ => true
  | _ => false

/-- The instructions that load the countdown (43 R173). -/
def loadsCountdown : Instr → Bool
  | .mult _ _ | .multu _ _ | .div _ _ | .divu _ _ => true
  | _ => false

/-- The conditional branches (30 R100). -/
def isCondBranch : Instr → Bool
  | .beq .. | .bne .. | .blez .. | .bgtz .. | .bltz .. | .bgez .. | .bltzal .. | .bgezal .. => true
  | _ => false

/-- The branches and jumps (30 R100). -/
def isControl : Instr → Bool
  | .j _ | .jal _ | .jr _ | .jalr _ _ => true
  | i => isCondBranch i

/-- `Execute()` evaluated `n` times in a row. -/
def executeTimes : Nat → State → Result State
  | 0, s => .next s
  | n + 1, s => andThen (executeStage s) (executeTimes n)

/-! ### The program-order view (70 R540) -/

/-- Register `r` once every executed Op has completed: the Op in ME, then the Op in WB, then the
register file. -/
def State.archReg (s : State) (r : Reg) : Word :=
  if r = 0#5 then 0
  else
    match s.me with
    | some m =>
      if m.dst = some r then
        (if m.isMem then extractWord m.opcode m.memAddr (s.hier.view s.cfg .d m.memAddr) else m.dstVal)
      else s.operand r
    | none => s.operand r

/-- The aligned word containing `a` once every executed store has completed: DataView with the store
in ME merged. -/
def State.archWord (s : State) (a : Word) : Word :=
  match s.me with
  | some m =>
    if m.isMem && m.memWrite && wordAddr m.memAddr == wordAddr a then
      mergeWord m.opcode m.memAddr (s.hier.view s.cfg .d a) m.memValue
    else s.hier.view s.cfg .d a
  | none => s.hier.view s.cfg .d a

/-- The address of the next instruction execute will consume. -/
def State.nextToExecute (s : State) : Word :=
  match s.ex with
  | some e => e.pc
  | none =>
    match s.de with
    | some d => d.pc
    | none => s.pc

/-- `t` is `s` with the effect of one instruction in program order. -/
structure AppliesIsa (s t : State) (e : IsaEffect) : Prop where
  regs : ∀ r, t.archReg r = if r ≠ 0#5 ∧ e.dst = some r then e.value else s.archReg r
  hi : t.hi = e.hi
  lo : t.lo = e.lo
  mem : ∀ a, t.archWord a =
    match e.store with
    | some (ea, w) => if wordAddr ea = wordAddr a then w else s.archWord a
    | none => s.archWord a

/-- The byte a load of the data side sees at `a` (20 R63, R74). -/
def State.dataByte (s : State) (a : Word) : Byte :=
  byteOfWord (s.hier.view s.cfg .d a) (byteIndex a)

/-- The number of bytes an access moves (20 R68). -/
def AccessSize.bytes : AccessSize → Nat
  | .byte => 1
  | .half => 2
  | .word => 4

/-- The byte at `a` after a store of the low `n` bytes of `v` at `ea`, if it was `old` before: the `n`
bytes from `ea` rounded down to a multiple of `n` change (20 R63, R64, R67). -/
def storedByte (n : Nat) (ea v a : Word) (old : Byte) : Byte :=
  if ea.toNat / n = a.toNat / n then byteOfWord v (a.toNat % n) else old

/-- `Load(a, kind)` called `n + 1` times in a row; the answer of the last call (47 R334). -/
def loadAgain (cfg : Config) (k : Side) (a : Word) : Nat → Hierarchy → Result Loaded
  | 0, h => load cfg k h a
  | n + 1, h => andThen (load cfg k h a) fun r => loadAgain cfg k a n r.hier

/-- The number of occupied slots. -/
def State.inFlight (s : State) : Nat :=
  s.de.toList.length + s.ex.toList.length + s.me.toList.length + s.wb.toList.length

end Sys2Proof.Machine
end

