-- ==== Sys2Proof/Certificates/Slice0/Obligations.lean ====
section
/-! DEFINITION. The statements for the provers (OBLIGATIONS.json). Rule numbers are those of spec/, with
the number of its file. The terms they use are Sys2Proof/Safety.lean's. -/

section
open Sys2Proof Sys2Proof.Machine

/-! ### Encoding (30) -/

/-- 30 R92 to R97: decoding the four bytes of an encoded instruction gives it back, every operand at
every value, and leaves the bytes after it. -/
def Obligations.DecodingAnEncodedInstructionGivesItBack : Prop :=
  ∀ (i : Instr) (rest : List Byte),
    decodeBytes (byteOfWord (encode i) 0 :: byteOfWord (encode i) 1 :: byteOfWord (encode i) 2 ::
      byteOfWord (encode i) 3 :: rest) = .ok (i, rest)

/-- 30 R93, R95 to R97: a word that decodes to `i` matches the row of `i`, and on the bits `i` uses it is
the word the encoder writes. -/
def Obligations.DecodedWordIsItsEncodingOnTheUsedBits : Prop :=
  ∀ (w : Word) (i : Instr), decodeWord w = .ok i →
    i.matchedBy w = true ∧ w &&& i.usedBits = encode i

/-- 30 R96: the fields an instruction does not use are ignored. -/
def Obligations.IgnoredFieldsDoNotAffectDecoding : Prop :=
  ∀ (w v : Word) (i : Instr), decodeWord w = .ok i → v &&& i.usedBits = w &&& i.usedBits →
    decodeWord v = .ok i

/-- 30 R95 to R98: the words that decode are those that match a row, and no word matches two rows. -/
def Obligations.RowsDecideDecodingWithoutOverlap : Prop :=
  (∀ w : Word, (∃ i, decodeWord w = .ok i) ↔ ∃ i : Instr, i.matchedBy w = true) ∧
  (∀ (w : Word) (i j : Instr), i.matchedBy w = true → j.matchedBy w = true → i.row = j.row)

/-- Words of 48, 49 and 95, one or more a family, decode to the instructions they stand for; words of
no row do not decode (30 R98). -/
def Obligations.WordsOfTheSpecDecode : Prop :=
  decodeWord 0x00084900#32 = .ok (.sll 9 8 4) ∧
  decodeWord 0x01095021#32 = .ok (.addu 10 8 9) ∧
  decodeWord 0x2109FFFF#32 = .ok (.addi 9 8 0xFFFF) ∧
  decodeWord 0x3C091234#32 = .ok (.lui 9 0x1234) ∧
  decodeWord 0x0109001A#32 = .ok (.div 8 9) ∧
  decodeWord 0x00005010#32 = .ok (.mfhi 10) ∧
  decodeWord 0x810B0000#32 = .ok (.lb 11 0 8) ∧
  decodeWord 0x0000000C#32 = .ok .syscall ∧
  decodeWord 0x70000000#32 = .error (.unrecognisedOp 0x1C) ∧
  decodeWord 0x0000000D#32 = .error (.unrecognisedFunct 0x0D) ∧
  decodeWord 0x05020000#32 = .error (.unrecognisedRtsel 0x02)

/-! ### A step and the instruction it runs (40, 44, 45) -/

/-- 40 R110, 43 R160: with `op` in EX once writeback and mem have run, and its word decoding to `i`, the
step is `exec i` there, followed by decode, fetch and the end-of-cycle recovery. -/
def Obligations.StepRunsTheDecodedInstruction : Prop :=
  ∀ (s m : State) (op : Op) (i : Instr), s.stopped = false → s.cfg.wf = true →
    memStage (writebackStage s) = .next m → m.ex = some op → decodeWord op.instr = .ok i →
    step s = andThen (exec i m) fun e => andThen (fetchStage (decodeStage e)) fun f =>
      .next f.applyRecovery

/-- The next step after `withFetchWord` runs that word's instruction as `exec` gives it, on an Op
created at PC whose fields are those of 45 R228 and 44 R202, R203 (notes/assumptions/1.md: the
placement is the model's). -/
def Obligations.PlacedWordRunsInTheNextStep : Prop :=
  ∀ (s : State) (w : Word) (i : Instr), s.stopped = false → s.cfg.wf = true → decodeWord w = .ok i →
    ∃ m op, m = writebackStage (s.withFetchWord 32 w.toNat) ∧ m.Executes op ∧ op.DecodedInv ∧
      op.pc = s.pc ∧ op.instr = w ∧ m.mduBusy = 0 ∧
      step (s.withFetchWord 32 w.toNat) =
        andThen (exec i m) fun e => andThen (fetchStage (decodeStage e)) fun f =>
          .next f.applyRecovery

/-- 40 R110, R113, R115, 44 R201, R205: an unstalled Op moves one slot a cycle: what stands in DE before a
step whose EX is free when decode runs stands decoded in EX after it, unless a recovery is applied.
44 R202, R203, 30 R93, R94, R98, R100: decoded means that the six fields of the word and the seven
marks of its class are written and nothing else; a word of no row has neither source nor destination
and is neither memory nor branch (a choice 93 U1 leaves, notes/assumptions/10.md). -/
def Obligations.DecodeMovesTheOpOrStalls : Prop :=
  (∀ (s m e t : State), memStage (writebackStage s) = .next m → executeStage m = .next e →
    step s = .next t → t.statSquash = s.statSquash →
    (e.ex = none → t.ex = s.de.map Op.decode) ∧ (∀ op, e.ex = some op → t.ex = some op) ∧
    (∀ op d, e.ex = some op → s.de = some d → t.de = some d)) ∧
  ∀ (op : Op) (c : OperandClass),
    ((∃ i, decodeWord op.instr = .ok i ∧ c = classOf i) ∨
      ((∃ r, decodeWord op.instr = .error r) ∧ c = ⟨none, none, none, false, false, false, false⟩)) →
    op.decode =
      { op with
        opcode := op.instr.extractLsb' 26 6
        subop :=
          if op.instr.extractLsb' 26 6 = 0 then op.instr.extractLsb' 0 6
          else if op.instr.extractLsb' 26 6 = 1 then (op.instr.extractLsb' 16 5).zeroExtend 6
          else 0
        imm16 := op.instr.extractLsb' 0 16
        seImm := (op.instr.extractLsb' 0 16).signExtend 32
        shamt := op.instr.extractLsb' 6 5
        jtarget := op.instr.extractLsb' 0 26
        src1 := c.src1, src2 := c.src2, dst := c.dst
        isMem := c.isMem, memWrite := c.memWrite
        isBranch := c.isBranch, branchCond := c.branchCond }

/-! ### Instructions: shifts (48 R402 to R407) -/

/-- 48 R402 to R404. -/
def Obligations.ShiftsByAConstantComplete : Prop :=
  ∀ (s : State) (op : Op) (rd rt : Reg) (shamt : BitVec 5), s.Executes op →
    (∃ m, exec (.sll rd rt shamt) s = .next (s.tickMdu.moveToMem m) ∧
      m.Delivers rd (s.operand rt <<< shamt.toNat)) ∧
    (∃ m, exec (.srl rd rt shamt) s = .next (s.tickMdu.moveToMem m) ∧
      m.Delivers rd (s.operand rt >>> shamt.toNat)) ∧
    (∃ m, exec (.sra rd rt shamt) s = .next (s.tickMdu.moveToMem m) ∧
      m.Delivers rd ((s.operand rt).sshiftRight shamt.toNat))

/-- 48 R405 to R407: the amount is the low five bits of `rs`. -/
def Obligations.ShiftsByARegisterComplete : Prop :=
  ∀ (s : State) (op : Op) (rd rt rs : Reg), s.Executes op →
    (∃ m, exec (.sllv rd rt rs) s = .next (s.tickMdu.moveToMem m) ∧
      m.Delivers rd (s.operand rt <<< ((s.operand rs).toNat % 32))) ∧
    (∃ m, exec (.srlv rd rt rs) s = .next (s.tickMdu.moveToMem m) ∧
      m.Delivers rd (s.operand rt >>> ((s.operand rs).toNat % 32))) ∧
    (∃ m, exec (.srav rd rt rs) s = .next (s.tickMdu.moveToMem m) ∧
      m.Delivers rd ((s.operand rt).sshiftRight ((s.operand rs).toNat % 32)))

/-! ### Register and immediate arithmetic and logic (48 R410 to R427) -/

/-- 48 R410 to R413: no trap, the sum and the difference wrap. -/
def Obligations.AddAndSubtractComplete : Prop :=
  ∀ (s : State) (op : Op) (rd rs rt : Reg), s.Executes op →
    (∃ m, exec (.add rd rs rt) s = .next (s.tickMdu.moveToMem m) ∧
      m.Delivers rd (s.operand rs + s.operand rt)) ∧
    (∃ m, exec (.addu rd rs rt) s = .next (s.tickMdu.moveToMem m) ∧
      m.Delivers rd (s.operand rs + s.operand rt)) ∧
    (∃ m, exec (.sub rd rs rt) s = .next (s.tickMdu.moveToMem m) ∧
      m.Delivers rd (s.operand rs - s.operand rt)) ∧
    (∃ m, exec (.subu rd rs rt) s = .next (s.tickMdu.moveToMem m) ∧
      m.Delivers rd (s.operand rs - s.operand rt))

/-- 48 R414 to R417. -/
def Obligations.LogicComplete : Prop :=
  ∀ (s : State) (op : Op) (rd rs rt : Reg), s.Executes op →
    (∃ m, exec (.and rd rs rt) s = .next (s.tickMdu.moveToMem m) ∧
      m.Delivers rd (s.operand rs &&& s.operand rt)) ∧
    (∃ m, exec (.or rd rs rt) s = .next (s.tickMdu.moveToMem m) ∧
      m.Delivers rd (s.operand rs ||| s.operand rt)) ∧
    (∃ m, exec (.xor rd rs rt) s = .next (s.tickMdu.moveToMem m) ∧
      m.Delivers rd (s.operand rs ^^^ s.operand rt)) ∧
    (∃ m, exec (.nor rd rs rt) s = .next (s.tickMdu.moveToMem m) ∧
      m.Delivers rd (~~~(s.operand rs ||| s.operand rt)))

/-- 48 R418, R419, R422, R423: signed and unsigned comparison, with a register and with the
sign-extended immediate. -/
def Obligations.SetOnLessThanComplete : Prop :=
  ∀ (s : State) (op : Op) (rd rs rt : Reg) (imm : BitVec 16), s.Executes op →
    (∃ m, exec (.slt rd rs rt) s = .next (s.tickMdu.moveToMem m) ∧
      m.Delivers rd (if (s.operand rs).toInt < (s.operand rt).toInt then 1 else 0)) ∧
    (∃ m, exec (.sltu rd rs rt) s = .next (s.tickMdu.moveToMem m) ∧
      m.Delivers rd (if (s.operand rs).toNat < (s.operand rt).toNat then 1 else 0)) ∧
    (∃ m, exec (.slti rt rs imm) s = .next (s.tickMdu.moveToMem m) ∧
      m.Delivers rt (if (s.operand rs).toInt < imm.toInt then 1 else 0)) ∧
    (∃ m, exec (.sltiu rt rs imm) s = .next (s.tickMdu.moveToMem m) ∧
      m.Delivers rt (if (s.operand rs).toNat < (imm.signExtend 32).toNat then 1 else 0))

/-- 48 R420, R421, R424 to R427: the sum sign-extends the immediate, the logic zero-extends it, LUI
puts it in the high half and reads no register. -/
def Obligations.ImmediateArithmeticAndLogicComplete : Prop :=
  ∀ (s : State) (op : Op) (rt rs : Reg) (imm : BitVec 16), s.Executes op →
    (∃ m, exec (.addi rt rs imm) s = .next (s.tickMdu.moveToMem m) ∧
      m.Delivers rt (s.operand rs + imm.signExtend 32)) ∧
    (∃ m, exec (.addiu rt rs imm) s = .next (s.tickMdu.moveToMem m) ∧
      m.Delivers rt (s.operand rs + imm.signExtend 32)) ∧
    (∃ m, exec (.andi rt rs imm) s = .next (s.tickMdu.moveToMem m) ∧
      m.Delivers rt (s.operand rs &&& imm.zeroExtend 32)) ∧
    (∃ m, exec (.ori rt rs imm) s = .next (s.tickMdu.moveToMem m) ∧
      m.Delivers rt (s.operand rs ||| imm.zeroExtend 32)) ∧
    (∃ m, exec (.xori rt rs imm) s = .next (s.tickMdu.moveToMem m) ∧
      m.Delivers rt (s.operand rs ^^^ imm.zeroExtend 32)) ∧
    (∃ m, exec (.lui rt imm) s = .next (s.tickMdu.moveToMem m) ∧ m.Delivers rt (imm ++ 0#16))

/-! ### Multiply, divide, HI and LO (48 R430 to R438; 43 R161, R173 to R178) -/

/-- 48 R431, R432, 43 R173: HI and LO take the product and the countdown 4, whatever the countdown was. -/
def Obligations.MultiplyCompletes : Prop :=
  ∀ (s : State) (op : Op) (rs rt : Reg), s.Executes op →
    (∃ m, exec (.mult rs rt) s = .next
        ((let p := BitVec.ofInt 64 ((s.operand rs).toInt * (s.operand rt).toInt)
          { s with hi := p.extractLsb' 32 32, lo := p.extractLsb' 0 32, mduBusy := 4 }).moveToMem m) ∧
      m.DeliversNothing) ∧
    (∃ m, exec (.multu rs rt) s = .next
        ((let p := BitVec.ofNat 64 ((s.operand rs).toNat * (s.operand rt).toNat)
          { s with hi := p.extractLsb' 32 32, lo := p.extractLsb' 0 32, mduBusy := 4 }).moveToMem m) ∧
      m.DeliversNothing)

/-- 48 R433, R434, 43 R175: the truncated quotient and the remainder with the dividend's sign; with a
zero divisor HI = LO = 0 and no trap; the countdown 32 in every case. -/
def Obligations.DivideCompletesAlsoByZero : Prop :=
  ∀ (s : State) (op : Op) (rs rt : Reg), s.Executes op →
    (∃ m, exec (.div rs rt) s = .next
        ((if s.operand rt = 0 then { s with hi := 0, lo := 0, mduBusy := 32 }
          else
            { s with
              hi := BitVec.ofInt 32 ((s.operand rs).toInt.tmod (s.operand rt).toInt)
              lo := BitVec.ofInt 32 ((s.operand rs).toInt.tdiv (s.operand rt).toInt)
              mduBusy := 32 }).moveToMem m) ∧
      m.DeliversNothing) ∧
    (∃ m, exec (.divu rs rt) s = .next
        ((if s.operand rt = 0 then { s with hi := 0, lo := 0, mduBusy := 32 }
          else
            { s with
              hi := s.operand rs % s.operand rt
              lo := s.operand rs / s.operand rt
              mduBusy := 32 }).moveToMem m) ∧
      m.DeliversNothing)

/-- 48 R435, R436, 43 R176: while the countdown is 0, MFHI and MFLO take the current HI or LO. -/
def Obligations.MoveFromHiLoCompletesWhenNotBusy : Prop :=
  ∀ (s : State) (op : Op) (rd : Reg), s.Executes op → s.mduBusy = 0 →
    (∃ m, exec (.mfhi rd) s = .next (s.moveToMem m) ∧ m.Delivers rd s.hi) ∧
    (∃ m, exec (.mflo rd) s = .next (s.moveToMem m) ∧ m.Delivers rd s.lo)

/-- 43 R161, R176: with the countdown at `n` and ME free, an MFHI or MFLO in EX is held for exactly `n`
evaluations, which count down and change nothing else, and executes in the next one. -/
def Obligations.MoveFromHiLoIsHeldExactlyTheCountdown : Prop :=
  ∀ (s : State) (op : Op) (rd : Reg), s.Executes op → op.DecodedInv →
    (decodeWord op.instr = .ok (.mfhi rd) →
      (∀ n ≤ s.mduBusy, executeTimes n s = .next { s with mduBusy := s.mduBusy - n }) ∧
      ∃ m, executeTimes (s.mduBusy + 1) s = .next ({ s with mduBusy := 0 }.moveToMem m) ∧
        m.Delivers rd s.hi) ∧
    (decodeWord op.instr = .ok (.mflo rd) →
      (∀ n ≤ s.mduBusy, executeTimes n s = .next { s with mduBusy := s.mduBusy - n }) ∧
      ∃ m, executeTimes (s.mduBusy + 1) s = .next ({ s with mduBusy := 0 }.moveToMem m) ∧
        m.Delivers rd s.lo)

/-- 48 R437, R438, 43 R178: no wait; the other register is kept and the countdown only ticks. -/
def Obligations.MoveToHiLoCompletes : Prop :=
  ∀ (s : State) (op : Op) (rs : Reg), s.Executes op →
    (∃ m, exec (.mthi rs) s = .next ({ s.tickMdu with hi := s.operand rs }.moveToMem m) ∧
      m.DeliversNothing) ∧
    (∃ m, exec (.mtlo rs) s = .next ({ s.tickMdu with lo := s.operand rs }.moveToMem m) ∧
      m.DeliversNothing)

/-! ### Loads and stores (49 R460 to R469; 42 R140 to R149) -/

/-- 49 R460 to R465, 42 R146: base plus sign-extended displacement; a load then takes from the word its
request returns the byte at bits `[8k+7 : 8k]`, `k = ea[1:0]`, or the halfword at bits
`[16h+15 : 16h]`, `h = ea[1]`, sign- or zero-extended, or the whole word. -/
def Obligations.LoadsComplete : Prop :=
  ∀ (s : State) (op : Op) (rt : Reg) (off : BitVec 16) (rs : Reg), s.Executes op →
    let ea := s.operand rs + off.signExtend 32
    (∃ m, exec (.lb rt off rs) s = .next (s.tickMdu.moveToMem m) ∧
      m.LoadsInto rt ea fun w => (w.extractLsb' (8 * (ea.toNat % 4)) 8).signExtend 32) ∧
    (∃ m, exec (.lbu rt off rs) s = .next (s.tickMdu.moveToMem m) ∧
      m.LoadsInto rt ea fun w => (w.extractLsb' (8 * (ea.toNat % 4)) 8).zeroExtend 32) ∧
    (∃ m, exec (.lh rt off rs) s = .next (s.tickMdu.moveToMem m) ∧
      m.LoadsInto rt ea fun w => (w.extractLsb' (16 * (ea.toNat / 2 % 2)) 16).signExtend 32) ∧
    (∃ m, exec (.lhu rt off rs) s = .next (s.tickMdu.moveToMem m) ∧
      m.LoadsInto rt ea fun w => (w.extractLsb' (16 * (ea.toNat / 2 % 2)) 16).zeroExtend 32) ∧
    (∃ m, exec (.lw rt off rs) s = .next (s.tickMdu.moveToMem m) ∧ m.LoadsInto rt ea fun w => w)

/-- 49 R467 to R469, 42 R144, R147: a store asks for the word and, once it is there, stores the word with
the selected byte or halfword replaced by the low bits of `rt`, or `rt` whole. -/
def Obligations.StoresComplete : Prop :=
  ∀ (s : State) (op : Op) (rt : Reg) (off : BitVec 16) (rs : Reg), s.Executes op →
    let ea := s.operand rs + off.signExtend 32
    (∃ m, exec (.sb rt off rs) s = .next (s.tickMdu.moveToMem m) ∧
      m.StoresTo ea fun w => replaceByte w (ea.toNat % 4) ((s.operand rt).extractLsb' 0 8)) ∧
    (∃ m, exec (.sh rt off rs) s = .next (s.tickMdu.moveToMem m) ∧
      m.StoresTo ea fun w => replaceHalf w (ea.toNat / 2 % 2) ((s.operand rt).extractLsb' 0 16)) ∧
    (∃ m, exec (.sw rt off rs) s = .next (s.tickMdu.moveToMem m) ∧
      m.StoresTo ea fun _ => s.operand rt)

/-- 20 R63, R64, R67: the frame of a store in memory. The Op a store moves to ME, when mem completes it,
changes the bytes of its width from the effective address on (aligned down), to the low bytes of
`rt`; every other byte reads as before. -/
def Obligations.StoresChangeExactlyTheirBytes : Prop :=
  ∀ (s : State) (op m : Op) (rt : Reg) (off : BitVec 16) (rs : Reg) (u t : State), s.Executes op →
    u.Inv → u.me = some m → u.wb = none → memStage u = .next t → t.me = none →
    (exec (.sb rt off rs) s = .next (s.tickMdu.moveToMem m) → ∀ a, t.dataByte a =
      storedByte 1 (effectiveAddress (s.operand rs) off) (s.operand rt) a (u.dataByte a)) ∧
    (exec (.sh rt off rs) s = .next (s.tickMdu.moveToMem m) → ∀ a, t.dataByte a =
      storedByte 2 (effectiveAddress (s.operand rs) off) (s.operand rt) a (u.dataByte a)) ∧
    (exec (.sw rt off rs) s = .next (s.tickMdu.moveToMem m) → ∀ a, t.dataByte a =
      storedByte 4 (effectiveAddress (s.operand rs) off) (s.operand rt) a (u.dataByte a))

/-- 20 R74, 47 R345: a load whose word is available gets the word of DataView, and a request on the
data side, available or not, changes no byte a load sees. -/
def Obligations.DataRequestsReturnAndKeepTheDataView : Prop :=
  ∀ (cfg : Config) (h : Hierarchy) (a : Word) (r : Loaded), cfg.wf = true → CachesInv cfg h →
    CleanCopies cfg h → QueueInv cfg h.dq → load cfg .d h a = .next r →
    (∀ w, r.word = some w → w = h.view cfg .d a) ∧ (∀ b, r.hier.view cfg .d b = h.view cfg .d b)

/-- 49 R460, 20 R71: what a step does to memory: the store that completes in mem changes its bytes;
nothing else in a step changes any byte a load sees. -/
def Obligations.StepChangesMemoryOnlyByTheStoreInMem : Prop :=
  ∀ s m t : State, s.Inv → memStage (writebackStage s) = .next m → step s = .next t →
    ∀ a, t.dataByte a =
      match s.me with
      | some op =>
        if op.isMem = true ∧ op.memWrite = true ∧ m.me = none then
          storedByte (accessSize op.opcode).bytes op.memAddr op.memValue a (s.dataByte a)
        else s.dataByte a
      | none => s.dataByte a

/-! ### Branches, jumps, SYSCALL (49 R475 to R495; 43 R179 to R188) -/

/-- 49 R476 to R481, 43 R179 to R187: the condition, the target, the recovery of a mismatch, the direction
update, the BTB entry; no register is written. -/
def Obligations.ConditionalBranchesComplete : Prop :=
  ∀ (s : State) (op : Op) (rs rt : Reg) (off : BitVec 16), s.Executes op →
    let dest := op.pc + 4 + (off.signExtend 32 <<< 2)
    (∃ t m, exec (.beq rs rt off) s = .next t ∧ m.DeliversNothing ∧
      BranchMoves s t op m (decide (s.operand rs = s.operand rt)) dest true) ∧
    (∃ t m, exec (.bne rs rt off) s = .next t ∧ m.DeliversNothing ∧
      BranchMoves s t op m (decide (s.operand rs ≠ s.operand rt)) dest true) ∧
    (∃ t m, exec (.blez rs off) s = .next t ∧ m.DeliversNothing ∧
      BranchMoves s t op m (decide ((s.operand rs).toInt ≤ 0)) dest true) ∧
    (∃ t m, exec (.bgtz rs off) s = .next t ∧ m.DeliversNothing ∧
      BranchMoves s t op m (decide (0 < (s.operand rs).toInt)) dest true) ∧
    (∃ t m, exec (.bltz rs off) s = .next t ∧ m.DeliversNothing ∧
      BranchMoves s t op m (decide ((s.operand rs).toInt < 0)) dest true) ∧
    (∃ t m, exec (.bgez rs off) s = .next t ∧ m.DeliversNothing ∧
      BranchMoves s t op m (decide (0 ≤ (s.operand rs).toInt)) dest true)

/-- 49 R482, R483: as above, and `x[31]` takes `pc + 4` taken or not. -/
def Obligations.LinkingBranchesComplete : Prop :=
  ∀ (s : State) (op : Op) (rs : Reg) (off : BitVec 16), s.Executes op →
    let dest := op.pc + 4 + (off.signExtend 32 <<< 2)
    (∃ t m, exec (.bltzal rs off) s = .next t ∧ m.Delivers 31 (op.pc + 4) ∧
      BranchMoves s t op m (decide ((s.operand rs).toInt < 0)) dest true) ∧
    (∃ t m, exec (.bgezal rs off) s = .next t ∧ m.Delivers 31 (op.pc + 4) ∧
      BranchMoves s t op m (decide (0 ≤ (s.operand rs).toInt)) dest true)

/-- 49 R484 to R487: always taken; JAL and JALR write `pc + 4`; the direction predictor is left alone;
JALR with `rd` = `rs` jumps to the old value. -/
def Obligations.JumpsComplete : Prop :=
  ∀ (s : State) (op : Op) (rd rs : Reg) (target : BitVec 26), s.Executes op →
    let dest := (op.pc + 4).extractLsb' 28 4 ++ target ++ 0#2
    (∃ t m, exec (.j target) s = .next t ∧ m.DeliversNothing ∧
      BranchMoves s t op m true dest false) ∧
    (∃ t m, exec (.jal target) s = .next t ∧ m.Delivers 31 (op.pc + 4) ∧
      BranchMoves s t op m true dest false) ∧
    (∃ t m, exec (.jr rs) s = .next t ∧ m.DeliversNothing ∧
      BranchMoves s t op m true (s.operand rs) false) ∧
    (∃ t m, exec (.jalr rd rs) s = .next t ∧ m.Delivers rd (op.pc + 4) ∧
      BranchMoves s t op m true (s.operand rs) false)

/-- 49 R495, 43 R188, 41 R133: SYSCALL moves on; at writeback it clears `run` exactly when register 2, as
execute resolved it, was 10, and does nothing else but retire. -/
def Obligations.SyscallCompletesAndHaltsOnTen : Prop :=
  ∀ (s : State) (op : Op), s.Executes op →
    ∃ m, exec .syscall s = .next (s.tickMdu.moveToMem m) ∧ m.dst = none ∧ m.PassesMem ∧
      ∀ z : State, z.wb = some m → writebackStage z =
        { z with
          wb := none
          run := if s.operand 2 = 10 then false else z.run
          statRetired := z.statRetired + 1 }

/-- 30 R98, R100: an Op of a word that matches no row moves on, does nothing and retires (the effect-free
default of 93 U1, notes/assumptions/10.md). -/
def Obligations.UnrecognisedWordHasNoEffect : Prop :=
  ∀ (s : State) (op : Op) (e : DecodeError), s.Executes op → op.DecodedInv →
    decodeWord op.instr = .error e →
    ∃ m, executeStage s = .next (s.tickMdu.moveToMem m) ∧ m.DeliversNothing

/-! ### What instructions leave alone, and when execute holds its Op (43) -/

/-- 43 R160, R172 to R187: the frame of every instruction in execute: no general register, PC, slot DE or
WB, counter, `run`, cache, queue or memory byte changes; HI and LO change only for the instructions
that write them, the countdown only ticks but for multiply and divide, the direction predictor
changes only for conditional branches, the BTB and the recovery record only for branches and jumps. -/
def Obligations.ExecuteFrame : Prop :=
  ∀ (i : Instr) (s t : State), exec i s = .next t →
    t.regs = s.regs ∧ t.pc = s.pc ∧ t.de = s.de ∧ t.wb = s.wb ∧ t.run = s.run ∧ t.hier = s.hier ∧
    t.statFetched = s.statFetched ∧ t.statRetired = s.statRetired ∧ t.statSquash = s.statSquash ∧
    t.cfg = s.cfg ∧ t.stopped = s.stopped ∧
    (setsHi i = false → t.hi = s.hi) ∧ (setsLo i = false → t.lo = s.lo) ∧
    (loadsCountdown i = false → t.mduBusy = s.mduBusy - 1) ∧
    (isCondBranch i = false → t.ghr = s.ghr ∧ t.pht = s.pht) ∧
    (isControl i = false → t.btb = s.btb ∧ t.recov = s.recov)

/-- 43 R160 to R163, R170, R176, R186, R190: execute keeps its input exactly when `ex_hold`, and a held
evaluation changes nothing but the countdown; otherwise the Op, still that of its address and word,
moves to ME. -/
def Obligations.ExecuteHoldsExactlyOnExHold : Prop :=
  ∀ s : State,
    (s.ex = none → executeStage s = .next s.tickMdu) ∧
    (∀ op, s.ex = some op → op.DecodedInv →
      (s.exHold op = true → executeStage s = .next s.tickMdu) ∧
      (s.exHold op = false → ∃ t m, executeStage s = .next t ∧ t.ex = none ∧ t.me = some m ∧
        m.pc = op.pc ∧ m.instr = op.instr ∧ m.DecodedInv))

/-- 43 R166 to R169: the operand of a source register: 0 for register 0; else the value of the Op in ME
bound for it if ready, a stall if not; else the value of the Op in WB bound for it; else the
register file's. -/
def Obligations.BypassTakesTheYoungestProducer : Prop :=
  ∀ (s : State) (r : Reg),
    (r = 0#5 → s.resolveOperand r = (0, false)) ∧
    (∀ m, r ≠ 0#5 → s.me = some m → m.dst = some r → m.dstReady = true →
      s.resolveOperand r = (m.dstVal, false)) ∧
    (∀ m, r ≠ 0#5 → s.me = some m → m.dst = some r → m.dstReady = false →
      s.resolveOperand r = (0, true)) ∧
    (∀ w, r ≠ 0#5 → (∀ m, s.me = some m → m.dst ≠ some r) → s.wb = some w → w.dst = some r →
      s.resolveOperand r = (w.dstVal, false)) ∧
    (r ≠ 0#5 → (∀ m, s.me = some m → m.dst ≠ some r) → (∀ w, s.wb = some w → w.dst ≠ some r) →
      s.resolveOperand r = (s.regs.get r.toFin, false))

/-- 43 R171: under the invariant the bypass never asks for a stall once ME is free, and a load that
completes in mem in a cycle delivers its value to execute in the same cycle: with mem run and ME
free, the operand is the register's program-order value. -/
def Obligations.NoLoadUseBubbleOnAHit : Prop :=
  ∀ (s m : State) (r : Reg), s.Inv → memStage (writebackStage s) = .next m → m.me = none →
    m.resolveOperand r = (s.archReg r, false)

/-! ### Recovery (40 R117 to R125; 43 R180 to R183) -/

/-- 40 R118, R120. -/
def Obligations.RecoveryIsRecordedOnceAndAppliedAtTheEnd : Prop :=
  ∀ (s : State) (d1 d2 : Nat) (a1 a2 : Word), s.recov.active = false →
    ((s.recover d1 a1).recover d2 a2) = { s with recov := ⟨true, d1, a1⟩ } ∧
    ((s.recover d1 a1).recover d2 a2).applyRecovery =
      { s with
        pc := a1
        de := if 2 ≤ d1 then none else s.de
        ex := if 3 ≤ d1 then none else s.ex
        me := if 4 ≤ d1 then none else s.me
        wb := if 5 ≤ d1 then none else s.wb
        recov := ⟨false, 0, 0⟩
        statSquash := s.statSquash + 1 } ∧
    s.applyRecovery = s

/-- 43 R180 to R183, 40 R123, R125: in a step whose branch executed, a mismatch empties DE and EX, keeps
the branch in ME, sends PC to the branch's correct next address and counts one squash; without a
mismatch nothing is squashed. -/
def Obligations.MispredictionFlushesExactlyTheYoungerOps : Prop :=
  ∀ (s m e t : State) (op b : Op), s.Inv → memStage (writebackStage s) = .next m →
    m.ex = some op → m.exHold op = false → op.isBranch = true → executeStage m = .next e →
    e.me = some b → step s = .next t →
    (b.mismatch = true → t.de = none ∧ t.ex = none ∧ t.me = some b ∧ t.wb = e.wb ∧
      t.pc = (if b.branchTaken then b.branchDest else op.pc + 4) ∧
      t.statSquash = s.statSquash + 1) ∧
    (b.mismatch = false → t.me = some b ∧ t.ex = s.de.map Op.decode ∧ t.statSquash = s.statSquash)

/-! ### Writeback (41) -/

/-- 41 R130, R134: the evaluation of `Writeback()`. -/
def Obligations.WritebackCommitsHaltsAndRetires : Prop :=
  ∀ s : State,
    (s.wb = none → writebackStage s = s) ∧
    (∀ op, s.wb = some op → writebackStage s =
      { s with
        wb := none
        regs := match op.dst with
          | some d => if d ≠ 0#5 then s.regs.set d.toFin op.dstVal else s.regs
          | none => s.regs
        run := if op.opcode = 0x00 ∧ op.subop = 0x0C ∧ op.src1Val = 10 then false else s.run
        statRetired := s.statRetired + 1 })

/-- 41 R131, R133, 10 R21, R33: in a step only writeback writes the register file and `run`: the registers,
`run` and the retirement count after a step are those after writeback; register 0 never changes and
reads 0; `run` is never set. -/
def Obligations.OnlyWritebackWritesRegistersAndRun : Prop :=
  ∀ s t : State, step s = .next t →
    t.regs = (writebackStage s).regs ∧ t.run = (writebackStage s).run ∧
    t.statRetired = (writebackStage s).statRetired ∧ t.regs.get 0 = s.regs.get 0 ∧ t.reg 0 = 0 ∧
    (t.run = true → s.run = true)

/-- 10 R22, R43, 43 R189: in a step only execute writes HI, LO, the countdown and the predictor. -/
def Obligations.OnlyExecuteWritesHiLoAndThePredictor : Prop :=
  ∀ s m e t : State, memStage (writebackStage s) = .next m → executeStage m = .next e →
    step s = .next t →
    (m.hi = s.hi ∧ m.lo = s.lo ∧ m.mduBusy = s.mduBusy ∧ m.ghr = s.ghr ∧ m.pht = s.pht ∧
      m.btb = s.btb) ∧
    (t.hi = e.hi ∧ t.lo = e.lo ∧ t.mduBusy = e.mduBusy ∧ t.ghr = e.ghr ∧ t.pht = e.pht ∧
      t.btb = e.btb)

/-! ### Fetch (45) -/

/-- 45 R220 to R231, R243: the decision table of the handler. -/
def Obligations.FetchDecisionTable : Prop :=
  ∀ s : State,
    (s.run = false → fetchStage s = .next { s with pc := s.pc + 4 }) ∧
    (∀ r, s.run = true → load s.cfg .i s.hier s.pc = .next r →
      (r.word = none → fetchStage s = .next { s with hier := r.hier }) ∧
      (∀ w, r.word = some w →
        (∀ d, s.de = some d → fetchStage s = .next { s with hier := r.hier }) ∧
        (s.de = none → ∃ op, fetchStage s = .next
            { s with
              hier := r.hier
              de := some op
              pc := (s.predict s.pc).nextPc
              statFetched := s.statFetched + 1 } ∧
          op.pc = s.pc ∧ op.instr = w ∧ op.src1 = none ∧ op.src2 = none ∧ op.dst = none ∧
          op.dstReady = false ∧ op.isMem = false ∧ op.isBranch = false ∧
          op.predIsBranch = (s.predict s.pc).isBranch ∧ op.predTaken = (s.predict s.pc).taken ∧
          op.predDest = (s.predict s.pc).nextPc)))

/-! ### Branch predictor (46) -/

/-- 46 R262 to R264, R266. -/
def Obligations.PredictFollowsTheBtbAndTheCounter : Prop :=
  ∀ (s : State) (pc : Word) (e : BtbEntry) (c : BitVec 2),
    s.btb.get (pc.extractLsb' 2 10).toFin = e →
    s.pht.get (s.ghr ^^^ pc.extractLsb' 2 8).toFin = c →
    s.predict pc =
      if e.valid = true ∧ e.addr = pc then
        if e.uncond = true ∨ c = 2 ∨ c = 3 then ⟨e.target, true, true⟩ else ⟨pc + 4, true, false⟩
      else ⟨pc + 4, false, false⟩

/-- 46 R270: each counter stays where it is or moves by one in the direction of the outcome, and stops
at 0 and 3. 46 R263, R268: the counter that moves is the one at the history before the shift xor
`pc[9:2]`, every other stays; that it is the history before the shift is the spec's decision
(92 D41; notes/assumptions/24.md). -/
def Obligations.CountersSaturate : Prop :=
  ∀ (s : State) (pc : Word) (taken : Bool) (i : BitVec 8),
    let c := (s.counter i).toNat
    let c' := ((s.updateDirection pc taken).counter i).toNat
    c' ≤ 3 ∧ (c < c' → taken = true ∧ c' = c + 1) ∧ (c' < c → taken = false ∧ c' + 1 = c) ∧
    (i = s.ghr ^^^ pc.extractLsb' 2 8 → c' = if taken then min (c + 1) 3 else c - 1) ∧
    (i ≠ s.ghr ^^^ pc.extractLsb' 2 8 → c' = c)

/-- 46 R272: the entry of `pc` is overwritten whatever it held; every other entry is kept. -/
def Obligations.BtbRefreshOverwritesOneEntry : Prop :=
  ∀ (s : State) (pc target : Word) (uncond : Bool) (i : Fin 1024),
    (s.refreshBtb pc target uncond).btb.get i =
      if i.val = pc.toNat / 4 % 1024 then ⟨true, pc, target, uncond⟩ else s.btb.get i

/-- 46 R275: a valid BTB entry stays valid through every step; a recovery touches no entry. -/
def Obligations.ValidBtbEntriesStayValid : Prop :=
  (∀ (s t : State) (i : Fin 1024), step s = .next t → (s.btb.get i).valid = true →
    (t.btb.get i).valid = true) ∧
  (∀ s : State, s.applyRecovery.btb = s.btb)

/-- 46 R277: the source's scenario, whatever PHT and GHR hold, at every address with an invalid entry and
for each of the four jumps, which refreshes the entry when it executes. The source's own instance is
0x00400000 with entry 0 and the target 0x00400100. -/
def Obligations.PredictorScenarioOfTheSource : Prop :=
  ((0x00400000#32).extractLsb' 2 10).toFin = 0 ∧ jumpTarget 0x00400000 0x0100040 = 0x00400100 ∧
  ∀ (s : State) (pc target : Word) (i : Fin 1024), i = (pc.extractLsb' 2 10).toFin →
    (s.btb.get i).valid = false →
    s.predict pc = ⟨pc + 4, false, false⟩ ∧
    (s.refreshBtb pc target true).btb.get i = ⟨true, pc, target, true⟩ ∧
    (∀ t : State, t.btb = (s.refreshBtb pc target true).btb → t.predict pc = ⟨target, true, true⟩) ∧
    ∀ (op : Op) (rd rs : Reg) (dest : BitVec 26), s.Executes op → op.pc = pc →
      (target = jumpTarget pc dest →
        (∃ t, exec (.j dest) s = .next t ∧ t.btb = (s.refreshBtb pc target true).btb) ∧
        (∃ t, exec (.jal dest) s = .next t ∧ t.btb = (s.refreshBtb pc target true).btb)) ∧
      (target = s.operand rs →
        (∃ t, exec (.jr rs) s = .next t ∧ t.btb = (s.refreshBtb pc target true).btb) ∧
        (∃ t, exec (.jalr rd rs) s = .next t ∧ t.btb = (s.refreshBtb pc target true).btb))

/-! ### Cache hierarchy (47) -/

/-- 47 R297: Touch gives the accessed way rank 0, the ranks below its old one go up by one, the others
and all other fields stay. 47 R298: Victim is an invalid way if there is one, the lowest of them (the
spec's decision, 92 D25; notes/assumptions/21.md), else the way of rank WAYS - 1, which a full set
that meets the invariant has. 47 R305: an install of an absent block replaces the victim, and every
other block keeps all but its rank. -/
def Obligations.TouchMovesOneWayToTheFront : Prop :=
  (∀ (ways : CacheSet) (w v : Nat), w < ways.length → v < ways.length →
    blockAt (touchWay ways w) v =
      { blockAt ways v with
        rank :=
          if v = w then 0
          else if (blockAt ways v).rank < (blockAt ways w).rank then (blockAt ways v).rank + 1
          else (blockAt ways v).rank }) ∧
  (∀ (ways : CacheSet) (n : Nat), (∃ b ∈ ways, b.valid = false) →
    ∃ w < ways.length, victimWay ways n = .next w ∧ (blockAt ways w).valid = false ∧
      ∀ v < w, (blockAt ways v).valid = true) ∧
  (∀ (ways : CacheSet) (n : Nat), SetInv n ways → 0 < n → (∀ b ∈ ways, b.valid = true) →
    ∃ w < n, victimWay ways n = .next w ∧ (blockAt ways w).rank = n - 1 ∧
      ∀ v < n, v ≠ w → (blockAt ways v).rank < n - 1) ∧
  (∀ (cfg : Config) (h : Hierarchy) (b : Word) (data : List Word) (dirty : Bool), cfg.wf = true →
    CachesInv cfg h → h.l2.find cfg cfg.l2 b = none →
    ∃ w h', victimWay (h.l2.ways (setIndex cfg cfg.l2 b)) cfg.l2.ways = .next w ∧
      installL2 cfg h b data dirty = .next h' ∧
      Replaces cfg cfg.l2 h.l2 h'.l2 b w data dirty) ∧
  (∀ (cfg : Config) (k : Side) (h : Hierarchy) (b : Word) (data : List Word), cfg.wf = true →
    CachesInv cfg h → (h.l1 k).find cfg (l1Geometry cfg k) b = none →
    ∃ w h', victimWay ((h.l1 k).ways (setIndex cfg (l1Geometry cfg k) b)) (l1Geometry cfg k).ways =
        .next w ∧
      installL1 cfg k h b data = .next h' ∧
      Replaces cfg (l1Geometry cfg k) (h.l1 k) (h'.l1 k) b w data false)

/-- 47 R325, R329: a stalled entry counts down; at 0 the entry of a DRAM request goes to STALLED_ON_DRAM
with the access latency. Nothing else changes. -/
def Obligations.StalledEntriesCountDownAndDramRequestAdvances : Prop :=
  ∀ (cfg : Config) (k : Side) (h : Hierarchy) (e : QueueEntry) (waited : Bool), e.valid = true →
    (0 < e.stall →
      advanceEntry cfg k h e waited = .next ⟨h, { e with stall := e.stall - 1 }, false⟩) ∧
    (e.stall = 0 → e.state = .stalledOnDramRequest →
      advanceEntry cfg k h e waited =
        .next ⟨h, { e with state := .stalledOnDram, stall := cfg.dramAccessLatency }, false⟩)

/-- 47 R331: at 0 the entry of a DRAM access goes to STALLED_ON_DRAM_RESPONSE, and the valid MSHR entry
of its address, and no other, gets `done`. -/
def Obligations.DramAccessMarksItsMshrDone : Prop :=
  ∀ (cfg : Config) (k : Side) (h : Hierarchy) (e : QueueEntry) (waited : Bool), e.valid = true →
    e.stall = 0 → e.state = .stalledOnDram →
    ∃ table, advanceEntry cfg k h e waited = .next ⟨{ h with mshr := table },
        { e with state := .stalledOnDramResponse, stall := cfg.dramToL2cLatency }, false⟩ ∧
      table.length = h.mshr.length ∧
      ∀ (i : Nat) (a b : MshrEntry), h.mshr[i]? = some a → table[i]? = some b →
        b = if a.valid = true ∧ a.addr = e.addr then { a with done := true } else a

/-- 47 R334: the latencies of a request for a block no valid entry of its queue serves: an L1 hit
answers at the first call, an L2 hit at the call H + 1 later, a miss in both with an MSHR free (and
none for the block) at the call A + B + C + 3 later, and no earlier call answers. 45 R227, 20 R74,
47 R315, R322, R330, R332: on either side, the answer is the word the side's view (FetchView, DataView)
had when the request was first made. -/
def Obligations.RequestLatenciesAreExact : Prop :=
  ∀ (cfg : Config) (k : Side) (h : Hierarchy) (a : Word), cfg.wf = true → CachesInv cfg h →
    (∀ e ∈ h.queue k, e.valid = false) →
    ((h.l1 k).find cfg (l1Geometry cfg k) a ≠ none →
      ∃ r, load cfg k h a = .next r ∧ r.word = some (h.view cfg k a)) ∧
    ((h.l1 k).find cfg (l1Geometry cfg k) a = none → h.l2.find cfg cfg.l2 a ≠ none →
      ∀ n ≤ cfg.l2HitLatency + 1, ∃ r, loadAgain cfg k a n h = .next r ∧
        r.word = if n = cfg.l2HitLatency + 1 then some (h.view cfg k a) else none) ∧
    ((h.l1 k).find cfg (l1Geometry cfg k) a = none → h.l2.find cfg cfg.l2 a = none →
      (∀ m ∈ h.mshr, m.holds (blockAddr cfg a) = false) → (∃ m ∈ h.mshr, m.valid = false) →
      ∀ n ≤ cfg.l2ToDramLatency + cfg.dramAccessLatency + cfg.dramToL2cLatency + 3,
        ∃ r, loadAgain cfg k a n h = .next r ∧
          r.word =
            if n = cfg.l2ToDramLatency + cfg.dramAccessLatency + cfg.dramToL2cLatency + 3 then
              some (h.view cfg k a)
            else none)

/-- 47 R346, 20 R71: storing a word and loading it before anything else happens returns it; any other
word reads as before. -/
def Obligations.StoredWordIsReadBack : Prop :=
  ∀ (cfg : Config) (h h' : Hierarchy) (a v : Word), cfg.wf = true → CachesInv cfg h →
    storeWord cfg h a v = .next h' →
    ∀ b, h'.view cfg .d b = if wordAddr a = wordAddr b then v else h.view cfg .d b

/-! ### Reset, stop, counters (10, 60, 70) -/

/-- 70 R530 with the table of 10 R42, in any configuration (the rank of way `w` is `w`: 92 D7). -/
def Obligations.InitGivesTheResetState : Prop :=
  ∀ s : State,
    (∀ r, s.init.reg r = 0) ∧ s.init.regs.get 0 = 0 ∧ s.init.hi = 0 ∧ s.init.lo = 0 ∧
    s.init.pc = s.cfg.resetPc ∧
    s.init.de = none ∧ s.init.ex = none ∧ s.init.me = none ∧ s.init.wb = none ∧
    s.init.recov = ⟨false, 0, 0⟩ ∧ s.init.mduBusy = 0 ∧ s.init.ghr = 0 ∧
    (∀ i, s.init.counter i = 0) ∧ (∀ i, s.init.btb.get i = ⟨false, 0, 0, false⟩) ∧
    (∀ (k : Side) (set way : Nat), set < (l1Geometry s.cfg k).sets → way < (l1Geometry s.cfg k).ways →
      blockAt ((s.init.hier.l1 k).ways set) way =
        ⟨false, false, 0, way, List.replicate s.cfg.blockWords 0⟩) ∧
    (∀ set way : Nat, set < s.cfg.l2.sets → way < s.cfg.l2.ways →
      blockAt (s.init.hier.l2.ways set) way =
        ⟨false, false, 0, way, List.replicate s.cfg.blockWords 0⟩) ∧
    s.init.hier.mshr = List.replicate s.cfg.l2Mshrs ⟨false, false, 0⟩ ∧
    (∀ e ∈ s.init.hier.iq ++ s.init.hier.dq, e.valid = false) ∧
    s.init.statFetched = 0 ∧ s.init.statRetired = 0 ∧ s.init.statSquash = 0 ∧
    s.init.run = s.run ∧ s.init.hier.store = s.hier.store ∧ s.init.cfg = s.cfg ∧
    (∀ t : State, t.cfg = s.cfg → t.run = s.run → t.hier.store = s.hier.store → t.init = s.init)

/-- 70 R537, 93 U3: `stop()` changes no architectural state, and a step after it is refused (the
refusal is the model's: notes/assumptions/18.md). -/
def Obligations.StopKeepsArchitectureAndEndsTheRun : Prop :=
  ∀ s : State,
    s.stop.regs = s.regs ∧ s.stop.hi = s.hi ∧ s.stop.lo = s.lo ∧ s.stop.pc = s.pc ∧
    s.stop.run = s.run ∧ s.stop.hier.store = s.hier.store ∧
    s.stop.statFetched = s.statFetched ∧ s.stop.statRetired = s.statRetired ∧
    s.stop.statSquash = s.statSquash ∧ step s.stop = .refused .cycleAfterStop ∧
    s.stop.init = s.init

/-- 60 R512: fetched = retired + occupied slots + flushed, as a balance of one step: the step flushes at
most two Ops, none when it applies no recovery; each counter goes up by at most one. -/
def Obligations.CountersBalanceTheSlots : Prop :=
  ∀ s t : State, s.recov = Recovery.inactive → step s = .next t →
    s.statFetched ≤ t.statFetched ∧ t.statFetched ≤ s.statFetched + 1 ∧
    s.statRetired ≤ t.statRetired ∧ t.statRetired ≤ s.statRetired + 1 ∧
    s.statSquash ≤ t.statSquash ∧ t.statSquash ≤ s.statSquash + 1 ∧
    ∃ flushed ≤ 2, (t.statSquash = s.statSquash → flushed = 0) ∧
      t.statFetched + s.statRetired + s.inFlight =
        s.statFetched + t.statRetired + t.inFlight + flushed

/-! ### Invariants of every step, and what a run can rely on -/

/-- The state after `init()`, in every configuration the model accepts and over every canonical flat
store, meets the invariants; so does `State.reset` (whose configuration, `run` and store are the
model's choice: notes/assumptions/3.md, 4.md, 6.md). -/
def Obligations.ResetMeetsTheInvariants : Prop :=
  (∀ (cfg : Config) (run : Bool) (store : Memory), cfg.wf = true → store.wf = true →
    (State.initial cfg run store).Inv) ∧ State.reset.Inv

/-- 10 R28, R29, R21, 45 R232, 44 R207: every step keeps the pipeline's invariants: no recovery pending at a
cycle boundary, the countdown at most 32, register 0 zero, predictions, decoded fields and ready
bits as the slots require, and the fetch path unbroken. -/
def Obligations.StepKeepsThePipelineInvariants : Prop :=
  ∀ s t : State, s.Inv → step s = .next t →
    t.cfg = s.cfg ∧ t.regs.get 0 = 0 ∧ t.recov = Recovery.inactive ∧ t.mduBusy ≤ divLatency ∧
      SlotsInv t ∧ PathInv t

/-- 10 R36, 47 R296: every step keeps the caches' invariants: ranks a permutation, no tag valid twice in a
set, L1I clean, the shapes; and the flat store's canonical form. -/
def Obligations.StepKeepsTheCacheInvariants : Prop :=
  ∀ s t : State, s.Inv → step s = .next t → CachesInv t.cfg t.hier

/-- 47 R345: every step keeps clean copies equal to what lies below them. -/
def Obligations.StepKeepsCleanCopies : Prop :=
  ∀ s t : State, s.Inv → step s = .next t → CleanCopies t.cfg t.hier

/-- 10 R37, 47 R323, R335, 42 R150: every step keeps the queues and the miss-status table in agreement, and
a valid DQ entry only for the memory Op that waits in ME. -/
def Obligations.StepKeepsTheMissInvariants : Prop :=
  ∀ s t : State, s.Inv → step s = .next t → MissInv t.cfg t.hier ∧
    ∀ e ∈ t.hier.dq, e.valid = true →
      ∃ op ∈ t.me, op.isMem = true ∧ e.addr = blockAddr t.cfg op.memAddr

/-- 60 R506, 47 R299, R341, 60 R500: under the invariants no fatal condition occurs: every step before
`stop()` answers a next state. -/
def Obligations.NoFatalConditionOccurs : Prop :=
  ∀ s : State, s.Inv → s.stopped = false → ∃ t, step s = .next t

/-- 70 R540: a cycle executes at most one instruction, and its effect on the registers, HI, LO and memory
as the program sees them (executed Ops completed) is that of the instruction rules in program order
(Isa.lean); a cycle that executes none changes nothing of it. -/
def Obligations.CycleIsOneInstructionInProgramOrder : Prop :=
  ∀ s m t : State, s.Inv → memStage (writebackStage s) = .next m → step s = .next t →
    (∀ op, m.ex = some op → m.exHold op = false →
      AppliesIsa s t (isaEffectOfWord op.instr op.pc s.archReg s.hi s.lo s.archWord)) ∧
    ((m.ex = none ∨ ∃ op, m.ex = some op ∧ m.exHold op = true) →
      AppliesIsa s t (isaNothing 0 s.hi s.lo))

/-- 70 R540, 43 R184, R189: the instruction execute will consume next is the one the instruction rules name:
after an executed instruction its next address, else as before. Left out are, as in 45 R233, a
non-branch predicted taken, and, as in 45 R222, an empty front end with fetch halted. -/
def Obligations.ExecutionFollowsProgramOrder : Prop :=
  ∀ s m t : State, s.Inv → memStage (writebackStage s) = .next m → step s = .next t →
    (t.run = true ∨ t.ex ≠ none ∨ t.de ≠ none) →
    (∀ op, m.ex = some op → m.exHold op = false → (op.isBranch = true ∨ op.predTaken = false) →
      t.nextToExecute =
        (isaEffectOfWord op.instr op.pc s.archReg s.hi s.lo s.archWord).next) ∧
    ((m.ex = none ∨ ∃ op, m.ex = some op ∧ m.exHold op = true) →
      t.nextToExecute = s.nextToExecute)

end
end

