-- ==== Sys2Proof/Laws/Memory.lean ====
section
/-! SUPPORT. The flat store: a read after a write, other bytes and words left alone, the canonical form
kept by every operation, and equal reads make equal stores. -/

namespace Sys2Proof.Machine

/-! ### Bytes -/

@[simp] theorem Memory.readByte_nil (a : Nat) : Memory.readByte [] a = unlistedByte := rfl

theorem Memory.readByte_cons (k : Nat) (v : Byte) (m : Memory) (a : Nat) :
    Memory.readByte ((k, v) :: m) a = if a = k then v else m.readByte a := rfl

/-- Below the bound of a canonical store nothing is listed. -/
theorem Memory.readByte_below {lo : Nat} {m : Memory} (h : Memory.wfAbove lo m = true) {a : Nat}
    (ha : a < lo) : m.readByte a = unlistedByte := by
  induction m generalizing lo with
  | nil => rfl
  | cons c m ih =>
    obtain ⟨k, v⟩ := c
    simp only [Memory.wfAbove, Bool.and_eq_true, decide_eq_true_eq] at h
    rw [Memory.readByte_cons, if_neg (by omega)]
    exact ih h.2 (by omega)

theorem Memory.wfAbove_mono {lo lo' : Nat} {m : Memory} (h : Memory.wfAbove lo m = true)
    (hl : lo' ≤ lo) : Memory.wfAbove lo' m = true := by
  cases m with
  | nil => rfl
  | cons c m =>
    obtain ⟨k, v⟩ := c
    simp only [Memory.wfAbove, Bool.and_eq_true, decide_eq_true_eq] at h ⊢
    exact ⟨⟨⟨by omega, h.1.1.2⟩, h.1.2⟩, h.2⟩

theorem Memory.wfAbove_consByte {lo a : Nat} {v : Byte} {m : Memory} (hlo : lo ≤ a) (ha : a < 2 ^ 32)
    (h : Memory.wfAbove (a + 1) m = true) : Memory.wfAbove lo (Memory.consByte a v m) = true := by
  unfold Memory.consByte
  split
  · exact Memory.wfAbove_mono h (by omega)
  · next hv => simpa [Memory.wfAbove, hlo, hv, h] using ha

/-- Writing a byte keeps the canonical form. -/
theorem Memory.wfAbove_writeByte {lo a : Nat} {v : Byte} {m : Memory} (h : Memory.wfAbove lo m = true)
    (hlo : lo ≤ a) (ha : a < 2 ^ 32) : Memory.wfAbove lo (m.writeByte a v) = true := by
  induction m generalizing lo with
  | nil => exact Memory.wfAbove_consByte hlo ha rfl
  | cons c m ih =>
    obtain ⟨k, u⟩ := c
    simp only [Memory.writeByte]
    have h' := h
    simp only [Memory.wfAbove, Bool.and_eq_true, decide_eq_true_eq] at h'
    split
    · next hk =>
      apply Memory.wfAbove_consByte hlo ha
      simp only [Memory.wfAbove, Bool.and_eq_true, decide_eq_true_eq]
      exact ⟨⟨⟨by omega, h'.1.1.2⟩, h'.1.2⟩, h'.2⟩
    · split
      · next hk => subst hk; exact Memory.wfAbove_consByte hlo ha h'.2
      · simp only [Memory.wfAbove, Bool.and_eq_true, decide_eq_true_eq]
        exact ⟨h'.1, ih h'.2 (by omega)⟩

theorem Memory.readByte_consByte {a : Nat} {v : Byte} {m : Memory}
    (h : Memory.wfAbove (a + 1) m = true) (b : Nat) :
    (Memory.consByte a v m).readByte b = if b = a then v else m.readByte b := by
  unfold Memory.consByte
  split
  · next hv =>
    split
    · next hb => rw [hv, hb, Memory.readByte_below h (by omega)]
    · rfl
  · rw [Memory.readByte_cons]

/-- A byte read after a byte written. -/
theorem Memory.readByte_writeByte {lo : Nat} {m : Memory} (h : Memory.wfAbove lo m = true) (a b : Nat)
    (v : Byte) : (m.writeByte a v).readByte b = if b = a then v else m.readByte b := by
  induction m generalizing lo with
  | nil =>
    simp only [Memory.writeByte]
    rw [Memory.readByte_consByte (m := []) rfl]
  | cons c m ih =>
    obtain ⟨k, u⟩ := c
    simp only [Memory.writeByte]
    have h' := h
    simp only [Memory.wfAbove, Bool.and_eq_true, decide_eq_true_eq] at h'
    split
    · next hk =>
      apply Memory.readByte_consByte
      simp only [Memory.wfAbove, Bool.and_eq_true, decide_eq_true_eq]
      exact ⟨⟨⟨by omega, h'.1.1.2⟩, h'.1.2⟩, h'.2⟩
    · split
      · next hk =>
        subst hk
        rw [Memory.readByte_consByte h'.2, Memory.readByte_cons]
        split <;> rfl
      · next hk =>
        rw [Memory.readByte_cons, Memory.readByte_cons, ih h'.2]
        split
        · next hb => subst hb; rw [if_neg (by omega)]
        · rfl

/-- Two canonical stores that read the same at every address are the same data. -/
theorem Memory.ext_readByte {lo : Nat} {m n : Memory} (hm : Memory.wfAbove lo m = true)
    (hn : Memory.wfAbove lo n = true) (h : ∀ a, m.readByte a = n.readByte a) : m = n := by
  induction m generalizing lo n with
  | nil =>
    cases n with
    | nil => rfl
    | cons c n =>
      obtain ⟨k, v⟩ := c
      simp only [Memory.wfAbove, Bool.and_eq_true, decide_eq_true_eq] at hn
      have := h k
      simp [Memory.readByte_cons] at this
      exact absurd this.symm hn.1.2
  | cons c m ih =>
    obtain ⟨k, v⟩ := c
    have hm' := hm
    simp only [Memory.wfAbove, Bool.and_eq_true, decide_eq_true_eq] at hm'
    cases n with
    | nil =>
      have := h k
      simp [Memory.readByte_cons] at this
      exact absurd this hm'.1.2
    | cons d n =>
      obtain ⟨j, u⟩ := d
      have hn' := hn
      simp only [Memory.wfAbove, Bool.and_eq_true, decide_eq_true_eq] at hn'
      have hkj : k = j := by
        rcases Nat.lt_trichotomy k j with hlt | heq | hgt
        · have hk := h k
          rw [Memory.readByte_cons, if_pos rfl, Memory.readByte_cons, if_neg (by omega),
            Memory.readByte_below hn'.2 (by omega)] at hk
          exact absurd hk hm'.1.2
        · exact heq
        · have hj := h j
          rw [Memory.readByte_cons, if_neg (by omega), Memory.readByte_below hm'.2 (by omega),
            Memory.readByte_cons, if_pos rfl] at hj
          exact absurd hj.symm hn'.1.2
      subst hkj
      have hv := h k
      simp only [Memory.readByte_cons, if_true] at hv
      subst hv
      congr 1
      apply ih hm'.2 hn'.2
      intro a
      by_cases ha : a = k
      · subst ha
        rw [Memory.readByte_below hm'.2 (by omega), Memory.readByte_below hn'.2 (by omega)]
      · have := h a
        simpa [Memory.readByte_cons, ha] using this

/-! ### Words -/

theorem wordAddr_toNat (a : Word) : (wordAddr a).toNat = a.toNat / 4 * 4 := by
  have hm : (~~~3#32 : Word).toNat = (2 ^ 30 - 1) * 2 ^ 2 := by decide
  unfold wordAddr
  rw [BitVec.toNat_and, hm]
  apply Nat.eq_of_testBit_eq
  intro i
  have h4 : a.toNat / 4 * 4 = (a.toNat >>> 2) * 2 ^ 2 := by
    rw [Nat.shiftRight_eq_div_pow]; norm_num
  rw [h4, Nat.testBit_and, Nat.testBit_mul_two_pow, Nat.testBit_mul_two_pow,
    Nat.testBit_two_pow_sub_one, Nat.testBit_shiftRight]
  by_cases hi : 2 ≤ i
  · rw [show 2 + (i - 2) = i by omega]
    by_cases h32 : i < 32
    · simp [hi, show i - 2 < 30 by omega]
    · have : a.toNat.testBit i = false :=
        Nat.testBit_lt_two_pow (lt_of_lt_of_le a.isLt (Nat.pow_le_pow_right (by decide) (by omega)))
      simp [this]
  · simp [hi]

theorem wordAddr_lt (a : Word) : (wordAddr a).toNat + 3 < 2 ^ 32 := by
  rw [wordAddr_toNat]; have := a.isLt; omega

@[simp] theorem wordAddr_wordAddr (a : Word) : wordAddr (wordAddr a) = wordAddr a := by
  apply BitVec.eq_of_toNat_eq; rw [wordAddr_toNat, wordAddr_toNat]; omega

/-- Two aligned word addresses are equal or at least four bytes apart. -/
theorem wordAddr_apart {a b : Word} (h : wordAddr a ≠ wordAddr b) :
    (wordAddr a).toNat + 4 ≤ (wordAddr b).toNat ∨ (wordAddr b).toNat + 4 ≤ (wordAddr a).toNat := by
  have : (wordAddr a).toNat ≠ (wordAddr b).toNat := fun e => h (BitVec.eq_of_toNat_eq e)
  rw [wordAddr_toNat, wordAddr_toNat] at *
  omega

theorem wordOfBytes_byteOfWord (w : Word) :
    wordOfBytes (byteOfWord w 0) (byteOfWord w 1) (byteOfWord w 2) (byteOfWord w 3) = w := by
  unfold wordOfBytes byteOfWord
  ext i hi
  have : i < 8 ∨ (8 ≤ i ∧ i < 16) ∨ (16 ≤ i ∧ i < 24) ∨ (24 ≤ i ∧ i < 32) := by omega
  simp only [BitVec.getElem_append, BitVec.getElem_extractLsb']
  rcases this with h | h | h | h
  · simp [h, BitVec.getLsbD_eq_getElem, hi]
  · have : ¬ i < 8 := by omega
    have h2 : i - 8 < 8 := by omega
    have h3 : 8 + (i - 8) = i := by omega
    simp [this, h2, h3, BitVec.getLsbD_eq_getElem, hi]
  · have : ¬ i < 8 := by omega
    have h2 : ¬ i - 8 < 8 := by omega
    have h3 : i - 8 - 8 < 8 := by omega
    have h4 : 16 + (i - 8 - 8) = i := by omega
    simp [this, h2, h3, h4, BitVec.getLsbD_eq_getElem, hi]
  · have : ¬ i < 8 := by omega
    have h2 : ¬ i - 8 < 8 := by omega
    have h3 : ¬ i - 8 - 8 < 8 := by omega
    have h4 : 24 + (i - 8 - 8 - 8) = i := by omega
    simp [this, h2, h3, h4, BitVec.getLsbD_eq_getElem, hi]

/-- Writing a word keeps the canonical form. -/
theorem Memory.wf_writeWord {m : Memory} (h : m.wf = true) (a v : Word) : (m.writeWord a v).wf = true := by
  have := wordAddr_lt a
  unfold Memory.writeWord Memory.wf at *
  exact Memory.wfAbove_writeByte (Memory.wfAbove_writeByte (Memory.wfAbove_writeByte
    (Memory.wfAbove_writeByte h (by omega) (by omega)) (by omega) (by omega))
      (by omega) (by omega)) (by omega) (by omega)

/-- The bytes after a word is written. -/
theorem Memory.readByte_writeWord {m : Memory} (h : m.wf = true) (a v : Word) (b : Nat) :
    (m.writeWord a v).readByte b =
      if b = (wordAddr a).toNat + 3 then byteOfWord v 3
      else if b = (wordAddr a).toNat + 2 then byteOfWord v 2
      else if b = (wordAddr a).toNat + 1 then byteOfWord v 1
      else if b = (wordAddr a).toNat then byteOfWord v 0
      else m.readByte b := by
  have hb := wordAddr_lt a
  unfold Memory.wf at h
  have h0 := Memory.wfAbove_writeByte (v := byteOfWord v 0) h (Nat.zero_le (wordAddr a).toNat) (by omega)
  have h1 := Memory.wfAbove_writeByte (a := (wordAddr a).toNat + 1) (v := byteOfWord v 1) h0
    (by omega) (by omega)
  have h2 := Memory.wfAbove_writeByte (a := (wordAddr a).toNat + 2) (v := byteOfWord v 2) h1
    (by omega) (by omega)
  simp only [Memory.writeWord]
  rw [Memory.readByte_writeByte h2, Memory.readByte_writeByte h1, Memory.readByte_writeByte h0,
    Memory.readByte_writeByte h]

/-- A word read after a word written (20 R60). -/
theorem Memory.readWord_writeWord {m : Memory} (h : m.wf = true) (a b v : Word) :
    (m.writeWord a v).readWord b = if wordAddr a = wordAddr b then v else m.readWord b := by
  simp only [Memory.readWord, Memory.readByte_writeWord h]
  by_cases e : wordAddr a = wordAddr b
  · simp [e, wordOfBytes_byteOfWord]
  · rw [if_neg e]
    have := wordAddr_apart e
    congr 1 <;> (repeat rw [if_neg (by omega)])

theorem Memory.wf_nil : Memory.wf [] = true := rfl

/-- Writing words in sequence keeps the canonical form. -/
theorem wf_writeWords {m : Memory} (h : m.wf = true) (a : Word) (ws : List Word) :
    (writeWords m a ws).wf = true := by
  induction ws generalizing m a with
  | nil => exact h
  | cons w ws ih => exact ih (Memory.wf_writeWord h a w) (a + 4)

/-- The store at reset is canonical. -/
theorem reset_store_wf : State.reset.hier.store.wf = true := rfl

end Sys2Proof.Machine
end

