-- ==== Sys2Proof/Laws/Bytes.lean ====
section
/-! SUPPORT. Bytes and halfwords of a word after one of them is replaced (20 R63, R67). -/

namespace Sys2Proof.Machine

theorem byteOfWord_replaceByte (w : Word) {k j : Nat} (hk : k < 4) (hj : j < 4) (v : Byte) :
    byteOfWord (replaceByte w k v) j = if j = k then v else byteOfWord w j := by
  have hff : ∀ n, (0xFF#32).getLsbD n = decide (n < 8) := by
    intro n
    by_cases h : n < 8
    · interval_cases n <;> rfl
    · simp only [h, decide_false]
      by_cases h2 : n < 32
      · interval_cases n <;> rfl
      · exact BitVec.getLsbD_of_ge _ _ (by omega)
  apply BitVec.eq_of_getLsbD_eq
  intro i hi
  unfold byteOfWord replaceByte
  simp only [BitVec.getLsbD_extractLsb', BitVec.getLsbD_or, BitVec.getLsbD_and, BitVec.getLsbD_not,
    BitVec.getLsbD_shiftLeft, hff, hi, decide_true, Bool.true_and]
  by_cases h : j = k
  · subst h
    have h1 : 8 * j + i < 32 := by omega
    have h2 : ¬ 8 * j + i < 8 * j := by omega
    have h3 : 8 * j + i - 8 * j = i := by omega
    simp [h1, h2, h3, hi, show i < 32 by omega]
  · rw [if_neg h]
    have h1 : 8 * j + i < 32 := by omega
    by_cases h2 : j < k
    · have h3 : 8 * j + i < 8 * k := by omega
      simp [h1, h3, hi]
    · have h3 : ¬ 8 * j + i < 8 * k := by omega
      have h4 : ¬ 8 * j + i - 8 * k < 8 := by omega
      have h5 : v.getLsbD (8 * j + i - 8 * k) = false := BitVec.getLsbD_of_ge v _ (by omega)
      simp [h1, h3, h4, h5, hi]

/-- Two words with the same four bytes are equal. -/
theorem eq_of_byteOfWord {v w : Word} (h : ∀ k < 4, byteOfWord v k = byteOfWord w k) : v = w := by
  rw [← wordOfBytes_byteOfWord v, ← wordOfBytes_byteOfWord w, h 0 (by decide), h 1 (by decide),
    h 2 (by decide), h 3 (by decide)]

/-- A halfword's two bytes. -/
theorem byteOfWord_replaceHalf (w : Word) {k j : Nat} (_hk : k < 2) (hj : j < 4) (v : BitVec 16) :
    byteOfWord (replaceHalf w k v) j =
      if j / 2 = k then v.extractLsb' (8 * (j % 2)) 8 else byteOfWord w j := by
  have hff : ∀ n, (0xFFFF#32).getLsbD n = decide (n < 16) := by
    intro n
    by_cases h : n < 16
    · interval_cases n <;> rfl
    · simp only [h, decide_false]
      by_cases h2 : n < 32
      · interval_cases n <;> rfl
      · exact BitVec.getLsbD_of_ge _ _ (by omega)
  apply BitVec.eq_of_getLsbD_eq
  intro i hi
  unfold byteOfWord replaceHalf
  simp only [BitVec.getLsbD_extractLsb', BitVec.getLsbD_or, BitVec.getLsbD_and, BitVec.getLsbD_not,
    BitVec.getLsbD_shiftLeft, hff, hi, decide_true, Bool.true_and]
  have h1 : 8 * j + i < 32 := by omega
  by_cases h : j / 2 = k
  · have h2 : ¬ 8 * j + i < 16 * k := by omega
    have h3 : 8 * j + i - 16 * k = 8 * (j % 2) + i := by omega
    have h4 : 8 * (j % 2) + i < 16 := by omega
    simp [h1, h2, h3, h4, h, hi, show 8 * (j % 2) + i < 32 by omega]
  · rw [if_neg h]
    by_cases h2 : 8 * j + i < 16 * k
    · simp [h1, h2, hi]
    · have h4 : ¬ 8 * j + i - 16 * k < 16 := by omega
      have h5 : v.getLsbD (8 * j + i - 16 * k) = false := BitVec.getLsbD_of_ge v _ (by omega)
      simp [h1, h2, h4, h5, hi]

theorem byteIndex_eq (a : Word) : byteIndex a = a.toNat % 4 := by
  simp [byteIndex, BitVec.extractLsb'_toNat]

theorem byteIndex_lt (a : Word) : byteIndex a < 4 := by rw [byteIndex_eq]; omega

theorem halfIndex_eq (a : Word) : halfIndex a = a.toNat / 2 % 2 := by
  simp [halfIndex, BitVec.extractLsb'_toNat, Nat.shiftRight_eq_div_pow]

theorem halfIndex_lt (a : Word) : halfIndex a < 2 := by rw [halfIndex_eq]; omega

/-- An address is its word's address plus its byte index. -/
theorem toNat_eq_wordAddr_add (a : Word) : a.toNat = (wordAddr a).toNat + byteIndex a := by
  rw [wordAddr_toNat, byteIndex_eq]; omega

/-- Addresses of one word differ in the byte index only. -/
theorem eq_of_wordAddr_byteIndex {a b : Word} (h : wordAddr a = wordAddr b)
    (hb : byteIndex a = byteIndex b) : a = b := by
  apply BitVec.eq_of_toNat_eq
  rw [toNat_eq_wordAddr_add a, toNat_eq_wordAddr_add b, h, hb]

end Sys2Proof.Machine
end

