-- ==== Sys2Proof/Laws/Geometry.lean ====
section
/-! SUPPORT. The address fields of 47 R291, R292 as numbers, and how they determine a block address. -/

namespace Sys2Proof.Machine

/-- Masking with `2^n - 1` keeps the remainder. -/
theorem and_mask_toNat (a : Word) {n : Nat} (hn : n ≤ 32) :
    (a &&& BitVec.ofNat 32 (2 ^ n - 1)).toNat = a.toNat % 2 ^ n := by
  have hp : 2 ^ n - 1 < 2 ^ 32 := by
    have := Nat.pow_le_pow_right (show 0 < 2 by decide) hn
    have := Nat.two_pow_pos n
    omega
  rw [BitVec.toNat_and, BitVec.toNat_ofNat, Nat.mod_eq_of_lt hp, Nat.and_two_pow_sub_one_eq_mod]

/-- Clearing the low `n` bits is shifting them out and back. -/
theorem and_not_mask (a : Word) (n : Nat) :
    a &&& ~~~BitVec.ofNat 32 (2 ^ n - 1) = (a >>> n) <<< n := by
  apply BitVec.eq_of_getLsbD_eq
  intro i hi
  simp only [BitVec.getLsbD_and, BitVec.getLsbD_not, BitVec.getLsbD_ofNat, BitVec.getLsbD_shiftLeft,
    BitVec.getLsbD_ushiftRight, Nat.testBit_two_pow_sub_one, hi, decide_true, Bool.true_and]
  by_cases h : i < n
  · simp [h]
  · simp [h, show n + (i - n) = i by omega]

theorem shiftOut_toNat (a : Word) (n : Nat) : ((a >>> n) <<< n).toNat = a.toNat / 2 ^ n * 2 ^ n := by
  rw [BitVec.toNat_shiftLeft, BitVec.toNat_ushiftRight, Nat.shiftRight_eq_div_pow, Nat.shiftLeft_eq]
  apply Nat.mod_eq_of_lt
  exact lt_of_le_of_lt (Nat.div_mul_le_self _ _) a.isLt

/-- What the checks of `Config.wf` say of one cache. -/
theorem Geometry.wf_iff {g : Geometry} {n : Nat} :
    g.wf n = true ↔ 1 ≤ g.ways ∧ 2 + n + g.setBits ≤ 32 := by
  simp [Geometry.wf]

theorem Config.wf_iff {c : Config} :
    c.wf = true ↔ c.l1i.wf c.blockShift = true ∧ c.l1d.wf c.blockShift = true ∧
      c.l2.wf c.blockShift = true ∧ 1 ≤ c.l2Mshrs := by
  simp [Config.wf, and_assoc]

variable {cfg : Config} {g : Geometry} (hg : g.wf cfg.blockShift = true)
include hg

theorem setIndex_eq (a : Word) : setIndex cfg g a = a.toNat / 2 ^ (2 + cfg.blockShift) % g.sets := by
  have := (Geometry.wf_iff.1 hg).2
  unfold setIndex Geometry.sets
  rw [and_mask_toNat _ (by omega), BitVec.toNat_ushiftRight, Nat.shiftRight_eq_div_pow]

theorem setIndex_lt (a : Word) : setIndex cfg g a < g.sets := by
  rw [setIndex_eq hg]; exact Nat.mod_lt _ (Nat.two_pow_pos _)

omit hg in
theorem tagOf_toNat (a : Word) :
    (tagOf cfg g a).toNat = a.toNat / 2 ^ (2 + cfg.blockShift + g.setBits) := by
  rw [tagOf, BitVec.toNat_ushiftRight, Nat.shiftRight_eq_div_pow]

theorem tagOf_lt (a : Word) :
    (tagOf cfg g a).toNat < 2 ^ (32 - (2 + cfg.blockShift + g.setBits)) := by
  have h := (Geometry.wf_iff.1 hg).2
  rw [tagOf_toNat, Nat.div_lt_iff_lt_mul (Nat.two_pow_pos _), ← Nat.pow_add, Nat.sub_add_cancel h]
  exact a.isLt

theorem wordOffset_eq (a : Word) : wordOffset cfg a = a.toNat / 4 % cfg.blockWords := by
  have := (Geometry.wf_iff.1 hg).2
  unfold wordOffset Config.blockWords
  rw [and_mask_toNat _ (by omega), BitVec.toNat_ushiftRight, Nat.shiftRight_eq_div_pow]

theorem wordOffset_lt (a : Word) : wordOffset cfg a < cfg.blockWords := by
  rw [wordOffset_eq hg]; exact Nat.mod_lt _ (Nat.two_pow_pos _)

omit hg in
theorem four_mul_blockWords : 4 * cfg.blockWords = 2 ^ (2 + cfg.blockShift) := by
  rw [Config.blockWords, Nat.pow_add]

omit hg in
theorem blockAddr_toNat (a : Word) :
    (blockAddr cfg a).toNat = a.toNat / 2 ^ (2 + cfg.blockShift) * 2 ^ (2 + cfg.blockShift) := by
  unfold blockAddr
  rw [four_mul_blockWords, and_not_mask, shiftOut_toNat]

theorem blockAddrOf_toNat {tag : Word} {set : Nat}
    (ht : tag.toNat < 2 ^ (32 - (2 + cfg.blockShift + g.setBits))) (hs : set < g.sets) :
    (blockAddrOf cfg g tag set).toNat = (tag.toNat * g.sets + set) * 2 ^ (2 + cfg.blockShift) := by
  have hb := (Geometry.wf_iff.1 hg).2
  have h32 : 2 ^ (32 - (2 + cfg.blockShift + g.setBits)) * 2 ^ g.setBits * 2 ^ (2 + cfg.blockShift) =
      2 ^ 32 := by
    rw [← Nat.pow_add, ← Nat.pow_add]; congr 1; omega
  have hsum : (tag.toNat * g.sets + set) * 2 ^ (2 + cfg.blockShift) < 2 ^ 32 := by
    rw [← h32]
    apply Nat.mul_lt_mul_of_pos_right _ (Nat.two_pow_pos _)
    calc tag.toNat * g.sets + set < tag.toNat * g.sets + g.sets := by omega
      _ = (tag.toNat + 1) * g.sets := by ring
      _ ≤ _ := Nat.mul_le_mul_right _ ht
  have hone : 1 ≤ 2 ^ (2 + cfg.blockShift) := Nat.one_le_two_pow
  have hle : tag.toNat * g.sets + set ≤ (tag.toNat * g.sets + set) * 2 ^ (2 + cfg.blockShift) :=
    Nat.le_mul_of_pos_right _ hone
  have htag : (tag <<< g.setBits).toNat = tag.toNat * g.sets := by
    rw [BitVec.toNat_shiftLeft, Nat.shiftLeft_eq, Geometry.sets]
    apply Nat.mod_eq_of_lt
    unfold Geometry.sets at *
    omega
  have hor : ((tag <<< g.setBits) ||| BitVec.ofNat 32 set).toNat = tag.toNat * g.sets + set := by
    rw [BitVec.toNat_or, htag, BitVec.toNat_ofNat, Nat.mod_eq_of_lt (by omega), Geometry.sets,
      ← Nat.shiftLeft_eq, Nat.shiftLeft_add_eq_or_of_lt hs]
  unfold blockAddrOf
  rw [BitVec.toNat_shiftLeft, hor, Nat.shiftLeft_eq, Nat.mod_eq_of_lt hsum]

/-- The tag and the set of an address give back its block address (R291, R292). -/
theorem blockAddrOf_tagOf (a : Word) :
    blockAddrOf cfg g (tagOf cfg g a) (setIndex cfg g a) = blockAddr cfg a := by
  apply BitVec.eq_of_toNat_eq
  rw [blockAddrOf_toNat hg (tagOf_lt hg a) (setIndex_lt hg a), blockAddr_toNat, tagOf_toNat,
    setIndex_eq hg, Geometry.sets, Nat.pow_add 2 (2 + cfg.blockShift) g.setBits, ← Nat.div_div_eq_div_mul,
    Nat.div_add_mod']

/-- The set of a block address built from a tag and a set. -/
theorem setIndex_blockAddrOf {tag : Word} {set : Nat}
    (ht : tag.toNat < 2 ^ (32 - (2 + cfg.blockShift + g.setBits))) (hs : set < g.sets) :
    setIndex cfg g (blockAddrOf cfg g tag set) = set := by
  rw [setIndex_eq hg, blockAddrOf_toNat hg ht hs, Nat.mul_div_cancel _ (Nat.two_pow_pos _),
    Nat.mul_comm, Nat.mul_add_mod, Nat.mod_eq_of_lt hs]

/-- The tag of a block address built from a tag and a set. -/
theorem tagOf_blockAddrOf {tag : Word} {set : Nat}
    (ht : tag.toNat < 2 ^ (32 - (2 + cfg.blockShift + g.setBits))) (hs : set < g.sets) :
    tagOf cfg g (blockAddrOf cfg g tag set) = tag := by
  apply BitVec.eq_of_toNat_eq
  rw [tagOf_toNat, blockAddrOf_toNat hg ht hs, Nat.pow_add 2 (2 + cfg.blockShift) g.setBits,
    ← Nat.div_div_eq_div_mul, Nat.mul_div_cancel _ (Nat.two_pow_pos _)]
  unfold Geometry.sets at *
  rw [Nat.mul_comm, Nat.mul_add_div (Nat.two_pow_pos _), Nat.div_eq_of_lt hs, Nat.add_zero]

/-- The set and the tag are those of the block. -/
theorem setIndex_blockAddr (a : Word) : setIndex cfg g (blockAddr cfg a) = setIndex cfg g a := by
  rw [← blockAddrOf_tagOf hg a, setIndex_blockAddrOf hg (tagOf_lt hg a) (setIndex_lt hg a)]

theorem tagOf_blockAddr (a : Word) : tagOf cfg g (blockAddr cfg a) = tagOf cfg g a := by
  rw [← blockAddrOf_tagOf hg a, tagOf_blockAddrOf hg (tagOf_lt hg a) (setIndex_lt hg a)]

omit hg in
@[simp] theorem blockAddr_blockAddr (a : Word) : blockAddr cfg (blockAddr cfg a) = blockAddr cfg a := by
  apply BitVec.eq_of_toNat_eq
  rw [blockAddr_toNat, blockAddr_toNat, Nat.mul_div_cancel _ (Nat.two_pow_pos _)]

/-- A cache finds an address exactly where it finds its block. -/
theorem Cache.find_blockAddr (c : Cache) (a : Word) :
    c.find cfg g (blockAddr cfg a) = c.find cfg g a := by
  unfold Cache.find; rw [setIndex_blockAddr hg, tagOf_blockAddr hg]

/-- Same set and tag, same block. -/
theorem blockAddr_eq_of_set_tag {a b : Word} (hs : setIndex cfg g a = setIndex cfg g b)
    (ht : tagOf cfg g a = tagOf cfg g b) : blockAddr cfg a = blockAddr cfg b := by
  rw [← blockAddrOf_tagOf hg a, ← blockAddrOf_tagOf hg b, hs, ht]

/-- The word address as block address plus offset. -/
theorem wordAddr_eq_block (a : Word) :
    (wordAddr a).toNat = (blockAddr cfg a).toNat + 4 * wordOffset cfg a := by
  have h : (wordAddr a).toNat = a.toNat / 4 * 4 := by
    have : (3#32 : Word) = BitVec.ofNat 32 (2 ^ 2 - 1) := rfl
    unfold wordAddr
    rw [this, and_not_mask, shiftOut_toNat]; norm_num
  rw [h, blockAddr_toNat, wordOffset_eq hg, Config.blockWords, Nat.pow_add, ← Nat.div_div_eq_div_mul]
  have := Nat.div_add_mod (a.toNat / 4) (2 ^ cfg.blockShift)
  rw [show (2 : Nat) ^ 2 = 4 from rfl]
  calc a.toNat / 4 * 4 = (2 ^ cfg.blockShift * (a.toNat / 4 / 2 ^ cfg.blockShift) +
        a.toNat / 4 % 2 ^ cfg.blockShift) * 4 := by rw [this]
    _ = _ := by ring

end Sys2Proof.Machine
end

