-- ==== Sys2Proof/Laws/CacheSet.lean ====
section
/-! SUPPORT. One set: the hit scan, `Touch`, `Victim`, and `SetInv` under each change (47 R295 to R298). -/

namespace Sys2Proof.Machine

theorem blockAt_eq {ways : CacheSet} {w : Nat} (h : w < ways.length) : blockAt ways w = ways[w] := by
  simp [blockAt, h]

theorem blockAt_mem {ways : CacheSet} {w : Nat} (h : w < ways.length) : blockAt ways w ∈ ways := by
  rw [blockAt_eq h]; exact List.getElem_mem h

/-! ### The hit scan (R295) -/

/-- A way found is in the set, valid, of that tag, and the first such. -/
theorem findWay_some {ways : CacheSet} {tag : Word} {w : Nat} (h : findWay ways tag = some w) :
    w < ways.length ∧ (blockAt ways w).valid = true ∧ (blockAt ways w).tag = tag := by
  obtain ⟨hw, hp, -⟩ := List.findIdx?_eq_some_iff_getElem.1 h
  simp only [Bool.and_eq_true, beq_iff_eq] at hp
  rw [blockAt_eq hw]
  exact ⟨hw, hp.1, hp.2⟩

theorem findWay_none {ways : CacheSet} {tag : Word} :
    findWay ways tag = none ↔ ∀ b ∈ ways, b.valid = true → b.tag ≠ tag := by
  simp [findWay, List.findIdx?_eq_none_iff]

/-! ### `Touch` (R297) -/

@[simp] theorem bumpRank_valid (r : Nat) (b : CacheBlock) : (bumpRank r b).valid = b.valid := by
  unfold bumpRank; split <;> rfl
@[simp] theorem bumpRank_dirty (r : Nat) (b : CacheBlock) : (bumpRank r b).dirty = b.dirty := by
  unfold bumpRank; split <;> rfl
@[simp] theorem bumpRank_tag (r : Nat) (b : CacheBlock) : (bumpRank r b).tag = b.tag := by
  unfold bumpRank; split <;> rfl
@[simp] theorem bumpRank_data (r : Nat) (b : CacheBlock) : (bumpRank r b).data = b.data := by
  unfold bumpRank; split <;> rfl
theorem bumpRank_rank (r : Nat) (b : CacheBlock) :
    (bumpRank r b).rank = if b.rank < r then b.rank + 1 else b.rank := by
  unfold bumpRank; split <;> rfl

@[simp] theorem touchWay_length (ways : CacheSet) (w : Nat) : (touchWay ways w).length = ways.length := by
  simp [touchWay]

/-- `Touch`, with the accessed way written out. -/
theorem touchWay_eq {ways : CacheSet} {w : Nat} (hw : w < ways.length) :
    touchWay ways w = (ways.map (bumpRank ways[w].rank)).set w { ways[w] with rank := 0 } := by
  have hb : blockAt (ways.map (bumpRank ways[w].rank)) w = bumpRank ways[w].rank ways[w] := by
    rw [blockAt_eq (by simpa using hw)]; simp
  unfold touchWay
  rw [blockAt_eq hw]
  simp only [hb]
  simp

/-- One way after a touch: only its rank moves. -/
theorem touchWay_getElem {ways : CacheSet} {w : Nat} (hw : w < ways.length) (i : Nat)
    (hi : i < ways.length) :
    (touchWay ways w)[i]'(by simpa using hi) =
      { ways[i] with
        rank := if i = w then 0
          else if ways[i].rank < ways[w].rank then ways[i].rank + 1 else ways[i].rank } := by
  simp only [touchWay_eq hw, List.getElem_set, List.getElem_map]
  by_cases h : w = i
  · subst h
    rw [if_pos rfl, if_pos rfl]
  · rw [if_neg h, if_neg (Ne.symm h)]
    unfold bumpRank
    split <;> rfl

/-- A touch changes no block but in its rank. -/
theorem touchWay_map {α : Type} (f : CacheBlock → α) (hf : ∀ (b : CacheBlock) (r : Nat), f { b with rank := r } = f b)
    {ways : CacheSet} {w : Nat} (hw : w < ways.length) : (touchWay ways w).map f = ways.map f := by
  apply List.ext_getElem (by simp)
  intro i h1 h2
  have hi : i < ways.length := by simpa using h2
  rw [List.getElem_map, List.getElem_map, touchWay_getElem hw i hi, hf]

theorem ranks_range {n : Nat} {l : List Nat} (h : l.Perm (List.range n)) :
    l.Nodup ∧ ∀ r ∈ l, r < n :=
  ⟨h.nodup_iff.2 List.nodup_range, fun r hr => List.mem_range.1 (h.mem_iff.1 hr)⟩

/-- A list of `n` distinct numbers below `n` is a permutation of `0 .. n-1`. -/
theorem perm_range_of_nodup {n : Nat} {l : List Nat} (hl : l.length = n) (hd : l.Nodup)
    (hb : ∀ r ∈ l, r < n) : l.Perm (List.range n) := by
  apply List.Subperm.perm_of_length_le
  · exact hd.subperm (fun r hr => List.mem_range.2 (hb r hr))
  · simp [hl]

/-- `Touch` keeps the ranks a permutation (R296, R297). -/
theorem touchWay_ranks {n : Nat} {ways : CacheSet} {w : Nat} (hw : w < ways.length)
    (hl : ways.length = n) (hr : (ways.map (·.rank)).Perm (List.range n)) :
    ((touchWay ways w).map (·.rank)).Perm (List.range n) := by
  obtain ⟨hd, hb⟩ := ranks_range hr
  have hlt : ∀ i (hi : i < ways.length), ways[i].rank < n := fun i hi =>
    hb _ (List.mem_map.2 ⟨_, List.getElem_mem hi, rfl⟩)
  have hinj : ∀ i j (hi : i < ways.length) (hj : j < ways.length), ways[i].rank = ways[j].rank →
      i = j := by
    intro i j hi hj e
    have := hd.getElem_inj_iff (i := i) (hi := by simpa using hi) (j := j) (hj := by simpa using hj)
    simpa using this.1 (by simpa using e)
  apply perm_range_of_nodup (by simpa using hl)
  · rw [List.nodup_iff_injective_getElem]
    rintro ⟨i, hi⟩ ⟨j, hj⟩ e
    simp only [List.length_map, touchWay_length] at hi hj
    simp only [List.getElem_map] at e
    rw [touchWay_getElem hw i hi, touchWay_getElem hw j hj] at e
    have h1 := hinj i j hi hj
    have h2 := hinj i w hi hw
    have h3 := hinj j w hj hw
    simp only at e
    apply Fin.ext
    show i = j
    split at e <;> split at e <;> (try split at e) <;> (try split at e) <;> omega
  · intro r hr
    obtain ⟨b, hb', rfl⟩ := List.mem_map.1 hr
    obtain ⟨i, hi, rfl⟩ := List.getElem_of_mem hb'
    simp only [touchWay_length] at hi
    rw [touchWay_getElem hw i hi]
    have h1 := hlt i hi
    have h2 := hlt w hw
    show (if i = w then 0 else _) < n
    split
    · omega
    · split <;> omega

/-- Tags valid in two ways, as a property of the tags and valid bits alone. -/
theorem pairwise_tags_iff (ways : CacheSet) :
    ways.Pairwise (fun a b => a.valid = true → b.valid = true → a.tag ≠ b.tag) ↔
      (ways.map fun b => (b.valid, b.tag)).Pairwise
        (fun a b => a.1 = true → b.1 = true → a.2 ≠ b.2) := by
  rw [List.pairwise_map]

/-- `Touch` keeps the invariant of a set. -/
theorem SetInv.touch {n : Nat} {ways : CacheSet} {w : Nat} (h : SetInv n ways) (hw : w < ways.length) :
    SetInv n (touchWay ways w) := by
  obtain ⟨hl, hr, ht⟩ := h
  refine ⟨by simpa using hl, touchWay_ranks hw hl hr, ?_⟩
  rw [pairwise_tags_iff, touchWay_map _ (fun _ _ => rfl) hw, ← pairwise_tags_iff]
  exact ht

/-- In a set whose tags are valid once, the hit is the way that holds the tag. -/
theorem findWay_of_valid {n : Nat} {ways : CacheSet} (h : SetInv n ways) {w : Nat}
    (hw : w < ways.length) (hv : (blockAt ways w).valid = true) :
    findWay ways (blockAt ways w).tag = some w := by
  obtain ⟨-, -, ht⟩ := h
  rw [blockAt_eq hw] at hv ⊢
  apply List.findIdx?_eq_some_iff_getElem.2
  refine ⟨hw, by simp [hv], ?_⟩
  intro j hj hp
  simp only [Bool.and_eq_true, beq_iff_eq] at hp
  exact List.pairwise_iff_getElem.1 ht j w (by omega) hw hj hp.1 hv hp.2

/-! ### `Victim` (R298) -/

/-- Under the invariant there is always a victim: an invalid way, or the least recently used. -/
theorem victimWay_of_inv {n : Nat} {ways : CacheSet} (h : SetInv n ways) (hn : 1 ≤ n) :
    ∃ w, victimWay ways n = .next w ∧ w < ways.length ∧
      ((blockAt ways w).valid = false ∨
        ((∀ b ∈ ways, b.valid = true) ∧ (blockAt ways w).rank = n - 1)) := by
  obtain ⟨hl, hr, -⟩ := h
  unfold victimWay
  split
  · next w hw =>
    obtain ⟨hlt, hp, -⟩ := List.findIdx?_eq_some_iff_getElem.1 hw
    refine ⟨w, rfl, hlt, .inl ?_⟩
    rw [blockAt_eq hlt]; simpa using hp
  · next hnone =>
    have hall : ∀ b ∈ ways, b.valid = true := by
      simpa [List.findIdx?_eq_none_iff] using hnone
    split
    · next w hw =>
      obtain ⟨hlt, hp, -⟩ := List.findIdx?_eq_some_iff_getElem.1 hw
      refine ⟨w, rfl, hlt, .inr ⟨hall, ?_⟩⟩
      rw [blockAt_eq hlt]; simpa using hp
    · next hno =>
      exfalso
      have hmem : n - 1 ∈ ways.map (·.rank) := hr.mem_iff.2 (List.mem_range.2 (by omega))
      obtain ⟨b, hb, e⟩ := List.mem_map.1 hmem
      have := List.findIdx?_eq_none_iff.1 hno b hb
      simp [e] at this

/-! ### Changing one way -/

/-- A block that keeps its rank, and whose tag (if it is valid) no other valid way has, may replace the
block of a way. -/
theorem SetInv.set {n : Nat} {ways : CacheSet} {w : Nat} {b : CacheBlock} (h : SetInv n ways)
    (hw : w < ways.length) (hr : b.rank = ways[w].rank)
    (ht : b.valid = true → ∀ i (hi : i < ways.length), i ≠ w → ways[i].valid = true →
      ways[i].tag ≠ b.tag) : SetInv n (ways.set w b) := by
  obtain ⟨hl, hp, hpair⟩ := h
  refine ⟨by simpa using hl, ?_, ?_⟩
  · have : (ways.set w b).map (·.rank) = ways.map (·.rank) := by
      apply List.ext_getElem (by simp)
      intro i h1 h2
      simp only [List.getElem_map, List.getElem_set]
      split
      · next e => subst e; exact hr
      · rfl
    rw [this]; exact hp
  · rw [List.pairwise_iff_getElem] at hpair ⊢
    intro i j hi hj hij
    simp only [List.length_set] at hi hj
    simp only [List.getElem_set]
    split
    · next e =>
      subst e
      rw [if_neg (by omega)]
      intro hv hv' e
      exact ht hv j hj (by omega) hv' e.symm
    · split
      · next e =>
        subst e
        intro hv hv' e
        exact ht hv' i hi (by omega) hv e
      · exact hpair i j hi hj hij

end Sys2Proof.Machine
end

