-- ==== Sys2Proof/Laws/Encoding.lean ====
section
/-! SUPPORT. The fields of a word built by an encoding format (30 R92, R93). -/

namespace Sys2Proof

theorem toNat_append_eq {n m : Nat} (x : BitVec n) (y : BitVec m) :
    (x ++ y).toNat = x.toNat * 2 ^ m + y.toNat := by
  rw [BitVec.toNat_append, ← Nat.shiftLeft_add_eq_or_of_lt y.isLt, Nat.shiftLeft_eq]

theorem rWord_toNat (rs rt rd : Reg) (shamt : BitVec 5) (funct : BitVec 6) :
    (rWord rs rt rd shamt funct).toNat =
      rs.toNat * 2 ^ 21 + rt.toNat * 2 ^ 16 + rd.toNat * 2 ^ 11 + shamt.toNat * 2 ^ 6 + funct.toNat := by
  unfold rWord
  simp only [toNat_append_eq]
  simp
  omega

theorem iWord_toNat (op : BitVec 6) (rs rt : Reg) (imm : BitVec 16) :
    (iWord op rs rt imm).toNat =
      op.toNat * 2 ^ 26 + rs.toNat * 2 ^ 21 + rt.toNat * 2 ^ 16 + imm.toNat := by
  unfold iWord
  simp only [toNat_append_eq]
  omega

theorem jWord_toNat (op : BitVec 6) (target : BitVec 26) :
    (jWord op target).toNat = op.toNat * 2 ^ 26 + target.toNat := by
  unfold jWord
  simp only [toNat_append_eq]

/-- A field as a number. -/
theorem extract_toNat (w : Word) (i n : Nat) : (w.extractLsb' i n).toNat = w.toNat / 2 ^ i % 2 ^ n := by
  rw [BitVec.extractLsb'_toNat, Nat.shiftRight_eq_div_pow]

section Fields
variable (op : BitVec 6) (rs rt rd : Reg) (shamt : BitVec 5) (funct : BitVec 6) (imm : BitVec 16)
  (target : BitVec 26)

@[simp] theorem opField_rWord : opField (rWord rs rt rd shamt funct) = 0 := by
  apply BitVec.eq_of_toNat_eq; rw [opField, extract_toNat, rWord_toNat]; simp; omega

@[simp] theorem rsField_rWord : rsField (rWord rs rt rd shamt funct) = rs := by
  apply BitVec.eq_of_toNat_eq; rw [rsField, extract_toNat, rWord_toNat]; omega

@[simp] theorem rtField_rWord : rtField (rWord rs rt rd shamt funct) = rt := by
  apply BitVec.eq_of_toNat_eq; rw [rtField, extract_toNat, rWord_toNat]; omega

@[simp] theorem rdField_rWord : rdField (rWord rs rt rd shamt funct) = rd := by
  apply BitVec.eq_of_toNat_eq; rw [rdField, extract_toNat, rWord_toNat]; omega

@[simp] theorem shamtField_rWord : shamtField (rWord rs rt rd shamt funct) = shamt := by
  apply BitVec.eq_of_toNat_eq; rw [shamtField, extract_toNat, rWord_toNat]; omega

@[simp] theorem functField_rWord : functField (rWord rs rt rd shamt funct) = funct := by
  apply BitVec.eq_of_toNat_eq; rw [functField, extract_toNat, rWord_toNat]; omega

@[simp] theorem opField_iWord : opField (iWord op rs rt imm) = op := by
  apply BitVec.eq_of_toNat_eq; rw [opField, extract_toNat, iWord_toNat]; omega

@[simp] theorem rsField_iWord : rsField (iWord op rs rt imm) = rs := by
  apply BitVec.eq_of_toNat_eq; rw [rsField, extract_toNat, iWord_toNat]; omega

@[simp] theorem rtField_iWord : rtField (iWord op rs rt imm) = rt := by
  apply BitVec.eq_of_toNat_eq; rw [rtField, extract_toNat, iWord_toNat]; omega

@[simp] theorem immField_iWord : immField (iWord op rs rt imm) = imm := by
  apply BitVec.eq_of_toNat_eq; rw [immField, extract_toNat, iWord_toNat]; omega

@[simp] theorem opField_jWord : opField (jWord op target) = op := by
  apply BitVec.eq_of_toNat_eq; rw [opField, extract_toNat, jWord_toNat]; omega

@[simp] theorem targetField_jWord : targetField (jWord op target) = target := by
  apply BitVec.eq_of_toNat_eq; rw [targetField, extract_toNat, jWord_toNat]; omega

end Fields

/-! ### A word against a row of the opcode table, by its fields -/

theorem and_specialMask (w : Word) : w &&& 0xFC00003F#32 = opField w ++ 0#20 ++ functField w := by
  apply BitVec.eq_of_getLsbD_eq
  intro i hi
  unfold opField functField
  change _ = BitVec.getLsbD (w := 6 + 20 + 6) _ i
  simp only [BitVec.getLsbD_append]
  interval_cases i <;> simp

theorem and_regimmMask (w : Word) :
    w &&& 0xFC1F0000#32 = opField w ++ 0#5 ++ rtField w ++ 0#16 := by
  apply BitVec.eq_of_getLsbD_eq
  intro i hi
  unfold opField rtField
  change _ = BitVec.getLsbD (w := 6 + 5 + 5 + 16) _ i
  simp only [BitVec.getLsbD_append]
  interval_cases i <;> simp

theorem and_primaryMask (w : Word) : w &&& 0xFC000000#32 = opField w ++ 0#26 := by
  apply BitVec.eq_of_getLsbD_eq
  intro i hi
  unfold opField
  change _ = BitVec.getLsbD (w := 6 + 26) _ i
  simp only [BitVec.getLsbD_append]
  interval_cases i <;> simp

/-- 30 R96: `op` = 0 and `funct`. -/
theorem admits_specialRow (n : String) {f : Nat} (hf : f < 64) (w : Word) :
    (specialRow n f).admits w = true ↔ (opField w).toNat = 0 ∧ (functField w).toNat = f := by
  have ho := (opField w).isLt
  have hf' := (functField w).isLt
  rw [OpcodeRow.admits, specialRow, beq_iff_eq, and_specialMask, ← BitVec.toNat_inj, toNat_append_eq,
    toNat_append_eq, BitVec.toNat_ofNat]
  simp only [BitVec.toNat_ofNat]
  omega

/-- 30 R97: `op` = 1 and `rtsel`. -/
theorem admits_regimmRow (n : String) {r : Nat} (hr : r < 32) (w : Word) :
    (regimmRow n r).admits w = true ↔ (opField w).toNat = 1 ∧ (rtField w).toNat = r := by
  have ho := (opField w).isLt
  have hf' := (rtField w).isLt
  rw [OpcodeRow.admits, regimmRow, beq_iff_eq, and_regimmMask, ← BitVec.toNat_inj, toNat_append_eq,
    toNat_append_eq, toNat_append_eq, BitVec.toNat_ofNat]
  simp only [BitVec.toNat_ofNat]
  omega

/-- 30 R95: `op` alone. -/
theorem admits_primaryRow (n : String) {o : Nat} (ho : o < 64) (w : Word) :
    (primaryRow n o).admits w = true ↔ (opField w).toNat = o := by
  have ho' := (opField w).isLt
  rw [OpcodeRow.admits, primaryRow, beq_iff_eq, and_primaryMask, ← BitVec.toNat_inj, toNat_append_eq,
    BitVec.toNat_ofNat]
  simp only [BitVec.toNat_ofNat]
  omega

end Sys2Proof
end

