-- ==== Sys2Proof/Laws/Table.lean ====
section
/-! SUPPORT. Reading a table after a write: the written entry, the others, and a filled table. -/

namespace Sys2Proof

@[simp] theorem Table.get_set_self {α : Type} {n : Nat} (t : Table α n) (i : Fin n) (v : α) :
    (t.set i v).get i = v := by
  simp [Table.get, Table.set]

theorem Table.get_set_of_ne {α : Type} {n : Nat} (t : Table α n) {i j : Fin n} (v : α) (h : i ≠ j) :
    (t.set i v).get j = t.get j := by
  have : i.val ≠ j.val := fun e => h (Fin.ext e)
  simp [Table.get, Table.set, this]

theorem Table.get_set {α : Type} {n : Nat} (t : Table α n) (i j : Fin n) (v : α) :
    (t.set i v).get j = if i = j then v else t.get j := by
  split
  · next h => subst h; simp
  · next h => exact t.get_set_of_ne v h

@[simp] theorem Table.get_fill {α : Type} (n : Nat) (v : α) (i : Fin n) :
    (Table.fill n v).get i = v := by
  simp [Table.get, Table.fill]

/-- Two tables with the same entries are the same. -/
theorem Table.ext_get {α : Type} {n : Nat} {t u : Table α n} (h : ∀ i, t.get i = u.get i) : t = u := by
  cases t with | mk a ha => cases u with | mk b hb =>
    congr 1
    apply List.ext_getElem (by rw [ha, hb])
    intro i h1 h2
    exact h ⟨i, by omega⟩

@[simp] theorem Table.set_get_self {α : Type} {n : Nat} (t : Table α n) (i : Fin n) :
    t.set i (t.get i) = t := by
  apply Table.ext_get
  intro j
  rw [Table.get_set]
  split
  · next h => rw [h]
  · rfl

end Sys2Proof
end

