-- ==== Sys2Proof/Laws/State.lean ====
section
/-! SUPPORT. What each named update of the state leaves in each field. -/

namespace Sys2Proof.Machine

/-! ### Plain updates -/

/-! #### `tickMdu` -/

@[simp] theorem State.tickMdu_cfg (s : State) : (s.tickMdu).cfg = s.cfg := rfl
@[simp] theorem State.tickMdu_regs (s : State) : (s.tickMdu).regs = s.regs := rfl
@[simp] theorem State.tickMdu_hi (s : State) : (s.tickMdu).hi = s.hi := rfl
@[simp] theorem State.tickMdu_lo (s : State) : (s.tickMdu).lo = s.lo := rfl
@[simp] theorem State.tickMdu_pc (s : State) : (s.tickMdu).pc = s.pc := rfl
@[simp] theorem State.tickMdu_de (s : State) : (s.tickMdu).de = s.de := rfl
@[simp] theorem State.tickMdu_ex (s : State) : (s.tickMdu).ex = s.ex := rfl
@[simp] theorem State.tickMdu_me (s : State) : (s.tickMdu).me = s.me := rfl
@[simp] theorem State.tickMdu_wb (s : State) : (s.tickMdu).wb = s.wb := rfl
@[simp] theorem State.tickMdu_recov (s : State) : (s.tickMdu).recov = s.recov := rfl
@[simp] theorem State.tickMdu_mduBusy (s : State) : (s.tickMdu).mduBusy = s.mduBusy - 1 := rfl
@[simp] theorem State.tickMdu_ghr (s : State) : (s.tickMdu).ghr = s.ghr := rfl
@[simp] theorem State.tickMdu_pht (s : State) : (s.tickMdu).pht = s.pht := rfl
@[simp] theorem State.tickMdu_btb (s : State) : (s.tickMdu).btb = s.btb := rfl
@[simp] theorem State.tickMdu_run (s : State) : (s.tickMdu).run = s.run := rfl
@[simp] theorem State.tickMdu_statFetched (s : State) :
    (s.tickMdu).statFetched = s.statFetched := rfl
@[simp] theorem State.tickMdu_statRetired (s : State) :
    (s.tickMdu).statRetired = s.statRetired := rfl
@[simp] theorem State.tickMdu_statSquash (s : State) : (s.tickMdu).statSquash = s.statSquash := rfl
@[simp] theorem State.tickMdu_hier (s : State) : (s.tickMdu).hier = s.hier := rfl
@[simp] theorem State.tickMdu_stopped (s : State) : (s.tickMdu).stopped = s.stopped := rfl

/-! #### `writeHiLo` -/

@[simp] theorem State.writeHiLo_cfg (s : State) (a b : Word) (n : Nat) :
    (s.writeHiLo a b n).cfg = s.cfg := rfl
@[simp] theorem State.writeHiLo_regs (s : State) (a b : Word) (n : Nat) :
    (s.writeHiLo a b n).regs = s.regs := rfl
@[simp] theorem State.writeHiLo_hi (s : State) (a b : Word) (n : Nat) :
    (s.writeHiLo a b n).hi = a := rfl
@[simp] theorem State.writeHiLo_lo (s : State) (a b : Word) (n : Nat) :
    (s.writeHiLo a b n).lo = b := rfl
@[simp] theorem State.writeHiLo_pc (s : State) (a b : Word) (n : Nat) :
    (s.writeHiLo a b n).pc = s.pc := rfl
@[simp] theorem State.writeHiLo_de (s : State) (a b : Word) (n : Nat) :
    (s.writeHiLo a b n).de = s.de := rfl
@[simp] theorem State.writeHiLo_ex (s : State) (a b : Word) (n : Nat) :
    (s.writeHiLo a b n).ex = s.ex := rfl
@[simp] theorem State.writeHiLo_me (s : State) (a b : Word) (n : Nat) :
    (s.writeHiLo a b n).me = s.me := rfl
@[simp] theorem State.writeHiLo_wb (s : State) (a b : Word) (n : Nat) :
    (s.writeHiLo a b n).wb = s.wb := rfl
@[simp] theorem State.writeHiLo_recov (s : State) (a b : Word) (n : Nat) :
    (s.writeHiLo a b n).recov = s.recov := rfl
@[simp] theorem State.writeHiLo_mduBusy (s : State) (a b : Word) (n : Nat) :
    (s.writeHiLo a b n).mduBusy = n := rfl
@[simp] theorem State.writeHiLo_ghr (s : State) (a b : Word) (n : Nat) :
    (s.writeHiLo a b n).ghr = s.ghr := rfl
@[simp] theorem State.writeHiLo_pht (s : State) (a b : Word) (n : Nat) :
    (s.writeHiLo a b n).pht = s.pht := rfl
@[simp] theorem State.writeHiLo_btb (s : State) (a b : Word) (n : Nat) :
    (s.writeHiLo a b n).btb = s.btb := rfl
@[simp] theorem State.writeHiLo_run (s : State) (a b : Word) (n : Nat) :
    (s.writeHiLo a b n).run = s.run := rfl
@[simp] theorem State.writeHiLo_statFetched (s : State) (a b : Word) (n : Nat) :
    (s.writeHiLo a b n).statFetched = s.statFetched := rfl
@[simp] theorem State.writeHiLo_statRetired (s : State) (a b : Word) (n : Nat) :
    (s.writeHiLo a b n).statRetired = s.statRetired := rfl
@[simp] theorem State.writeHiLo_statSquash (s : State) (a b : Word) (n : Nat) :
    (s.writeHiLo a b n).statSquash = s.statSquash := rfl
@[simp] theorem State.writeHiLo_hier (s : State) (a b : Word) (n : Nat) :
    (s.writeHiLo a b n).hier = s.hier := rfl
@[simp] theorem State.writeHiLo_stopped (s : State) (a b : Word) (n : Nat) :
    (s.writeHiLo a b n).stopped = s.stopped := rfl

/-! #### `writeHi` -/

@[simp] theorem State.writeHi_cfg (s : State) (v : Word) : (s.writeHi v).cfg = s.cfg := rfl
@[simp] theorem State.writeHi_regs (s : State) (v : Word) : (s.writeHi v).regs = s.regs := rfl
@[simp] theorem State.writeHi_hi (s : State) (v : Word) : (s.writeHi v).hi = v := rfl
@[simp] theorem State.writeHi_lo (s : State) (v : Word) : (s.writeHi v).lo = s.lo := rfl
@[simp] theorem State.writeHi_pc (s : State) (v : Word) : (s.writeHi v).pc = s.pc := rfl
@[simp] theorem State.writeHi_de (s : State) (v : Word) : (s.writeHi v).de = s.de := rfl
@[simp] theorem State.writeHi_ex (s : State) (v : Word) : (s.writeHi v).ex = s.ex := rfl
@[simp] theorem State.writeHi_me (s : State) (v : Word) : (s.writeHi v).me = s.me := rfl
@[simp] theorem State.writeHi_wb (s : State) (v : Word) : (s.writeHi v).wb = s.wb := rfl
@[simp] theorem State.writeHi_recov (s : State) (v : Word) : (s.writeHi v).recov = s.recov := rfl
@[simp] theorem State.writeHi_mduBusy (s : State) (v : Word) :
    (s.writeHi v).mduBusy = s.mduBusy := rfl
@[simp] theorem State.writeHi_ghr (s : State) (v : Word) : (s.writeHi v).ghr = s.ghr := rfl
@[simp] theorem State.writeHi_pht (s : State) (v : Word) : (s.writeHi v).pht = s.pht := rfl
@[simp] theorem State.writeHi_btb (s : State) (v : Word) : (s.writeHi v).btb = s.btb := rfl
@[simp] theorem State.writeHi_run (s : State) (v : Word) : (s.writeHi v).run = s.run := rfl
@[simp] theorem State.writeHi_statFetched (s : State) (v : Word) :
    (s.writeHi v).statFetched = s.statFetched := rfl
@[simp] theorem State.writeHi_statRetired (s : State) (v : Word) :
    (s.writeHi v).statRetired = s.statRetired := rfl
@[simp] theorem State.writeHi_statSquash (s : State) (v : Word) :
    (s.writeHi v).statSquash = s.statSquash := rfl
@[simp] theorem State.writeHi_hier (s : State) (v : Word) : (s.writeHi v).hier = s.hier := rfl
@[simp] theorem State.writeHi_stopped (s : State) (v : Word) :
    (s.writeHi v).stopped = s.stopped := rfl

/-! #### `writeLo` -/

@[simp] theorem State.writeLo_cfg (s : State) (v : Word) : (s.writeLo v).cfg = s.cfg := rfl
@[simp] theorem State.writeLo_regs (s : State) (v : Word) : (s.writeLo v).regs = s.regs := rfl
@[simp] theorem State.writeLo_hi (s : State) (v : Word) : (s.writeLo v).hi = s.hi := rfl
@[simp] theorem State.writeLo_lo (s : State) (v : Word) : (s.writeLo v).lo = v := rfl
@[simp] theorem State.writeLo_pc (s : State) (v : Word) : (s.writeLo v).pc = s.pc := rfl
@[simp] theorem State.writeLo_de (s : State) (v : Word) : (s.writeLo v).de = s.de := rfl
@[simp] theorem State.writeLo_ex (s : State) (v : Word) : (s.writeLo v).ex = s.ex := rfl
@[simp] theorem State.writeLo_me (s : State) (v : Word) : (s.writeLo v).me = s.me := rfl
@[simp] theorem State.writeLo_wb (s : State) (v : Word) : (s.writeLo v).wb = s.wb := rfl
@[simp] theorem State.writeLo_recov (s : State) (v : Word) : (s.writeLo v).recov = s.recov := rfl
@[simp] theorem State.writeLo_mduBusy (s : State) (v : Word) :
    (s.writeLo v).mduBusy = s.mduBusy := rfl
@[simp] theorem State.writeLo_ghr (s : State) (v : Word) : (s.writeLo v).ghr = s.ghr := rfl
@[simp] theorem State.writeLo_pht (s : State) (v : Word) : (s.writeLo v).pht = s.pht := rfl
@[simp] theorem State.writeLo_btb (s : State) (v : Word) : (s.writeLo v).btb = s.btb := rfl
@[simp] theorem State.writeLo_run (s : State) (v : Word) : (s.writeLo v).run = s.run := rfl
@[simp] theorem State.writeLo_statFetched (s : State) (v : Word) :
    (s.writeLo v).statFetched = s.statFetched := rfl
@[simp] theorem State.writeLo_statRetired (s : State) (v : Word) :
    (s.writeLo v).statRetired = s.statRetired := rfl
@[simp] theorem State.writeLo_statSquash (s : State) (v : Word) :
    (s.writeLo v).statSquash = s.statSquash := rfl
@[simp] theorem State.writeLo_hier (s : State) (v : Word) : (s.writeLo v).hier = s.hier := rfl
@[simp] theorem State.writeLo_stopped (s : State) (v : Word) :
    (s.writeLo v).stopped = s.stopped := rfl

/-! #### `updateDirection` -/

@[simp] theorem State.updateDirection_cfg (s : State) (a : Word) (b : Bool) :
    (s.updateDirection a b).cfg = s.cfg := rfl
@[simp] theorem State.updateDirection_regs (s : State) (a : Word) (b : Bool) :
    (s.updateDirection a b).regs = s.regs := rfl
@[simp] theorem State.updateDirection_hi (s : State) (a : Word) (b : Bool) :
    (s.updateDirection a b).hi = s.hi := rfl
@[simp] theorem State.updateDirection_lo (s : State) (a : Word) (b : Bool) :
    (s.updateDirection a b).lo = s.lo := rfl
@[simp] theorem State.updateDirection_pc (s : State) (a : Word) (b : Bool) :
    (s.updateDirection a b).pc = s.pc := rfl
@[simp] theorem State.updateDirection_de (s : State) (a : Word) (b : Bool) :
    (s.updateDirection a b).de = s.de := rfl
@[simp] theorem State.updateDirection_ex (s : State) (a : Word) (b : Bool) :
    (s.updateDirection a b).ex = s.ex := rfl
@[simp] theorem State.updateDirection_me (s : State) (a : Word) (b : Bool) :
    (s.updateDirection a b).me = s.me := rfl
@[simp] theorem State.updateDirection_wb (s : State) (a : Word) (b : Bool) :
    (s.updateDirection a b).wb = s.wb := rfl
@[simp] theorem State.updateDirection_recov (s : State) (a : Word) (b : Bool) :
    (s.updateDirection a b).recov = s.recov := rfl
@[simp] theorem State.updateDirection_mduBusy (s : State) (a : Word) (b : Bool) :
    (s.updateDirection a b).mduBusy = s.mduBusy := rfl
@[simp] theorem State.updateDirection_ghr (s : State) (a : Word) (b : Bool) :
    (s.updateDirection a b).ghr = shiftHistory s.ghr b := rfl
@[simp] theorem State.updateDirection_pht (s : State) (a : Word) (b : Bool) :
    (s.updateDirection a b).pht = s.pht.set (patternIndex s.ghr a).toFin (saturate (s.counter (patternIndex s.ghr a)) b) := rfl
@[simp] theorem State.updateDirection_btb (s : State) (a : Word) (b : Bool) :
    (s.updateDirection a b).btb = s.btb := rfl
@[simp] theorem State.updateDirection_run (s : State) (a : Word) (b : Bool) :
    (s.updateDirection a b).run = s.run := rfl
@[simp] theorem State.updateDirection_statFetched (s : State) (a : Word) (b : Bool) :
    (s.updateDirection a b).statFetched = s.statFetched := rfl
@[simp] theorem State.updateDirection_statRetired (s : State) (a : Word) (b : Bool) :
    (s.updateDirection a b).statRetired = s.statRetired := rfl
@[simp] theorem State.updateDirection_statSquash (s : State) (a : Word) (b : Bool) :
    (s.updateDirection a b).statSquash = s.statSquash := rfl
@[simp] theorem State.updateDirection_hier (s : State) (a : Word) (b : Bool) :
    (s.updateDirection a b).hier = s.hier := rfl
@[simp] theorem State.updateDirection_stopped (s : State) (a : Word) (b : Bool) :
    (s.updateDirection a b).stopped = s.stopped := rfl

/-! #### `refreshBtb` -/

@[simp] theorem State.refreshBtb_cfg (s : State) (a b : Word) (c : Bool) :
    (s.refreshBtb a b c).cfg = s.cfg := rfl
@[simp] theorem State.refreshBtb_regs (s : State) (a b : Word) (c : Bool) :
    (s.refreshBtb a b c).regs = s.regs := rfl
@[simp] theorem State.refreshBtb_hi (s : State) (a b : Word) (c : Bool) :
    (s.refreshBtb a b c).hi = s.hi := rfl
@[simp] theorem State.refreshBtb_lo (s : State) (a b : Word) (c : Bool) :
    (s.refreshBtb a b c).lo = s.lo := rfl
@[simp] theorem State.refreshBtb_pc (s : State) (a b : Word) (c : Bool) :
    (s.refreshBtb a b c).pc = s.pc := rfl
@[simp] theorem State.refreshBtb_de (s : State) (a b : Word) (c : Bool) :
    (s.refreshBtb a b c).de = s.de := rfl
@[simp] theorem State.refreshBtb_ex (s : State) (a b : Word) (c : Bool) :
    (s.refreshBtb a b c).ex = s.ex := rfl
@[simp] theorem State.refreshBtb_me (s : State) (a b : Word) (c : Bool) :
    (s.refreshBtb a b c).me = s.me := rfl
@[simp] theorem State.refreshBtb_wb (s : State) (a b : Word) (c : Bool) :
    (s.refreshBtb a b c).wb = s.wb := rfl
@[simp] theorem State.refreshBtb_recov (s : State) (a b : Word) (c : Bool) :
    (s.refreshBtb a b c).recov = s.recov := rfl
@[simp] theorem State.refreshBtb_mduBusy (s : State) (a b : Word) (c : Bool) :
    (s.refreshBtb a b c).mduBusy = s.mduBusy := rfl
@[simp] theorem State.refreshBtb_ghr (s : State) (a b : Word) (c : Bool) :
    (s.refreshBtb a b c).ghr = s.ghr := rfl
@[simp] theorem State.refreshBtb_pht (s : State) (a b : Word) (c : Bool) :
    (s.refreshBtb a b c).pht = s.pht := rfl
@[simp] theorem State.refreshBtb_btb (s : State) (a b : Word) (c : Bool) :
    (s.refreshBtb a b c).btb = s.btb.set (btbIndex a).toFin ⟨true, a, b, c⟩ := rfl
@[simp] theorem State.refreshBtb_run (s : State) (a b : Word) (c : Bool) :
    (s.refreshBtb a b c).run = s.run := rfl
@[simp] theorem State.refreshBtb_statFetched (s : State) (a b : Word) (c : Bool) :
    (s.refreshBtb a b c).statFetched = s.statFetched := rfl
@[simp] theorem State.refreshBtb_statRetired (s : State) (a b : Word) (c : Bool) :
    (s.refreshBtb a b c).statRetired = s.statRetired := rfl
@[simp] theorem State.refreshBtb_statSquash (s : State) (a b : Word) (c : Bool) :
    (s.refreshBtb a b c).statSquash = s.statSquash := rfl
@[simp] theorem State.refreshBtb_hier (s : State) (a b : Word) (c : Bool) :
    (s.refreshBtb a b c).hier = s.hier := rfl
@[simp] theorem State.refreshBtb_stopped (s : State) (a b : Word) (c : Bool) :
    (s.refreshBtb a b c).stopped = s.stopped := rfl

/-! #### `moveToMem` -/

@[simp] theorem State.moveToMem_cfg (s : State) (op : Op) : (s.moveToMem op).cfg = s.cfg := rfl
@[simp] theorem State.moveToMem_regs (s : State) (op : Op) : (s.moveToMem op).regs = s.regs := rfl
@[simp] theorem State.moveToMem_hi (s : State) (op : Op) : (s.moveToMem op).hi = s.hi := rfl
@[simp] theorem State.moveToMem_lo (s : State) (op : Op) : (s.moveToMem op).lo = s.lo := rfl
@[simp] theorem State.moveToMem_pc (s : State) (op : Op) : (s.moveToMem op).pc = s.pc := rfl
@[simp] theorem State.moveToMem_de (s : State) (op : Op) : (s.moveToMem op).de = s.de := rfl
@[simp] theorem State.moveToMem_ex (s : State) (op : Op) : (s.moveToMem op).ex = none := rfl
@[simp] theorem State.moveToMem_me (s : State) (op : Op) : (s.moveToMem op).me = some op := rfl
@[simp] theorem State.moveToMem_wb (s : State) (op : Op) : (s.moveToMem op).wb = s.wb := rfl
@[simp] theorem State.moveToMem_recov (s : State) (op : Op) :
    (s.moveToMem op).recov = s.recov := rfl
@[simp] theorem State.moveToMem_mduBusy (s : State) (op : Op) :
    (s.moveToMem op).mduBusy = s.mduBusy := rfl
@[simp] theorem State.moveToMem_ghr (s : State) (op : Op) : (s.moveToMem op).ghr = s.ghr := rfl
@[simp] theorem State.moveToMem_pht (s : State) (op : Op) : (s.moveToMem op).pht = s.pht := rfl
@[simp] theorem State.moveToMem_btb (s : State) (op : Op) : (s.moveToMem op).btb = s.btb := rfl
@[simp] theorem State.moveToMem_run (s : State) (op : Op) : (s.moveToMem op).run = s.run := rfl
@[simp] theorem State.moveToMem_statFetched (s : State) (op : Op) :
    (s.moveToMem op).statFetched = s.statFetched := rfl
@[simp] theorem State.moveToMem_statRetired (s : State) (op : Op) :
    (s.moveToMem op).statRetired = s.statRetired := rfl
@[simp] theorem State.moveToMem_statSquash (s : State) (op : Op) :
    (s.moveToMem op).statSquash = s.statSquash := rfl
@[simp] theorem State.moveToMem_hier (s : State) (op : Op) : (s.moveToMem op).hier = s.hier := rfl
@[simp] theorem State.moveToMem_stopped (s : State) (op : Op) :
    (s.moveToMem op).stopped = s.stopped := rfl

/-! #### `moveToWb` -/

@[simp] theorem State.moveToWb_cfg (s : State) (op : Op) : (s.moveToWb op).cfg = s.cfg := rfl
@[simp] theorem State.moveToWb_regs (s : State) (op : Op) : (s.moveToWb op).regs = s.regs := rfl
@[simp] theorem State.moveToWb_hi (s : State) (op : Op) : (s.moveToWb op).hi = s.hi := rfl
@[simp] theorem State.moveToWb_lo (s : State) (op : Op) : (s.moveToWb op).lo = s.lo := rfl
@[simp] theorem State.moveToWb_pc (s : State) (op : Op) : (s.moveToWb op).pc = s.pc := rfl
@[simp] theorem State.moveToWb_de (s : State) (op : Op) : (s.moveToWb op).de = s.de := rfl
@[simp] theorem State.moveToWb_ex (s : State) (op : Op) : (s.moveToWb op).ex = s.ex := rfl
@[simp] theorem State.moveToWb_me (s : State) (op : Op) : (s.moveToWb op).me = none := rfl
@[simp] theorem State.moveToWb_wb (s : State) (op : Op) : (s.moveToWb op).wb = some op := rfl
@[simp] theorem State.moveToWb_recov (s : State) (op : Op) : (s.moveToWb op).recov = s.recov := rfl
@[simp] theorem State.moveToWb_mduBusy (s : State) (op : Op) :
    (s.moveToWb op).mduBusy = s.mduBusy := rfl
@[simp] theorem State.moveToWb_ghr (s : State) (op : Op) : (s.moveToWb op).ghr = s.ghr := rfl
@[simp] theorem State.moveToWb_pht (s : State) (op : Op) : (s.moveToWb op).pht = s.pht := rfl
@[simp] theorem State.moveToWb_btb (s : State) (op : Op) : (s.moveToWb op).btb = s.btb := rfl
@[simp] theorem State.moveToWb_run (s : State) (op : Op) : (s.moveToWb op).run = s.run := rfl
@[simp] theorem State.moveToWb_statFetched (s : State) (op : Op) :
    (s.moveToWb op).statFetched = s.statFetched := rfl
@[simp] theorem State.moveToWb_statRetired (s : State) (op : Op) :
    (s.moveToWb op).statRetired = s.statRetired := rfl
@[simp] theorem State.moveToWb_statSquash (s : State) (op : Op) :
    (s.moveToWb op).statSquash = s.statSquash := rfl
@[simp] theorem State.moveToWb_hier (s : State) (op : Op) : (s.moveToWb op).hier = s.hier := rfl
@[simp] theorem State.moveToWb_stopped (s : State) (op : Op) :
    (s.moveToWb op).stopped = s.stopped := rfl

/-! #### `setHier` -/

@[simp] theorem State.setHier_cfg (s : State) (h : Hierarchy) : (s.setHier h).cfg = s.cfg := rfl
@[simp] theorem State.setHier_regs (s : State) (h : Hierarchy) : (s.setHier h).regs = s.regs := rfl
@[simp] theorem State.setHier_hi (s : State) (h : Hierarchy) : (s.setHier h).hi = s.hi := rfl
@[simp] theorem State.setHier_lo (s : State) (h : Hierarchy) : (s.setHier h).lo = s.lo := rfl
@[simp] theorem State.setHier_pc (s : State) (h : Hierarchy) : (s.setHier h).pc = s.pc := rfl
@[simp] theorem State.setHier_de (s : State) (h : Hierarchy) : (s.setHier h).de = s.de := rfl
@[simp] theorem State.setHier_ex (s : State) (h : Hierarchy) : (s.setHier h).ex = s.ex := rfl
@[simp] theorem State.setHier_me (s : State) (h : Hierarchy) : (s.setHier h).me = s.me := rfl
@[simp] theorem State.setHier_wb (s : State) (h : Hierarchy) : (s.setHier h).wb = s.wb := rfl
@[simp] theorem State.setHier_recov (s : State) (h : Hierarchy) :
    (s.setHier h).recov = s.recov := rfl
@[simp] theorem State.setHier_mduBusy (s : State) (h : Hierarchy) :
    (s.setHier h).mduBusy = s.mduBusy := rfl
@[simp] theorem State.setHier_ghr (s : State) (h : Hierarchy) : (s.setHier h).ghr = s.ghr := rfl
@[simp] theorem State.setHier_pht (s : State) (h : Hierarchy) : (s.setHier h).pht = s.pht := rfl
@[simp] theorem State.setHier_btb (s : State) (h : Hierarchy) : (s.setHier h).btb = s.btb := rfl
@[simp] theorem State.setHier_run (s : State) (h : Hierarchy) : (s.setHier h).run = s.run := rfl
@[simp] theorem State.setHier_statFetched (s : State) (h : Hierarchy) :
    (s.setHier h).statFetched = s.statFetched := rfl
@[simp] theorem State.setHier_statRetired (s : State) (h : Hierarchy) :
    (s.setHier h).statRetired = s.statRetired := rfl
@[simp] theorem State.setHier_statSquash (s : State) (h : Hierarchy) :
    (s.setHier h).statSquash = s.statSquash := rfl
@[simp] theorem State.setHier_hier (s : State) (h : Hierarchy) : (s.setHier h).hier = h := rfl
@[simp] theorem State.setHier_stopped (s : State) (h : Hierarchy) :
    (s.setHier h).stopped = s.stopped := rfl

/-! #### `retire` -/

@[simp] theorem State.retire_cfg (s : State) : (s.retire).cfg = s.cfg := rfl
@[simp] theorem State.retire_regs (s : State) : (s.retire).regs = s.regs := rfl
@[simp] theorem State.retire_hi (s : State) : (s.retire).hi = s.hi := rfl
@[simp] theorem State.retire_lo (s : State) : (s.retire).lo = s.lo := rfl
@[simp] theorem State.retire_pc (s : State) : (s.retire).pc = s.pc := rfl
@[simp] theorem State.retire_de (s : State) : (s.retire).de = s.de := rfl
@[simp] theorem State.retire_ex (s : State) : (s.retire).ex = s.ex := rfl
@[simp] theorem State.retire_me (s : State) : (s.retire).me = s.me := rfl
@[simp] theorem State.retire_wb (s : State) : (s.retire).wb = none := rfl
@[simp] theorem State.retire_recov (s : State) : (s.retire).recov = s.recov := rfl
@[simp] theorem State.retire_mduBusy (s : State) : (s.retire).mduBusy = s.mduBusy := rfl
@[simp] theorem State.retire_ghr (s : State) : (s.retire).ghr = s.ghr := rfl
@[simp] theorem State.retire_pht (s : State) : (s.retire).pht = s.pht := rfl
@[simp] theorem State.retire_btb (s : State) : (s.retire).btb = s.btb := rfl
@[simp] theorem State.retire_run (s : State) : (s.retire).run = s.run := rfl
@[simp] theorem State.retire_statFetched (s : State) : (s.retire).statFetched = s.statFetched := rfl
@[simp] theorem State.retire_statRetired (s : State) :
    (s.retire).statRetired = s.statRetired + 1 := rfl
@[simp] theorem State.retire_statSquash (s : State) : (s.retire).statSquash = s.statSquash := rfl
@[simp] theorem State.retire_hier (s : State) : (s.retire).hier = s.hier := rfl
@[simp] theorem State.retire_stopped (s : State) : (s.retire).stopped = s.stopped := rfl

/-! #### `loadWord` -/

@[simp] theorem State.loadWord_cfg (s : State) (a v : Word) : (s.loadWord a v).cfg = s.cfg := rfl
@[simp] theorem State.loadWord_regs (s : State) (a v : Word) : (s.loadWord a v).regs = s.regs := rfl
@[simp] theorem State.loadWord_hi (s : State) (a v : Word) : (s.loadWord a v).hi = s.hi := rfl
@[simp] theorem State.loadWord_lo (s : State) (a v : Word) : (s.loadWord a v).lo = s.lo := rfl
@[simp] theorem State.loadWord_pc (s : State) (a v : Word) : (s.loadWord a v).pc = s.pc := rfl
@[simp] theorem State.loadWord_de (s : State) (a v : Word) : (s.loadWord a v).de = s.de := rfl
@[simp] theorem State.loadWord_ex (s : State) (a v : Word) : (s.loadWord a v).ex = s.ex := rfl
@[simp] theorem State.loadWord_me (s : State) (a v : Word) : (s.loadWord a v).me = s.me := rfl
@[simp] theorem State.loadWord_wb (s : State) (a v : Word) : (s.loadWord a v).wb = s.wb := rfl
@[simp] theorem State.loadWord_recov (s : State) (a v : Word) :
    (s.loadWord a v).recov = s.recov := rfl
@[simp] theorem State.loadWord_mduBusy (s : State) (a v : Word) :
    (s.loadWord a v).mduBusy = s.mduBusy := rfl
@[simp] theorem State.loadWord_ghr (s : State) (a v : Word) : (s.loadWord a v).ghr = s.ghr := rfl
@[simp] theorem State.loadWord_pht (s : State) (a v : Word) : (s.loadWord a v).pht = s.pht := rfl
@[simp] theorem State.loadWord_btb (s : State) (a v : Word) : (s.loadWord a v).btb = s.btb := rfl
@[simp] theorem State.loadWord_run (s : State) (a v : Word) : (s.loadWord a v).run = s.run := rfl
@[simp] theorem State.loadWord_statFetched (s : State) (a v : Word) :
    (s.loadWord a v).statFetched = s.statFetched := rfl
@[simp] theorem State.loadWord_statRetired (s : State) (a v : Word) :
    (s.loadWord a v).statRetired = s.statRetired := rfl
@[simp] theorem State.loadWord_statSquash (s : State) (a v : Word) :
    (s.loadWord a v).statSquash = s.statSquash := rfl
@[simp] theorem State.loadWord_hier (s : State) (a v : Word) :
    (s.loadWord a v).hier = { s.hier with store := s.hier.store.writeWord a v } := rfl
@[simp] theorem State.loadWord_stopped (s : State) (a v : Word) :
    (s.loadWord a v).stopped = s.stopped := rfl

/-! #### `start` -/

@[simp] theorem State.start_cfg (s : State) : (s.start).cfg = s.cfg := rfl
@[simp] theorem State.start_regs (s : State) : (s.start).regs = s.regs := rfl
@[simp] theorem State.start_hi (s : State) : (s.start).hi = s.hi := rfl
@[simp] theorem State.start_lo (s : State) : (s.start).lo = s.lo := rfl
@[simp] theorem State.start_pc (s : State) : (s.start).pc = s.pc := rfl
@[simp] theorem State.start_de (s : State) : (s.start).de = s.de := rfl
@[simp] theorem State.start_ex (s : State) : (s.start).ex = s.ex := rfl
@[simp] theorem State.start_me (s : State) : (s.start).me = s.me := rfl
@[simp] theorem State.start_wb (s : State) : (s.start).wb = s.wb := rfl
@[simp] theorem State.start_recov (s : State) : (s.start).recov = s.recov := rfl
@[simp] theorem State.start_mduBusy (s : State) : (s.start).mduBusy = s.mduBusy := rfl
@[simp] theorem State.start_ghr (s : State) : (s.start).ghr = s.ghr := rfl
@[simp] theorem State.start_pht (s : State) : (s.start).pht = s.pht := rfl
@[simp] theorem State.start_btb (s : State) : (s.start).btb = s.btb := rfl
@[simp] theorem State.start_run (s : State) : (s.start).run = true := rfl
@[simp] theorem State.start_statFetched (s : State) : (s.start).statFetched = s.statFetched := rfl
@[simp] theorem State.start_statRetired (s : State) : (s.start).statRetired = s.statRetired := rfl
@[simp] theorem State.start_statSquash (s : State) : (s.start).statSquash = s.statSquash := rfl
@[simp] theorem State.start_hier (s : State) : (s.start).hier = s.hier := rfl
@[simp] theorem State.start_stopped (s : State) : (s.start).stopped = s.stopped := rfl

/-! ### Conditional updates: the fields they never touch -/

/-! #### `writeReg` -/

@[simp] theorem State.writeReg_cfg (s : State) (r : Reg) (v : Word) :
    (s.writeReg r v).cfg = s.cfg := by
  unfold State.writeReg; split <;> rfl
@[simp] theorem State.writeReg_hi (s : State) (r : Reg) (v : Word) :
    (s.writeReg r v).hi = s.hi := by
  unfold State.writeReg; split <;> rfl
@[simp] theorem State.writeReg_lo (s : State) (r : Reg) (v : Word) :
    (s.writeReg r v).lo = s.lo := by
  unfold State.writeReg; split <;> rfl
@[simp] theorem State.writeReg_pc (s : State) (r : Reg) (v : Word) :
    (s.writeReg r v).pc = s.pc := by
  unfold State.writeReg; split <;> rfl
@[simp] theorem State.writeReg_de (s : State) (r : Reg) (v : Word) :
    (s.writeReg r v).de = s.de := by
  unfold State.writeReg; split <;> rfl
@[simp] theorem State.writeReg_ex (s : State) (r : Reg) (v : Word) :
    (s.writeReg r v).ex = s.ex := by
  unfold State.writeReg; split <;> rfl
@[simp] theorem State.writeReg_me (s : State) (r : Reg) (v : Word) :
    (s.writeReg r v).me = s.me := by
  unfold State.writeReg; split <;> rfl
@[simp] theorem State.writeReg_wb (s : State) (r : Reg) (v : Word) :
    (s.writeReg r v).wb = s.wb := by
  unfold State.writeReg; split <;> rfl
@[simp] theorem State.writeReg_recov (s : State) (r : Reg) (v : Word) :
    (s.writeReg r v).recov = s.recov := by
  unfold State.writeReg; split <;> rfl
@[simp] theorem State.writeReg_mduBusy (s : State) (r : Reg) (v : Word) :
    (s.writeReg r v).mduBusy = s.mduBusy := by
  unfold State.writeReg; split <;> rfl
@[simp] theorem State.writeReg_ghr (s : State) (r : Reg) (v : Word) :
    (s.writeReg r v).ghr = s.ghr := by
  unfold State.writeReg; split <;> rfl
@[simp] theorem State.writeReg_pht (s : State) (r : Reg) (v : Word) :
    (s.writeReg r v).pht = s.pht := by
  unfold State.writeReg; split <;> rfl
@[simp] theorem State.writeReg_btb (s : State) (r : Reg) (v : Word) :
    (s.writeReg r v).btb = s.btb := by
  unfold State.writeReg; split <;> rfl
@[simp] theorem State.writeReg_run (s : State) (r : Reg) (v : Word) :
    (s.writeReg r v).run = s.run := by
  unfold State.writeReg; split <;> rfl
@[simp] theorem State.writeReg_statFetched (s : State) (r : Reg) (v : Word) :
    (s.writeReg r v).statFetched = s.statFetched := by
  unfold State.writeReg; split <;> rfl
@[simp] theorem State.writeReg_statRetired (s : State) (r : Reg) (v : Word) :
    (s.writeReg r v).statRetired = s.statRetired := by
  unfold State.writeReg; split <;> rfl
@[simp] theorem State.writeReg_statSquash (s : State) (r : Reg) (v : Word) :
    (s.writeReg r v).statSquash = s.statSquash := by
  unfold State.writeReg; split <;> rfl
@[simp] theorem State.writeReg_hier (s : State) (r : Reg) (v : Word) :
    (s.writeReg r v).hier = s.hier := by
  unfold State.writeReg; split <;> rfl
@[simp] theorem State.writeReg_stopped (s : State) (r : Reg) (v : Word) :
    (s.writeReg r v).stopped = s.stopped := by
  unfold State.writeReg; split <;> rfl

/-! #### `recover` -/

@[simp] theorem State.recover_cfg (s : State) (n : Nat) (d : Word) :
    (s.recover n d).cfg = s.cfg := by
  unfold State.recover; split <;> rfl
@[simp] theorem State.recover_regs (s : State) (n : Nat) (d : Word) :
    (s.recover n d).regs = s.regs := by
  unfold State.recover; split <;> rfl
@[simp] theorem State.recover_hi (s : State) (n : Nat) (d : Word) : (s.recover n d).hi = s.hi := by
  unfold State.recover; split <;> rfl
@[simp] theorem State.recover_lo (s : State) (n : Nat) (d : Word) : (s.recover n d).lo = s.lo := by
  unfold State.recover; split <;> rfl
@[simp] theorem State.recover_pc (s : State) (n : Nat) (d : Word) : (s.recover n d).pc = s.pc := by
  unfold State.recover; split <;> rfl
@[simp] theorem State.recover_de (s : State) (n : Nat) (d : Word) : (s.recover n d).de = s.de := by
  unfold State.recover; split <;> rfl
@[simp] theorem State.recover_ex (s : State) (n : Nat) (d : Word) : (s.recover n d).ex = s.ex := by
  unfold State.recover; split <;> rfl
@[simp] theorem State.recover_me (s : State) (n : Nat) (d : Word) : (s.recover n d).me = s.me := by
  unfold State.recover; split <;> rfl
@[simp] theorem State.recover_wb (s : State) (n : Nat) (d : Word) : (s.recover n d).wb = s.wb := by
  unfold State.recover; split <;> rfl
@[simp] theorem State.recover_mduBusy (s : State) (n : Nat) (d : Word) :
    (s.recover n d).mduBusy = s.mduBusy := by
  unfold State.recover; split <;> rfl
@[simp] theorem State.recover_ghr (s : State) (n : Nat) (d : Word) :
    (s.recover n d).ghr = s.ghr := by
  unfold State.recover; split <;> rfl
@[simp] theorem State.recover_pht (s : State) (n : Nat) (d : Word) :
    (s.recover n d).pht = s.pht := by
  unfold State.recover; split <;> rfl
@[simp] theorem State.recover_btb (s : State) (n : Nat) (d : Word) :
    (s.recover n d).btb = s.btb := by
  unfold State.recover; split <;> rfl
@[simp] theorem State.recover_run (s : State) (n : Nat) (d : Word) :
    (s.recover n d).run = s.run := by
  unfold State.recover; split <;> rfl
@[simp] theorem State.recover_statFetched (s : State) (n : Nat) (d : Word) :
    (s.recover n d).statFetched = s.statFetched := by
  unfold State.recover; split <;> rfl
@[simp] theorem State.recover_statRetired (s : State) (n : Nat) (d : Word) :
    (s.recover n d).statRetired = s.statRetired := by
  unfold State.recover; split <;> rfl
@[simp] theorem State.recover_statSquash (s : State) (n : Nat) (d : Word) :
    (s.recover n d).statSquash = s.statSquash := by
  unfold State.recover; split <;> rfl
@[simp] theorem State.recover_hier (s : State) (n : Nat) (d : Word) :
    (s.recover n d).hier = s.hier := by
  unfold State.recover; split <;> rfl
@[simp] theorem State.recover_stopped (s : State) (n : Nat) (d : Word) :
    (s.recover n d).stopped = s.stopped := by
  unfold State.recover; split <;> rfl

/-! #### `recoverIfMismatch` -/

@[simp] theorem State.recoverIfMismatch_cfg (s : State) (op : Op) :
    (s.recoverIfMismatch op).cfg = s.cfg := by
  unfold State.recoverIfMismatch; split <;> simp
@[simp] theorem State.recoverIfMismatch_regs (s : State) (op : Op) :
    (s.recoverIfMismatch op).regs = s.regs := by
  unfold State.recoverIfMismatch; split <;> simp
@[simp] theorem State.recoverIfMismatch_hi (s : State) (op : Op) :
    (s.recoverIfMismatch op).hi = s.hi := by
  unfold State.recoverIfMismatch; split <;> simp
@[simp] theorem State.recoverIfMismatch_lo (s : State) (op : Op) :
    (s.recoverIfMismatch op).lo = s.lo := by
  unfold State.recoverIfMismatch; split <;> simp
@[simp] theorem State.recoverIfMismatch_pc (s : State) (op : Op) :
    (s.recoverIfMismatch op).pc = s.pc := by
  unfold State.recoverIfMismatch; split <;> simp
@[simp] theorem State.recoverIfMismatch_de (s : State) (op : Op) :
    (s.recoverIfMismatch op).de = s.de := by
  unfold State.recoverIfMismatch; split <;> simp
@[simp] theorem State.recoverIfMismatch_ex (s : State) (op : Op) :
    (s.recoverIfMismatch op).ex = s.ex := by
  unfold State.recoverIfMismatch; split <;> simp
@[simp] theorem State.recoverIfMismatch_me (s : State) (op : Op) :
    (s.recoverIfMismatch op).me = s.me := by
  unfold State.recoverIfMismatch; split <;> simp
@[simp] theorem State.recoverIfMismatch_wb (s : State) (op : Op) :
    (s.recoverIfMismatch op).wb = s.wb := by
  unfold State.recoverIfMismatch; split <;> simp
@[simp] theorem State.recoverIfMismatch_mduBusy (s : State) (op : Op) :
    (s.recoverIfMismatch op).mduBusy = s.mduBusy := by
  unfold State.recoverIfMismatch; split <;> simp
@[simp] theorem State.recoverIfMismatch_ghr (s : State) (op : Op) :
    (s.recoverIfMismatch op).ghr = s.ghr := by
  unfold State.recoverIfMismatch; split <;> simp
@[simp] theorem State.recoverIfMismatch_pht (s : State) (op : Op) :
    (s.recoverIfMismatch op).pht = s.pht := by
  unfold State.recoverIfMismatch; split <;> simp
@[simp] theorem State.recoverIfMismatch_btb (s : State) (op : Op) :
    (s.recoverIfMismatch op).btb = s.btb := by
  unfold State.recoverIfMismatch; split <;> simp
@[simp] theorem State.recoverIfMismatch_run (s : State) (op : Op) :
    (s.recoverIfMismatch op).run = s.run := by
  unfold State.recoverIfMismatch; split <;> simp
@[simp] theorem State.recoverIfMismatch_statFetched (s : State) (op : Op) :
    (s.recoverIfMismatch op).statFetched = s.statFetched := by
  unfold State.recoverIfMismatch; split <;> simp
@[simp] theorem State.recoverIfMismatch_statRetired (s : State) (op : Op) :
    (s.recoverIfMismatch op).statRetired = s.statRetired := by
  unfold State.recoverIfMismatch; split <;> simp
@[simp] theorem State.recoverIfMismatch_statSquash (s : State) (op : Op) :
    (s.recoverIfMismatch op).statSquash = s.statSquash := by
  unfold State.recoverIfMismatch; split <;> simp
@[simp] theorem State.recoverIfMismatch_hier (s : State) (op : Op) :
    (s.recoverIfMismatch op).hier = s.hier := by
  unfold State.recoverIfMismatch; split <;> simp
@[simp] theorem State.recoverIfMismatch_stopped (s : State) (op : Op) :
    (s.recoverIfMismatch op).stopped = s.stopped := by
  unfold State.recoverIfMismatch; split <;> simp

/-! #### `updateIfCond` -/

@[simp] theorem State.updateIfCond_cfg (s : State) (op : Op) : (s.updateIfCond op).cfg = s.cfg := by
  unfold State.updateIfCond; split <;> simp
@[simp] theorem State.updateIfCond_regs (s : State) (op : Op) :
    (s.updateIfCond op).regs = s.regs := by
  unfold State.updateIfCond; split <;> simp
@[simp] theorem State.updateIfCond_hi (s : State) (op : Op) : (s.updateIfCond op).hi = s.hi := by
  unfold State.updateIfCond; split <;> simp
@[simp] theorem State.updateIfCond_lo (s : State) (op : Op) : (s.updateIfCond op).lo = s.lo := by
  unfold State.updateIfCond; split <;> simp
@[simp] theorem State.updateIfCond_pc (s : State) (op : Op) : (s.updateIfCond op).pc = s.pc := by
  unfold State.updateIfCond; split <;> simp
@[simp] theorem State.updateIfCond_de (s : State) (op : Op) : (s.updateIfCond op).de = s.de := by
  unfold State.updateIfCond; split <;> simp
@[simp] theorem State.updateIfCond_ex (s : State) (op : Op) : (s.updateIfCond op).ex = s.ex := by
  unfold State.updateIfCond; split <;> simp
@[simp] theorem State.updateIfCond_me (s : State) (op : Op) : (s.updateIfCond op).me = s.me := by
  unfold State.updateIfCond; split <;> simp
@[simp] theorem State.updateIfCond_wb (s : State) (op : Op) : (s.updateIfCond op).wb = s.wb := by
  unfold State.updateIfCond; split <;> simp
@[simp] theorem State.updateIfCond_recov (s : State) (op : Op) :
    (s.updateIfCond op).recov = s.recov := by
  unfold State.updateIfCond; split <;> simp
@[simp] theorem State.updateIfCond_mduBusy (s : State) (op : Op) :
    (s.updateIfCond op).mduBusy = s.mduBusy := by
  unfold State.updateIfCond; split <;> simp
@[simp] theorem State.updateIfCond_btb (s : State) (op : Op) : (s.updateIfCond op).btb = s.btb := by
  unfold State.updateIfCond; split <;> simp
@[simp] theorem State.updateIfCond_run (s : State) (op : Op) : (s.updateIfCond op).run = s.run := by
  unfold State.updateIfCond; split <;> simp
@[simp] theorem State.updateIfCond_statFetched (s : State) (op : Op) :
    (s.updateIfCond op).statFetched = s.statFetched := by
  unfold State.updateIfCond; split <;> simp
@[simp] theorem State.updateIfCond_statRetired (s : State) (op : Op) :
    (s.updateIfCond op).statRetired = s.statRetired := by
  unfold State.updateIfCond; split <;> simp
@[simp] theorem State.updateIfCond_statSquash (s : State) (op : Op) :
    (s.updateIfCond op).statSquash = s.statSquash := by
  unfold State.updateIfCond; split <;> simp
@[simp] theorem State.updateIfCond_hier (s : State) (op : Op) :
    (s.updateIfCond op).hier = s.hier := by
  unfold State.updateIfCond; split <;> simp
@[simp] theorem State.updateIfCond_stopped (s : State) (op : Op) :
    (s.updateIfCond op).stopped = s.stopped := by
  unfold State.updateIfCond; split <;> simp

/-! #### `resolveBranch` -/

@[simp] theorem State.resolveBranch_cfg (s : State) (op : Op) :
    (s.resolveBranch op).cfg = s.cfg := by
  unfold State.resolveBranch; split <;> simp
@[simp] theorem State.resolveBranch_regs (s : State) (op : Op) :
    (s.resolveBranch op).regs = s.regs := by
  unfold State.resolveBranch; split <;> simp
@[simp] theorem State.resolveBranch_hi (s : State) (op : Op) : (s.resolveBranch op).hi = s.hi := by
  unfold State.resolveBranch; split <;> simp
@[simp] theorem State.resolveBranch_lo (s : State) (op : Op) : (s.resolveBranch op).lo = s.lo := by
  unfold State.resolveBranch; split <;> simp
@[simp] theorem State.resolveBranch_pc (s : State) (op : Op) : (s.resolveBranch op).pc = s.pc := by
  unfold State.resolveBranch; split <;> simp
@[simp] theorem State.resolveBranch_de (s : State) (op : Op) : (s.resolveBranch op).de = s.de := by
  unfold State.resolveBranch; split <;> simp
@[simp] theorem State.resolveBranch_ex (s : State) (op : Op) : (s.resolveBranch op).ex = s.ex := by
  unfold State.resolveBranch; split <;> simp
@[simp] theorem State.resolveBranch_me (s : State) (op : Op) : (s.resolveBranch op).me = s.me := by
  unfold State.resolveBranch; split <;> simp
@[simp] theorem State.resolveBranch_wb (s : State) (op : Op) : (s.resolveBranch op).wb = s.wb := by
  unfold State.resolveBranch; split <;> simp
@[simp] theorem State.resolveBranch_mduBusy (s : State) (op : Op) :
    (s.resolveBranch op).mduBusy = s.mduBusy := by
  unfold State.resolveBranch; split <;> simp
@[simp] theorem State.resolveBranch_run (s : State) (op : Op) :
    (s.resolveBranch op).run = s.run := by
  unfold State.resolveBranch; split <;> simp
@[simp] theorem State.resolveBranch_statFetched (s : State) (op : Op) :
    (s.resolveBranch op).statFetched = s.statFetched := by
  unfold State.resolveBranch; split <;> simp
@[simp] theorem State.resolveBranch_statRetired (s : State) (op : Op) :
    (s.resolveBranch op).statRetired = s.statRetired := by
  unfold State.resolveBranch; split <;> simp
@[simp] theorem State.resolveBranch_statSquash (s : State) (op : Op) :
    (s.resolveBranch op).statSquash = s.statSquash := by
  unfold State.resolveBranch; split <;> simp
@[simp] theorem State.resolveBranch_hier (s : State) (op : Op) :
    (s.resolveBranch op).hier = s.hier := by
  unfold State.resolveBranch; split <;> simp
@[simp] theorem State.resolveBranch_stopped (s : State) (op : Op) :
    (s.resolveBranch op).stopped = s.stopped := by
  unfold State.resolveBranch; split <;> simp

/-! #### `commit` -/

@[simp] theorem State.commit_cfg (s : State) (op : Op) : (s.commit op).cfg = s.cfg := by
  unfold State.commit; split <;> simp
@[simp] theorem State.commit_hi (s : State) (op : Op) : (s.commit op).hi = s.hi := by
  unfold State.commit; split <;> simp
@[simp] theorem State.commit_lo (s : State) (op : Op) : (s.commit op).lo = s.lo := by
  unfold State.commit; split <;> simp
@[simp] theorem State.commit_pc (s : State) (op : Op) : (s.commit op).pc = s.pc := by
  unfold State.commit; split <;> simp
@[simp] theorem State.commit_de (s : State) (op : Op) : (s.commit op).de = s.de := by
  unfold State.commit; split <;> simp
@[simp] theorem State.commit_ex (s : State) (op : Op) : (s.commit op).ex = s.ex := by
  unfold State.commit; split <;> simp
@[simp] theorem State.commit_me (s : State) (op : Op) : (s.commit op).me = s.me := by
  unfold State.commit; split <;> simp
@[simp] theorem State.commit_wb (s : State) (op : Op) : (s.commit op).wb = s.wb := by
  unfold State.commit; split <;> simp
@[simp] theorem State.commit_recov (s : State) (op : Op) : (s.commit op).recov = s.recov := by
  unfold State.commit; split <;> simp
@[simp] theorem State.commit_mduBusy (s : State) (op : Op) : (s.commit op).mduBusy = s.mduBusy := by
  unfold State.commit; split <;> simp
@[simp] theorem State.commit_ghr (s : State) (op : Op) : (s.commit op).ghr = s.ghr := by
  unfold State.commit; split <;> simp
@[simp] theorem State.commit_pht (s : State) (op : Op) : (s.commit op).pht = s.pht := by
  unfold State.commit; split <;> simp
@[simp] theorem State.commit_btb (s : State) (op : Op) : (s.commit op).btb = s.btb := by
  unfold State.commit; split <;> simp
@[simp] theorem State.commit_run (s : State) (op : Op) : (s.commit op).run = s.run := by
  unfold State.commit; split <;> simp
@[simp] theorem State.commit_statFetched (s : State) (op : Op) :
    (s.commit op).statFetched = s.statFetched := by
  unfold State.commit; split <;> simp
@[simp] theorem State.commit_statRetired (s : State) (op : Op) :
    (s.commit op).statRetired = s.statRetired := by
  unfold State.commit; split <;> simp
@[simp] theorem State.commit_statSquash (s : State) (op : Op) :
    (s.commit op).statSquash = s.statSquash := by
  unfold State.commit; split <;> simp
@[simp] theorem State.commit_hier (s : State) (op : Op) : (s.commit op).hier = s.hier := by
  unfold State.commit; split <;> simp
@[simp] theorem State.commit_stopped (s : State) (op : Op) : (s.commit op).stopped = s.stopped := by
  unfold State.commit; split <;> simp

/-! #### `haltIf` -/

@[simp] theorem State.haltIf_cfg (s : State) (op : Op) : (s.haltIf op).cfg = s.cfg := by
  unfold State.haltIf; split <;> simp
@[simp] theorem State.haltIf_regs (s : State) (op : Op) : (s.haltIf op).regs = s.regs := by
  unfold State.haltIf; split <;> simp
@[simp] theorem State.haltIf_hi (s : State) (op : Op) : (s.haltIf op).hi = s.hi := by
  unfold State.haltIf; split <;> simp
@[simp] theorem State.haltIf_lo (s : State) (op : Op) : (s.haltIf op).lo = s.lo := by
  unfold State.haltIf; split <;> simp
@[simp] theorem State.haltIf_pc (s : State) (op : Op) : (s.haltIf op).pc = s.pc := by
  unfold State.haltIf; split <;> simp
@[simp] theorem State.haltIf_de (s : State) (op : Op) : (s.haltIf op).de = s.de := by
  unfold State.haltIf; split <;> simp
@[simp] theorem State.haltIf_ex (s : State) (op : Op) : (s.haltIf op).ex = s.ex := by
  unfold State.haltIf; split <;> simp
@[simp] theorem State.haltIf_me (s : State) (op : Op) : (s.haltIf op).me = s.me := by
  unfold State.haltIf; split <;> simp
@[simp] theorem State.haltIf_wb (s : State) (op : Op) : (s.haltIf op).wb = s.wb := by
  unfold State.haltIf; split <;> simp
@[simp] theorem State.haltIf_recov (s : State) (op : Op) : (s.haltIf op).recov = s.recov := by
  unfold State.haltIf; split <;> simp
@[simp] theorem State.haltIf_mduBusy (s : State) (op : Op) : (s.haltIf op).mduBusy = s.mduBusy := by
  unfold State.haltIf; split <;> simp
@[simp] theorem State.haltIf_ghr (s : State) (op : Op) : (s.haltIf op).ghr = s.ghr := by
  unfold State.haltIf; split <;> simp
@[simp] theorem State.haltIf_pht (s : State) (op : Op) : (s.haltIf op).pht = s.pht := by
  unfold State.haltIf; split <;> simp
@[simp] theorem State.haltIf_btb (s : State) (op : Op) : (s.haltIf op).btb = s.btb := by
  unfold State.haltIf; split <;> simp
@[simp] theorem State.haltIf_statFetched (s : State) (op : Op) :
    (s.haltIf op).statFetched = s.statFetched := by
  unfold State.haltIf; split <;> simp
@[simp] theorem State.haltIf_statRetired (s : State) (op : Op) :
    (s.haltIf op).statRetired = s.statRetired := by
  unfold State.haltIf; split <;> simp
@[simp] theorem State.haltIf_statSquash (s : State) (op : Op) :
    (s.haltIf op).statSquash = s.statSquash := by
  unfold State.haltIf; split <;> simp
@[simp] theorem State.haltIf_hier (s : State) (op : Op) : (s.haltIf op).hier = s.hier := by
  unfold State.haltIf; split <;> simp
@[simp] theorem State.haltIf_stopped (s : State) (op : Op) : (s.haltIf op).stopped = s.stopped := by
  unfold State.haltIf; split <;> simp

/-! #### `applyRecovery` -/

@[simp] theorem State.applyRecovery_cfg (s : State) : (s.applyRecovery).cfg = s.cfg := by
  unfold State.applyRecovery; split <;> rfl
@[simp] theorem State.applyRecovery_regs (s : State) : (s.applyRecovery).regs = s.regs := by
  unfold State.applyRecovery; split <;> rfl
@[simp] theorem State.applyRecovery_hi (s : State) : (s.applyRecovery).hi = s.hi := by
  unfold State.applyRecovery; split <;> rfl
@[simp] theorem State.applyRecovery_lo (s : State) : (s.applyRecovery).lo = s.lo := by
  unfold State.applyRecovery; split <;> rfl
@[simp] theorem State.applyRecovery_mduBusy (s : State) :
    (s.applyRecovery).mduBusy = s.mduBusy := by
  unfold State.applyRecovery; split <;> rfl
@[simp] theorem State.applyRecovery_ghr (s : State) : (s.applyRecovery).ghr = s.ghr := by
  unfold State.applyRecovery; split <;> rfl
@[simp] theorem State.applyRecovery_pht (s : State) : (s.applyRecovery).pht = s.pht := by
  unfold State.applyRecovery; split <;> rfl
@[simp] theorem State.applyRecovery_btb (s : State) : (s.applyRecovery).btb = s.btb := by
  unfold State.applyRecovery; split <;> rfl
@[simp] theorem State.applyRecovery_run (s : State) : (s.applyRecovery).run = s.run := by
  unfold State.applyRecovery; split <;> rfl
@[simp] theorem State.applyRecovery_statFetched (s : State) :
    (s.applyRecovery).statFetched = s.statFetched := by
  unfold State.applyRecovery; split <;> rfl
@[simp] theorem State.applyRecovery_statRetired (s : State) :
    (s.applyRecovery).statRetired = s.statRetired := by
  unfold State.applyRecovery; split <;> rfl
@[simp] theorem State.applyRecovery_hier (s : State) : (s.applyRecovery).hier = s.hier := by
  unfold State.applyRecovery; split <;> rfl
@[simp] theorem State.applyRecovery_stopped (s : State) :
    (s.applyRecovery).stopped = s.stopped := by
  unfold State.applyRecovery; split <;> rfl

/-! #### `deliver` -/

@[simp] theorem State.deliver_cfg (s : State) (w : Word) : (s.deliver w).cfg = s.cfg := by
  unfold State.deliver; split <;> rfl
@[simp] theorem State.deliver_regs (s : State) (w : Word) : (s.deliver w).regs = s.regs := by
  unfold State.deliver; split <;> rfl
@[simp] theorem State.deliver_hi (s : State) (w : Word) : (s.deliver w).hi = s.hi := by
  unfold State.deliver; split <;> rfl
@[simp] theorem State.deliver_lo (s : State) (w : Word) : (s.deliver w).lo = s.lo := by
  unfold State.deliver; split <;> rfl
@[simp] theorem State.deliver_ex (s : State) (w : Word) : (s.deliver w).ex = s.ex := by
  unfold State.deliver; split <;> rfl
@[simp] theorem State.deliver_me (s : State) (w : Word) : (s.deliver w).me = s.me := by
  unfold State.deliver; split <;> rfl
@[simp] theorem State.deliver_wb (s : State) (w : Word) : (s.deliver w).wb = s.wb := by
  unfold State.deliver; split <;> rfl
@[simp] theorem State.deliver_recov (s : State) (w : Word) : (s.deliver w).recov = s.recov := by
  unfold State.deliver; split <;> rfl
@[simp] theorem State.deliver_mduBusy (s : State) (w : Word) :
    (s.deliver w).mduBusy = s.mduBusy := by
  unfold State.deliver; split <;> rfl
@[simp] theorem State.deliver_ghr (s : State) (w : Word) : (s.deliver w).ghr = s.ghr := by
  unfold State.deliver; split <;> rfl
@[simp] theorem State.deliver_pht (s : State) (w : Word) : (s.deliver w).pht = s.pht := by
  unfold State.deliver; split <;> rfl
@[simp] theorem State.deliver_btb (s : State) (w : Word) : (s.deliver w).btb = s.btb := by
  unfold State.deliver; split <;> rfl
@[simp] theorem State.deliver_run (s : State) (w : Word) : (s.deliver w).run = s.run := by
  unfold State.deliver; split <;> rfl
@[simp] theorem State.deliver_statRetired (s : State) (w : Word) :
    (s.deliver w).statRetired = s.statRetired := by
  unfold State.deliver; split <;> rfl
@[simp] theorem State.deliver_statSquash (s : State) (w : Word) :
    (s.deliver w).statSquash = s.statSquash := by
  unfold State.deliver; split <;> rfl
@[simp] theorem State.deliver_hier (s : State) (w : Word) : (s.deliver w).hier = s.hier := by
  unfold State.deliver; split <;> rfl
@[simp] theorem State.deliver_stopped (s : State) (w : Word) :
    (s.deliver w).stopped = s.stopped := by
  unfold State.deliver; split <;> rfl

end Sys2Proof.Machine
end

