-- ==== Sys2Proof/Laws/Registers.lean ====
section
/-! SUPPORT. Registers, recovery, the predictor: what the conditional updates leave in the fields they
may touch. -/

namespace Sys2Proof.Machine

/-! ### General registers (10 R20, R21) -/

@[simp] theorem State.reg_zero (s : State) : s.reg 0#5 = 0 := if_pos rfl

theorem State.reg_of_ne (s : State) {r : Reg} (h : r ≠ 0#5) : s.reg r = s.regs.get r.toFin := if_neg h

/-- `reg` reads nothing but `regs`. -/
theorem State.reg_congr {s t : State} (h : s.regs = t.regs) (r : Reg) : s.reg r = t.reg r := by
  unfold State.reg; rw [h]

@[simp] theorem State.writeReg_zero (s : State) (v : Word) : s.writeReg 0#5 v = s := if_pos rfl

theorem State.writeReg_regs (s : State) (r : Reg) (v : Word) :
    (s.writeReg r v).regs = if r = 0#5 then s.regs else s.regs.set r.toFin v := by
  unfold State.writeReg; split <;> rfl

theorem toFin_inj {n : Nat} {a b : BitVec n} : a.toFin = b.toFin ↔ a = b :=
  ⟨fun h => BitVec.eq_of_toFin_eq h, fun h => h ▸ rfl⟩

/-- A register read after a register write. -/
theorem State.reg_writeReg (s : State) (r q : Reg) (v : Word) :
    (s.writeReg r v).reg q = if r = q ∧ q ≠ 0#5 then v else s.reg q := by
  by_cases hq : q = 0#5
  · rw [if_neg (fun h => h.2 hq), hq, State.reg_zero, State.reg_zero]
  · rw [State.reg_of_ne _ hq, State.reg_of_ne _ hq, State.writeReg_regs]
    by_cases hr : r = 0#5
    · rw [if_pos hr, if_neg (by rintro ⟨h, -⟩; exact hq (h ▸ hr))]
    · rw [if_neg hr, Table.get_set]
      by_cases h : r = q
      · rw [if_pos (toFin_inj.2 h), if_pos ⟨h, hq⟩]
      · rw [if_neg (fun e => h (toFin_inj.1 e)), if_neg (fun e => h e.1)]

/-- Register 0's own entry is never written. -/
theorem State.writeReg_regs_zero (s : State) (r : Reg) (v : Word) :
    (s.writeReg r v).regs.get 0 = s.regs.get 0 := by
  rw [State.writeReg_regs]
  split
  · rfl
  · next h =>
    rw [Table.get_set, if_neg]
    intro e
    exact h (BitVec.eq_of_toFin_eq (by simpa using e))

/-! ### Recovery (40 R118 to R120) -/

theorem State.recover_recov (s : State) (n : Nat) (d : Word) :
    (s.recover n d).recov = if s.recov.active then s.recov else ⟨true, n, d⟩ := by
  unfold State.recover; split <;> rfl

theorem State.recoverIfMismatch_recov (s : State) (op : Op) :
    (s.recoverIfMismatch op).recov =
      if op.mismatch then
        (if s.recov.active then s.recov else ⟨true, branchFlushDepth, op.correctNextPc⟩)
      else s.recov := by
  unfold State.recoverIfMismatch; split
  · rw [State.recover_recov]
  · rfl

theorem State.applyRecovery_inactive {s : State} (h : s.recov.active = false) : s.applyRecovery = s := by
  simp [State.applyRecovery, h]

/-! ### Branch resolution (43 R180 to R185) -/

theorem State.updateIfCond_ghr (s : State) (op : Op) :
    (s.updateIfCond op).ghr = if op.branchCond then shiftHistory s.ghr op.branchTaken else s.ghr := by
  unfold State.updateIfCond; split <;> simp

theorem State.updateIfCond_pht (s : State) (op : Op) :
    (s.updateIfCond op).pht =
      if op.branchCond then
        s.pht.set (patternIndex s.ghr op.pc).toFin
          (saturate (s.counter (patternIndex s.ghr op.pc)) op.branchTaken)
      else s.pht := by
  unfold State.updateIfCond; split <;> simp

/-- The counters after a direction update. -/
theorem State.updateDirection_counter (s : State) (a : Word) (b : Bool) (i : BitVec 8) :
    (s.updateDirection a b).counter i =
      if patternIndex s.ghr a = i then saturate (s.counter i) b else s.counter i := by
  unfold State.counter
  rw [State.updateDirection_pht, Table.get_set]
  by_cases h : patternIndex s.ghr a = i
  · rw [if_pos (toFin_inj.2 h), if_pos h, ← h]; rfl
  · rw [if_neg (fun e => h (toFin_inj.1 e)), if_neg h]

/-- The branch target buffer after a refresh. -/
theorem State.refreshBtb_get (s : State) (a b : Word) (c : Bool) (i : Fin 1024) :
    (s.refreshBtb a b c).btb.get i = if (btbIndex a).toFin = i then ⟨true, a, b, c⟩ else s.btb.get i := by
  rw [State.refreshBtb_btb, Table.get_set]

theorem State.resolveBranch_of_not_branch (s : State) {op : Op} (h : op.isBranch = false) :
    s.resolveBranch op = s := by
  simp [State.resolveBranch, h]

theorem State.resolveBranch_of_branch (s : State) {op : Op} (h : op.isBranch = true) :
    s.resolveBranch op =
      ((s.recoverIfMismatch op).updateIfCond op).refreshBtb op.pc op.branchDest (!op.branchCond) := by
  simp [State.resolveBranch, h]

/-! ### Writeback and fetch -/

theorem State.commit_regs (s : State) (op : Op) :
    (s.commit op).regs =
      match op.dst with
      | some d => if d = 0#5 then s.regs else s.regs.set d.toFin op.dstVal
      | none => s.regs := by
  unfold State.commit
  cases op.dst with
  | none => rfl
  | some d => exact s.writeReg_regs d op.dstVal

theorem State.haltIf_run (s : State) (op : Op) :
    (s.haltIf op).run = if op.isHaltSyscall then false else s.run := by
  unfold State.haltIf; split <;> rfl

theorem State.deliver_of_occupied (s : State) (w : Word) (h : s.de.isSome = true) : s.deliver w = s :=
  if_pos h

theorem State.deliver_of_free (s : State) (w : Word) (h : s.de = none) :
    s.deliver w =
      { s with
        de := some (newOp s.pc w (s.predict s.pc))
        pc := (s.predict s.pc).nextPc
        statFetched := s.statFetched + 1 } := by
  simp [State.deliver, h]

end Sys2Proof.Machine
end

