-- ==== Sys2Proof/Laws/Execute.lean ====
section
/-! SUPPORT. The execute handler, once: what an evaluation can do, when it consumes the Op, what
`Compute` of any instruction leaves alone. -/

namespace Sys2Proof.Machine

/-! ### `andThen` -/

@[simp] theorem andThen_next {α β : Type} (a : α) (f : α → Result β) : andThen (.next a) f = f a := rfl

@[simp] theorem andThen_fault {α β : Type} (r : Fault) (f : α → Result β) :
    andThen (.fault r) f = .fault r := rfl

@[simp] theorem andThen_refused {α β : Type} (r : Refusal) (f : α → Result β) :
    andThen (.refused r) f = .refused r := rfl

/-- A sequence answers next exactly when its parts do. -/
theorem andThen_eq_next {α β : Type} {x : Result α} {f : α → Result β} {b : β} :
    andThen x f = .next b ↔ ∃ a, x = .next a ∧ f a = .next b := by
  cases x <;> simp

/-! ### Operand resolution (43 R166 to R170) -/

/-- The operand depends on WB and the register file only. -/
theorem State.operand_congr {s t : State} (hw : s.wb = t.wb) (hr : s.regs = t.regs) (r : Reg) :
    s.operand r = t.operand r := by
  unfold State.operand; rw [hw, hr]

/-- With ME free the mux answers `operand`, without a stall. -/
theorem State.resolveOperand_of_free {s : State} (h : s.me = none) (r : Reg) :
    s.resolveOperand r = (s.operand r, false) := by
  unfold State.resolveOperand State.operand
  by_cases hr : r = 0#5
  · rw [if_pos hr, if_pos hr]
  · rw [if_neg hr, if_neg hr, h]
    simp only [State.bypassWb, State.reg_of_ne _ hr] <;> cases s.wb <;> rfl

/-- The Op with its sources resolved while ME is free; a source that is `none` keeps its field. -/
def State.withOperands (s : State) (op : Op) : Op :=
  { op with
    src1Val := match op.src1 with
      | some r => s.operand r
      | none => op.src1Val
    src2Val := match op.src2 with
      | some r => s.operand r
      | none => op.src2Val }

theorem State.withOperands_congr {s t : State} (hw : s.wb = t.wb) (hr : s.regs = t.regs) (op : Op) :
    s.withOperands op = t.withOperands op := by
  unfold State.withOperands
  simp only [State.operand_congr hw hr]

theorem State.resolveOperands_of_free {s : State} (h : s.me = none) (op : Op) :
    s.resolveOperands op = some (s.withOperands op) := by
  unfold State.resolveOperands State.withOperands State.resolveSource
  cases op.src1 <;> cases op.src2 <;> simp [State.resolveOperand_of_free h]

/-! ### One evaluation (43 R160) -/

/-- Execute consumes the Op: EX holds it, ME is free, and it does not wait for HI or LO. -/
theorem executeWith_consumes {prepare : Op → Op} {waits : Bool} {compute : Op → State → Op × State}
    {s : State} {held : Op} (h : s.Executes held) (hw : waits = true → s.mduBusy = 0) :
    executeWith prepare waits compute s =
      .next (((compute (s.withOperands (prepare held)) s.tickMdu).2.resolveBranch
        (compute (s.withOperands (prepare held)) s.tickMdu).1).moveToMem
          (compute (s.withOperands (prepare held)) s.tickMdu).1) := by
  have hb : (waits && decide (0 < s.mduBusy)) = false := by
    cases waits
    · rfl
    · simp [hw rfl]
  simp only [executeWith, State.tickMdu_ex, State.tickMdu_me, h.1, h.2, Option.isSome_none,
    Bool.false_eq_true, if_false, State.resolveOperands_of_free (s := s.tickMdu) h.2, hb,
    State.withOperands_congr (s := s.tickMdu) (t := s) rfl rfl]

/-- The same for an instruction's meaning. -/
theorem executeAs_consumes {i : Instr} {compute : Op → State → Op × State} {s : State} {held : Op}
    (h : s.Executes held) (hw : readsHiLo i = true → s.mduBusy = 0) :
    executeAs i compute s =
      .next (((compute (s.withOperands (held.readAs i)) s.tickMdu).2.resolveBranch
        (compute (s.withOperands (held.readAs i)) s.tickMdu).1).moveToMem
          (compute (s.withOperands (held.readAs i)) s.tickMdu).1) :=
  executeWith_consumes h hw

/-- A meaning whose whole effect is in the Op, for an instruction that is no branch. -/
theorem executeAs_inOp {i : Instr} {f : Op → Op} {s : State} {held : Op} (h : s.Executes held)
    (hw : readsHiLo i = false) (hb : (f (s.withOperands (held.readAs i))).isBranch = false) :
    executeAs i (inOp f) s = .next (s.tickMdu.moveToMem (f (s.withOperands (held.readAs i)))) := by
  rw [executeAs_consumes h (fun e => absurd (hw.symm.trans e) (by decide))]
  simp only [inOp, State.resolveBranch_of_not_branch _ hb]

/-- Everything an evaluation can do: nothing but the countdown, or consume the Op. -/
theorem executeWith_cases (prepare : Op → Op) (waits : Bool) (compute : Op → State → Op × State)
    (s : State) :
    (executeWith prepare waits compute s = .next s.tickMdu ∧
      (s.ex = none ∨ s.me.isSome = true ∨ (waits = true ∧ 0 < s.mduBusy))) ∨
    (∃ held, s.Executes held ∧ (waits = true → s.mduBusy = 0) ∧
      executeWith prepare waits compute s =
        .next (((compute (s.withOperands (prepare held)) s.tickMdu).2.resolveBranch
          (compute (s.withOperands (prepare held)) s.tickMdu).1).moveToMem
            (compute (s.withOperands (prepare held)) s.tickMdu).1)) := by
  cases hx : s.ex with
  | none => exact .inl ⟨by simp [executeWith, hx], .inl rfl⟩
  | some held =>
    cases hm : s.me with
    | some m => exact .inl ⟨by simp [executeWith, hx, hm], .inr (.inl rfl)⟩
    | none =>
      by_cases hw : waits = true ∧ 0 < s.mduBusy
      · refine .inl ⟨?_, .inr (.inr hw)⟩
        simp [executeWith, hx, hm, State.resolveOperands_of_free (s := s.tickMdu) hm, hw.1, hw.2]
      · have hw' : waits = true → s.mduBusy = 0 := fun h => by
          have : ¬ 0 < s.mduBusy := fun hb => hw ⟨h, hb⟩
          omega
        exact .inr ⟨held, ⟨hx, hm⟩, hw', executeWith_consumes ⟨hx, hm⟩ hw'⟩

/-! ### Branch resolution (43 R180 to R187) -/

/-- The slot of the BTB a pc selects, as a number (46 R262). -/
theorem btbIndex_eq_iff (pc : Word) (i : Fin 1024) :
    (btbIndex pc).toFin = i ↔ i.val = pc.toNat / 4 % 1024 := by
  rw [Fin.ext_iff]
  simp [btbIndex, Nat.shiftRight_eq_div_pow, eq_comm]

/-- What the resolution of a branch does, for an Op that keeps what fetch recorded (43 R180 to R187). -/
theorem branchMoves_of_resolve {s : State} {op m : Op} {taken cond : Bool} {dest : Word}
    (hb : m.isBranch = true) (hc : m.branchCond = cond) (ht : m.branchTaken = taken)
    (hd : m.branchDest = dest) (hp : m.pc = op.pc) (h1 : m.predIsBranch = op.predIsBranch)
    (h2 : m.predTaken = op.predTaken) (h3 : m.predDest = op.predDest) :
    BranchMoves s ((s.tickMdu.resolveBranch m).moveToMem m) op m taken dest cond := by
  refine ⟨rfl, rfl, ht, hd, ?_, ?_, fun i => ?_, fun i => ?_⟩
  all_goals rw [State.resolveBranch_of_branch _ hb]
  · rw [State.moveToMem_recov, State.refreshBtb_recov, State.updateIfCond_recov,
      State.recoverIfMismatch_recov]
    simp only [Op.mismatch, h1, h2, h3, ht, hd, branchFlushDepth, Op.correctNextPc, hp, nextSeq,
      State.tickMdu_recov]
  · rw [State.moveToMem_ghr, State.refreshBtb_ghr, State.updateIfCond_ghr, hc, ht,
      State.recoverIfMismatch_ghr, State.tickMdu_ghr]
    rfl
  · have hpht : ((s.tickMdu.recoverIfMismatch m).pht) = s.pht := by
      rw [State.recoverIfMismatch_pht, State.tickMdu_pht]
    have hghr : ((s.tickMdu.recoverIfMismatch m).ghr) = s.ghr := by
      rw [State.recoverIfMismatch_ghr, State.tickMdu_ghr]
    have hcount : ∀ j, (s.tickMdu.recoverIfMismatch m).counter j = s.counter j := fun j => by
      unfold State.counter; rw [hpht]
    show (State.updateIfCond _ m).counter i = _
    unfold State.updateIfCond
    rw [hc, ht]
    cases cond
    · rw [if_neg (by decide), hcount]; rfl
    · rw [if_pos rfl, State.updateDirection_counter, hghr, hcount, hp]
      by_cases hi : i = patternIndex s.ghr op.pc
      · rw [if_pos hi.symm, if_pos (by rw [hi]; simp [patternIndex])]
      · rw [if_neg (Ne.symm hi), if_neg (by simpa [patternIndex] using hi)]
  · show (State.refreshBtb _ _ _ _).btb.get i = _
    rw [State.refreshBtb_get, hp, hd, hc]
    by_cases hi : (btbIndex op.pc).toFin = i
    · rw [if_pos hi, if_pos ((btbIndex_eq_iff _ _).1 hi)]
    · rw [if_neg hi, if_neg (fun e => hi ((btbIndex_eq_iff _ _).2 e)), State.updateIfCond_btb,
        State.recoverIfMismatch_btb, State.tickMdu_btb]

/-! ### Decoded Ops (44 R202, R203, R207) -/

/-- The class fields of an Op are those of a row. -/
structure Op.HasClass (op : Op) (c : OperandClass) : Prop where
  src1 : op.src1 = c.src1
  src2 : op.src2 = c.src2
  dst : op.dst = c.dst
  isMem : op.isMem = c.isMem
  memWrite : op.memWrite = c.memWrite
  isBranch : op.isBranch = c.isBranch
  branchCond : op.branchCond = c.branchCond

/-- The fields decode writes are those of the word. -/
theorem Op.decodedInv_iff (op : Op) :
    op.DecodedInv ↔
      op.opcode = opField op.instr ∧ op.subop = subopOf op.instr ∧ op.imm16 = immField op.instr ∧
        op.seImm = sext16 (immField op.instr) ∧ op.shamt = shamtField op.instr ∧
        op.jtarget = targetField op.instr ∧ op.HasClass (classOfWord op.instr) := by
  constructor
  · intro h
    rw [← (show op.decode = op from h)]
    exact ⟨rfl, rfl, rfl, rfl, rfl, rfl, rfl, rfl, rfl, rfl, rfl, rfl, rfl⟩
  · rintro ⟨h1, h2, h3, h4, h5, h6, ⟨c1, c2, c3, c4, c5, c6, c7⟩⟩
    obtain ⟨pc, instr, opcode, subop, imm16, seImm, shamt, jtarget, src1, src2⟩ := op
    simp only at h1 h2 h3 h4 h5 h6 c1 c2 c3 c4 c5 c6 c7
    subst h1 h2 h3 h4 h5 h6 c1 c2 c3 c4 c5 c6 c7
    rfl

/-- What decode hands to EX satisfies it. -/
theorem Op.decodedInv_decode (op : Op) : op.decode.DecodedInv := rfl

/-! ### `Compute` of an instruction -/

/-- The instructions whose `Compute` writes HI or LO. -/
def writesHiLo : Instr → Bool
  | .mthi _ | .mtlo _ | .mult _ _ | .multu _ _ | .div _ _ | .divu _ _ => true
  | _ => false

/-- What no `Compute` touches: in the state everything but HI, LO and the countdown, these only for the
six instructions that write them; in the Op everything fetch and decode recorded and the sources. -/
structure ComputeFrame (i : Instr) (compute : Op → State → Op × State) : Prop where
  state : ∀ op s, ∃ a b n, (compute op s).2 = s.writeHiLo a b n
  same : writesHiLo i = false → ∀ op s, (compute op s).2 = s
  pc : ∀ op s, (compute op s).1.pc = op.pc
  instr : ∀ op s, (compute op s).1.instr = op.instr
  opcode : ∀ op s, (compute op s).1.opcode = op.opcode
  subop : ∀ op s, (compute op s).1.subop = op.subop
  imm16 : ∀ op s, (compute op s).1.imm16 = op.imm16
  seImm : ∀ op s, (compute op s).1.seImm = op.seImm
  shamt : ∀ op s, (compute op s).1.shamt = op.shamt
  jtarget : ∀ op s, (compute op s).1.jtarget = op.jtarget
  src1 : ∀ op s, (compute op s).1.src1 = op.src1
  src2 : ∀ op s, (compute op s).1.src2 = op.src2
  src1Val : ∀ op s, (compute op s).1.src1Val = op.src1Val
  dst : ∀ op s, (compute op s).1.dst = op.dst
  isMem : ∀ op s, (compute op s).1.isMem = op.isMem
  memWrite : ∀ op s, (compute op s).1.memWrite = op.memWrite
  isBranch : ∀ op s, (compute op s).1.isBranch = op.isBranch
  branchCond : ∀ op s, (compute op s).1.branchCond = op.branchCond
  predIsBranch : ∀ op s, (compute op s).1.predIsBranch = op.predIsBranch
  predTaken : ∀ op s, (compute op s).1.predTaken = op.predTaken
  predDest : ∀ op s, (compute op s).1.predDest = op.predDest

theorem State.writeHiLo_self (s : State) : s.writeHiLo s.hi s.lo s.mduBusy = s := rfl

/-- Every meaning is an evaluation of the execute handler with a `Compute` of this shape. -/
theorem exec_shape (i : Instr) :
    ∃ compute, (∀ s, exec i s = executeAs i compute s) ∧ ComputeFrame i compute := by
  cases i
  all_goals
    apply Exists.intro
    apply And.intro
    · intro s
      simp only [exec, execSll, execSrl, execSra, execSllv, execSrlv, execSrav, execJr, execJalr,
      execSyscall, execMfhi, execMthi, execMflo, execMtlo, execMult, execMultu, execDiv,
      execDivu, execAdd, execAddu, execSub, execSubu, execAnd, execOr, execXor, execNor,
      execSlt, execSltu, execBltz, execBgez, execBltzal, execBgezal, execJ, execJal, execBeq,
      execBne, execBlez, execBgtz, execAddi, execAddiu, execSlti, execSltiu, execAndi, execOri,
      execXori, execLui, execLb, execLh, execLw, execLbu, execLhu, execSb, execSh, execSw]
      exact rfl
    constructor
    case state => exact fun op s => ⟨_, _, _, rfl⟩
    case same => first | exact fun _ _ _ => rfl | exact fun h => nomatch h
    all_goals exact fun _ _ => rfl

/-- What an Op keeps of the one execute found: what fetch recorded, and the class of the instruction. -/
structure Op.ComesFrom (m held : Op) (i : Instr) : Prop where
  pc : m.pc = held.pc
  instr : m.instr = held.instr
  opcode : m.opcode = opField (encode i)
  subop : m.subop = subopOf (encode i)
  dst : m.dst = (classOf i).dst
  isMem : m.isMem = (classOf i).isMem
  memWrite : m.memWrite = (classOf i).memWrite
  isBranch : m.isBranch = (classOf i).isBranch
  branchCond : m.branchCond = (classOf i).branchCond
  predIsBranch : m.predIsBranch = held.predIsBranch
  predTaken : m.predTaken = held.predTaken
  predDest : m.predDest = held.predDest

/-- Everything an instruction's evaluation can do: only the countdown, or HI, LO and the countdown (for
the six instructions that write them), branch resolution and the move. -/
theorem exec_cases (i : Instr) (s : State) :
    (exec i s = .next s.tickMdu ∧
      (s.ex = none ∨ s.me.isSome = true ∨ (readsHiLo i = true ∧ 0 < s.mduBusy))) ∨
    (∃ held m a b n, s.Executes held ∧ (readsHiLo i = true → s.mduBusy = 0) ∧ m.ComesFrom held i ∧
      (writesHiLo i = false → s.tickMdu.writeHiLo a b n = s.tickMdu) ∧
      exec i s = .next (((s.tickMdu.writeHiLo a b n).resolveBranch m).moveToMem m)) := by
  obtain ⟨compute, he, hf⟩ := exec_shape i
  rw [he, executeAs]
  rcases executeWith_cases (·.readAs i) (readsHiLo i) compute s with h | ⟨held, hx, hw, h⟩
  · exact .inl h
  · obtain ⟨a, b, n, hs⟩ := hf.state (s.withOperands (held.readAs i)) s.tickMdu
    refine .inr ⟨held, _, a, b, n, hx, hw, ?_, fun hn => hs ▸ hf.same hn _ _, hs ▸ h⟩
    exact ⟨hf.pc _ _, hf.instr _ _, hf.opcode _ _, hf.subop _ _, hf.dst _ _, hf.isMem _ _,
      hf.memWrite _ _, hf.isBranch _ _, hf.branchCond _ _, hf.predIsBranch _ _, hf.predTaken _ _,
      hf.predDest _ _⟩

/-- The execute handler always answers a next state. -/
theorem exec_next (i : Instr) (s : State) : ∃ t, exec i s = .next t := by
  rcases exec_cases i s with ⟨h, -⟩ | ⟨_, _, _, _, _, _, _, _, _, h⟩ <;> exact ⟨_, h⟩

theorem executeUnrecognised_next (s : State) : ∃ t, executeUnrecognised s = .next t := by
  unfold executeUnrecognised
  rcases executeWith_cases (·.classify unrecognisedClass) false (inOp id) s with ⟨h, -⟩ | ⟨_, _, _, h⟩ <;>
    exact ⟨_, h⟩

theorem executeStage_next (s : State) : ∃ t, executeStage s = .next t := by
  unfold executeStage
  split
  · exact ⟨_, rfl⟩
  · split
    · exact exec_next _ s
    · exact executeUnrecognised_next s

/-! ### The decoder selects by the fields the Op keeps (44 R207) -/

theorem eq_ofNat_of_toNat {n k : Nat} {x : BitVec n} (h : x.toNat = k) : x = BitVec.ofNat n k := by
  rw [← h, BitVec.ofNat_toNat, BitVec.setWidth_eq]

/-- The encoder writes back the selector fields the decoder read. -/
theorem selector_of_decodeWord {w : Word} {i : Instr} (h : decodeWord w = .ok i) :
    opField (encode i) = opField w ∧ subopOf (encode i) = subopOf w := by
  unfold decodeWord at h
  split at h
  case h_1 e =>
    have e0 : opField w = 0 := BitVec.eq_of_toNat_eq e
    unfold decodeSpecial at h
    split at h <;> cases h
    all_goals
      have ef := eq_ofNat_of_toNat ‹(functField w).toNat = _›
      simp [encode, subopOf, e0, ef]
  case h_2 e =>
    have e1 : opField w = 1 := BitVec.eq_of_toNat_eq e
    unfold decodeRegimm at h
    split at h <;> cases h
    all_goals
      have ef := eq_ofNat_of_toNat ‹(rtField w).toNat = _›
      simp [encode, subopOf, e1, ef]
  all_goals cases h
  all_goals
    have eo := eq_ofNat_of_toNat ‹(opField w).toNat = _›
    simp [encode, subopOf, eo]

/-- An Op decode has classified reads as itself. -/
theorem Op.readAs_of_decoded {op : Op} {i : Instr} (hd : op.DecodedInv)
    (hi : decodeWord op.instr = .ok i) : op.readAs i = op := by
  obtain ⟨h1, h2, -, -, -, -, c⟩ := op.decodedInv_iff.1 hd
  obtain ⟨e1, e2⟩ := selector_of_decodeWord hi
  have hc : classOfWord op.instr = classOf i := by rw [classOfWord, hi]
  rw [hc] at c
  unfold Op.readAs Op.classify
  rw [e1, e2, ← h1, ← h2, ← c.src1, ← c.src2, ← c.dst, ← c.isMem, ← c.memWrite, ← c.isBranch,
    ← c.branchCond]

end Sys2Proof.Machine
end

