-- ==== Sys2Proof/Laws/Hierarchy.lean ====
section
/-! SUPPORT. The caches under every operation of the hierarchy: each keeps `CachesInv`, answers a next
state, and leaves alone what is not its own. -/

namespace Sys2Proof.Machine

/-! ### One cache -/

/-- What `CacheInv` says of one set. -/
def WaysInv (cfg : Config) (g : Geometry) (ways : CacheSet) : Prop :=
  SetInv g.ways ways ∧ ∀ b ∈ ways, b.data.length = cfg.blockWords ∧
    b.tag.toNat < 2 ^ (32 - (2 + cfg.blockShift + g.setBits))

theorem Cache.ways_mem {c : Cache} {i : Nat} (h : i < c.length) : c.ways i ∈ c := by
  simp [Cache.ways, List.getD_eq_getElem?_getD, List.getElem?_eq_getElem h]

theorem Cache.ways_set {c : Cache} {i : Nat} (h : i < c.length) (j : Nat) (ws : CacheSet) :
    Cache.ways (c.set i ws) j = if i = j then ws else c.ways j := by
  simp only [Cache.ways, List.getD_eq_getElem?_getD, List.getElem?_set]
  split
  · next e => subst e; simp
  · rfl

theorem CacheInv.waysInv {cfg : Config} {g : Geometry} {c : Cache} (h : CacheInv cfg g c) {i : Nat}
    (hi : i < g.sets) : WaysInv cfg g (c.ways i) := by
  have hl : i < c.length := by rw [h.1]; exact hi
  exact h.2 _ (Cache.ways_mem hl)

/-- Replacing one set by a good one. -/
theorem CacheInv.setWays {cfg : Config} {g : Geometry} {c : Cache} (h : CacheInv cfg g c) (i : Nat)
    {ws : CacheSet} (hw : WaysInv cfg g ws) : CacheInv cfg g (c.set i ws) := by
  refine ⟨by rw [List.length_set]; exact h.1, ?_⟩
  intro ways hm
  rcases List.mem_or_eq_of_mem_set hm with hm | rfl
  · exact h.2 _ hm
  · exact hw

section OneCache
variable {cfg : Config} {g : Geometry} {c : Cache} (hg : g.wf cfg.blockShift = true)
include hg

theorem CacheInv.waysAt (h : CacheInv cfg g c) (a : Word) : WaysInv cfg g (c.ways (setIndex cfg g a)) :=
  h.waysInv (setIndex_lt hg a)

omit hg in
/-- A hit is a way of the set. -/
theorem CacheInv.find_lt (_h : CacheInv cfg g c) {a : Word} {w : Nat} (hf : c.find cfg g a = some w) :
    w < (c.ways (setIndex cfg g a)).length := (findWay_some hf).1

theorem CacheInv.touch (h : CacheInv cfg g c) {a : Word} {w : Nat}
    (hw : w < (c.ways (setIndex cfg g a)).length) : CacheInv cfg g (c.touch cfg g a w) := by
  obtain ⟨hs, hb⟩ := h.waysAt hg a
  refine h.setWays _ ⟨hs.touch hw, ?_⟩
  intro b hm
  have hmap : (touchWay (c.ways (setIndex cfg g a)) w).map (fun b => (b.data, b.tag)) =
      (c.ways (setIndex cfg g a)).map (fun b => (b.data, b.tag)) := touchWay_map _ (fun _ _ => rfl) hw
  have : (b.data, b.tag) ∈ (c.ways (setIndex cfg g a)).map (fun b => (b.data, b.tag)) := by
    rw [← hmap]; exact List.mem_map_of_mem hm
  obtain ⟨b', hm', e⟩ := List.mem_map.1 this
  injection e with e1 e2
  rw [← e1, ← e2]
  exact hb b' hm'

theorem Cache.ways_touch (h : CacheInv cfg g c) (a : Word) (w i : Nat) :
    (c.touch cfg g a w).ways i =
      if setIndex cfg g a = i then touchWay (c.ways i) w else c.ways i := by
  have hl : setIndex cfg g a < c.length := by rw [h.1]; exact setIndex_lt hg a
  unfold Cache.touch
  rw [Cache.ways_set hl]
  split
  · next e => rw [e]
  · rfl

theorem Cache.ways_setBlock (h : CacheInv cfg g c) (a : Word) (w i : Nat) (b : CacheBlock) :
    (c.setBlock cfg g a w b).ways i =
      if setIndex cfg g a = i then (c.ways i).set w b else c.ways i := by
  have hl : setIndex cfg g a < c.length := by rw [h.1]; exact setIndex_lt hg a
  unfold Cache.setBlock
  rw [Cache.ways_set hl]
  split
  · next e => rw [e]
  · rfl

/-- A block may be replaced by one of the same rank, whose tag, if valid, no other way of the set has. -/
theorem CacheInv.setBlock (h : CacheInv cfg g c) {a : Word} {w : Nat} {b : CacheBlock}
    (hw : w < (c.ways (setIndex cfg g a)).length) (hr : b.rank = (c.block cfg g a w).rank)
    (hd : b.data.length = cfg.blockWords)
    (ht : b.tag.toNat < 2 ^ (32 - (2 + cfg.blockShift + g.setBits)))
    (hu : b.valid = true → ∀ i (hi : i < (c.ways (setIndex cfg g a)).length), i ≠ w →
      (c.ways (setIndex cfg g a))[i].valid = true → (c.ways (setIndex cfg g a))[i].tag ≠ b.tag) :
    CacheInv cfg g (c.setBlock cfg g a w b) := by
  obtain ⟨hs, hb⟩ := h.waysAt hg a
  refine h.setWays _ ⟨hs.set hw (by rw [hr, Cache.block, blockAt_eq hw]) hu, ?_⟩
  intro b' hm
  rcases List.mem_or_eq_of_mem_set hm with hm | rfl
  · exact hb b' hm
  · exact ⟨hd, ht⟩

/-- The data and the dirty bit of a resident block may change (R318, R340). -/
theorem CacheInv.setData (h : CacheInv cfg g c) {a : Word} {w : Nat}
    (hw : w < (c.ways (setIndex cfg g a)).length) {data : List Word} (dirty : Bool)
    (hd : data.length = cfg.blockWords) :
    CacheInv cfg g (c.setBlock cfg g a w { c.block cfg g a w with data := data, dirty := dirty }) := by
  obtain ⟨⟨-, -, hp⟩, hb⟩ := h.waysAt hg a
  have hmem : c.block cfg g a w ∈ c.ways (setIndex cfg g a) := blockAt_mem hw
  refine h.setBlock hg hw rfl hd (hb _ hmem).2 ?_
  intro hv i hi hne hvi
  rw [List.pairwise_iff_getElem] at hp
  have hbw : c.block cfg g a w = (c.ways (setIndex cfg g a))[w] := blockAt_eq hw
  simp only [hbw] at hv ⊢
  rcases Nat.lt_or_gt_of_ne hne with hlt | hlt
  · exact hp i w hi hw hlt hvi hv
  · exact fun e => hp w i hw hi hlt hv hvi e.symm

/-- Filling the victim of a set that does not hold the block (R305). -/
theorem CacheInv.fill (h : CacheInv cfg g c) {a : Word} {w : Nat} {data : List Word} (dirty : Bool)
    (hw : w < (c.ways (setIndex cfg g a)).length) (hf : c.find cfg g a = none)
    (hd : data.length = cfg.blockWords) : CacheInv cfg g (c.fill cfg g a w data dirty) := by
  unfold Cache.fill
  have hn := findWay_none.1 hf
  have hset := h.setBlock hg (b := { c.block cfg g a w with
    valid := true, dirty := dirty, tag := tagOf cfg g a, data := data }) hw rfl hd (tagOf_lt hg a)
    (fun _ i hi _ hv => hn _ (List.getElem_mem hi) hv)
  apply hset.touch hg
  rw [Cache.ways_setBlock hg h, if_pos rfl]
  simpa using hw

end OneCache

/-! ### The hierarchy -/

@[simp] theorem dramReadBlock_length (cfg : Config) (m : Memory) (b : Word) :
    (dramReadBlock cfg m b).length = cfg.blockWords := by
  simp [dramReadBlock, blockWordAddrs]

@[simp] theorem Hierarchy.l1_setL1 (h : Hierarchy) (k : Side) (c : Cache) : (h.setL1 k c).l1 k = c := by
  cases k <;> rfl

/-- The other side's first-level cache. -/
def Side.other : Side → Side
  | .i => .d
  | .d => .i

@[simp] theorem Hierarchy.l1_other_setL1 (h : Hierarchy) (k : Side) (c : Cache) :
    (h.setL1 k c).l1 k.other = h.l1 k.other := by
  cases k <;> rfl

section Whole
variable {cfg : Config} (hc : cfg.wf = true)
include hc

theorem l1Geometry_wf (k : Side) : (l1Geometry cfg k).wf cfg.blockShift = true := by
  obtain ⟨h1, h2, -, -⟩ := Config.wf_iff.1 hc
  cases k
  · exact h1
  · exact h2

theorem l2Geometry_wf : cfg.l2.wf cfg.blockShift = true := (Config.wf_iff.1 hc).2.2.1

omit hc in
theorem CachesInv.l1 {h : Hierarchy} (hi : CachesInv cfg h) (k : Side) :
    CacheInv cfg (l1Geometry cfg k) (h.l1 k) := by
  cases k
  · exact hi.l1i
  · exact hi.l1d

omit hc in
/-- Replacing L2 and the flat store by good ones. -/
theorem CachesInv.setL2 {h : Hierarchy} (hi : CachesInv cfg h) {l2 : Cache} {store : Memory}
    (h2 : CacheInv cfg cfg.l2 l2) (hs : store.wf = true) :
    CachesInv cfg { h with l2 := l2, store := store } :=
  ⟨hi.l1i, hi.l1d, h2, hi.l1iClean, hi.mshrs, hs⟩

/-- `Install_L2` answers, keeps the invariant and touches L2 and the flat store only (R305, R308). -/
theorem installL2_spec {h : Hierarchy} (hi : CachesInv cfg h) (b : Word) {data : List Word}
    (dirty : Bool) (hd : data.length = cfg.blockWords) :
    ∃ l2 store, installL2 cfg h b data dirty = .next { h with l2 := l2, store := store } ∧
      CacheInv cfg cfg.l2 l2 ∧ store.wf = true := by
  have hg := l2Geometry_wf hc
  unfold installL2
  split
  · next w hf => exact ⟨_, _, rfl, hi.l2.touch hg (hi.l2.find_lt hf), hi.store⟩
  · next hf =>
    obtain ⟨w, hv, hw, -⟩ := victimWay_of_inv (hi.l2.waysAt hg b).1 (Geometry.wf_iff.1 hg).1
    rw [hv, andThen_next]
    refine ⟨_, _, rfl, hi.l2.fill hg dirty hw hf hd, ?_⟩
    split
    · exact wf_writeWords hi.store _ _
    · exact hi.store

/-- The writeback of a dirty L1 victim (R318). -/
theorem writebackToL2_spec {h : Hierarchy} (hi : CachesInv cfg h) (vb : Word) {data : List Word}
    (hd : data.length = cfg.blockWords) :
    ∃ l2 store, writebackToL2 cfg h vb data = .next { h with l2 := l2, store := store } ∧
      CacheInv cfg cfg.l2 l2 ∧ store.wf = true := by
  have hg := l2Geometry_wf hc
  unfold writebackToL2
  split
  · next w hf =>
    have hw := hi.l2.find_lt hf
    refine ⟨_, _, rfl, (hi.l2.setData hg hw true hd).touch hg ?_, hi.store⟩
    rw [Cache.ways_setBlock hg hi.l2, if_pos rfl]
    simpa using hw
  · exact installL2_spec hc hi vb true hd

omit hc in
theorem CachesInv.setL1 {h : Hierarchy} (hi : CachesInv cfg h) (k : Side) {c : Cache}
    (h1 : CacheInv cfg (l1Geometry cfg k) c) (hcl : k = .i → ∀ ways ∈ c, ∀ b ∈ ways, b.dirty = false) :
    CachesInv cfg (h.setL1 k c) := by
  cases k
  · exact ⟨h1, hi.l1d, hi.l2, hcl rfl, hi.mshrs, hi.store⟩
  · exact ⟨hi.l1i, h1, hi.l2, hi.l1iClean, hi.mshrs, hi.store⟩

omit hc in
/-- A touch leaves every block as clean as it was. -/
theorem touch_clean {g : Geometry} {c : Cache} {a : Word} {w : Nat}
    (hw : w < (c.ways (setIndex cfg g a)).length) (hl : setIndex cfg g a < c.length)
    (h : ∀ ways ∈ c, ∀ b ∈ ways, b.dirty = false) :
    ∀ ways ∈ c.touch cfg g a w, ∀ b ∈ ways, b.dirty = false := by
  intro ways hm b hb
  rcases List.mem_or_eq_of_mem_set hm with hm | rfl
  · exact h ways hm b hb
  · have hmap := touchWay_map (·.dirty) (fun _ _ => rfl) hw
    have : b.dirty ∈ (c.ways (setIndex cfg g a)).map (·.dirty) := by
      rw [← hmap]; exact List.mem_map_of_mem hb
    obtain ⟨b', hb', e⟩ := List.mem_map.1 this
    rw [← e]
    exact h _ (Cache.ways_mem hl) b' hb'

omit hc in
theorem setBlock_clean {g : Geometry} {c : Cache} {a : Word} {w : Nat} {b : CacheBlock}
    (hl : setIndex cfg g a < c.length) (hb : b.dirty = false)
    (h : ∀ ways ∈ c, ∀ b ∈ ways, b.dirty = false) :
    ∀ ways ∈ c.setBlock cfg g a w b, ∀ b ∈ ways, b.dirty = false := by
  intro ways hm b' hb'
  rcases List.mem_or_eq_of_mem_set hm with hm | rfl
  · exact h ways hm b' hb'
  · rcases List.mem_or_eq_of_mem_set hb' with hb' | rfl
    · exact h _ (Cache.ways_mem hl) b' hb'
    · exact hb

/-- `Install_L1` of a side answers, keeps the invariant and leaves the other first-level cache, the
miss-status table and the queues alone (R305, R308, R318). -/
theorem installL1_spec {h : Hierarchy} (hi : CachesInv cfg h) (k : Side) (b : Word)
    {data : List Word} (hd : data.length = cfg.blockWords) :
    ∃ h', installL1 cfg k h b data = .next h' ∧ CachesInv cfg h' ∧ h'.l1 k.other = h.l1 k.other ∧
      h'.mshr = h.mshr ∧ h'.iq = h.iq ∧ h'.dq = h.dq := by
  have hg := l1Geometry_wf hc k
  have h1 := hi.l1 k
  have hlen : setIndex cfg (l1Geometry cfg k) b < (h.l1 k).length := by
    rw [h1.1]; exact setIndex_lt hg b
  unfold installL1
  split
  · next w hf =>
    have hw := h1.find_lt hf
    refine ⟨_, rfl, hi.setL1 k (h1.touch hg hw) ?_, by simp, ?_⟩
    · rintro rfl; exact touch_clean hw hlen hi.l1iClean
    · cases k <;> exact ⟨rfl, rfl, rfl⟩
  · next hf =>
    obtain ⟨w, hv, hw, -⟩ := victimWay_of_inv (h1.waysAt hg b).1 (Geometry.wf_iff.1 hg).1
    rw [hv, andThen_next]
    have hvd : ((h.l1 k).block cfg (l1Geometry cfg k) b w).data.length = cfg.blockWords :=
      ((h1.waysAt hg b).2 _ (blockAt_mem hw)).1
    have hmid : ∃ l2 store,
        (if (((h.l1 k).block cfg (l1Geometry cfg k) b w).valid &&
            ((h.l1 k).block cfg (l1Geometry cfg k) b w).dirty) = true then
          writebackToL2 cfg h ((h.l1 k).residentAddr cfg (l1Geometry cfg k) b w)
            ((h.l1 k).block cfg (l1Geometry cfg k) b w).data
        else .next h) = .next { h with l2 := l2, store := store } ∧
        CacheInv cfg cfg.l2 l2 ∧ store.wf = true := by
      split
      · exact writebackToL2_spec hc hi _ hvd
      · exact ⟨h.l2, h.store, rfl, hi.l2, hi.store⟩
    obtain ⟨l2, store, he, h2, hs⟩ := hmid
    simp only [he, andThen_next]
    have hl1 : ∀ k', ({ h with l2 := l2, store := store } : Hierarchy).l1 k' = h.l1 k' := by
      intro k'; cases k' <;> rfl
    rw [hl1]
    refine ⟨_, rfl, (hi.setL2 h2 hs).setL1 k (h1.fill hg false hw hf hd) ?_, ?_, ?_⟩
    · rintro rfl
      refine touch_clean ?_ ?_ (setBlock_clean hlen rfl hi.l1iClean)
      · rw [Cache.ways_setBlock hg h1, if_pos rfl]; simpa using hw
      · simpa [Cache.setBlock] using hlen
    · rw [Hierarchy.l1_other_setL1, hl1]
    · cases k <;> exact ⟨rfl, rfl, rfl⟩

omit hc in
/-- `BlockBelowL1` is a whole block (R315). -/
theorem blockBelowL1_length {h : Hierarchy} (hi : CachesInv cfg h) (hg : cfg.l2.wf cfg.blockShift = true)
    (b : Word) : (blockBelowL1 cfg h b).length = cfg.blockWords := by
  unfold blockBelowL1
  split
  · next w hf => exact ((hi.l2.waysAt hg b).2 _ (blockAt_mem (hi.l2.find_lt hf))).1
  · exact dramReadBlock_length cfg _ _

omit hc in
theorem allocateMshr_length {t t' : List MshrEntry} {b : Word} (h : allocateMshr t b = some t') :
    t'.length = t.length := by
  induction t generalizing t' with
  | nil => simp [allocateMshr] at h
  | cons e t ih =>
    unfold allocateMshr at h
    split at h
    · obtain ⟨t'', h', rfl⟩ := Option.map_eq_some_iff.1 h
      simp [ih h']
    · cases h; rfl

omit hc in
theorem CachesInv.setMshr {h : Hierarchy} (hi : CachesInv cfg h) {t : List MshrEntry}
    (ht : t.length = h.mshr.length) : CachesInv cfg { h with mshr := t } :=
  ⟨hi.l1i, hi.l1d, hi.l2, hi.l1iClean, ht.trans hi.mshrs, hi.store⟩

/-- What one entry's advance keeps. -/
structure AdvanceKeeps (cfg : Config) (k : Side) (h : Hierarchy) (r : Stepped) : Prop where
  inv : CachesInv cfg r.hier
  other : r.hier.l1 k.other = h.l1 k.other
  iq : r.hier.iq = h.iq
  dq : r.hier.dq = h.dq

/-- One entry in one scan (R325 to R332). -/
theorem advanceEntry_spec {h : Hierarchy} (hi : CachesInv cfg h) (k : Side) (e : QueueEntry)
    (waited : Bool) :
    ∃ r, advanceEntry cfg k h e waited = .next r ∧ AdvanceKeeps cfg k h r ∧ r.entry.addr = e.addr := by
  have hg1 := l1Geometry_wf hc k
  have hg2 := l2Geometry_wf hc
  have hlen : setIndex cfg (l1Geometry cfg k) e.addr < (h.l1 k).length := by
    rw [(hi.l1 k).1]; exact setIndex_lt hg1 _
  unfold advanceEntry
  split
  · exact ⟨_, rfl, ⟨hi, rfl, rfl, rfl⟩, rfl⟩
  split
  · exact ⟨_, rfl, ⟨hi, rfl, rfl, rfl⟩, rfl⟩
  unfold stepEntry
  split
  · -- NOT_STALLED
    refine ⟨_, rfl, ?_⟩
    unfold stepNotStalled
    split
    · next w hf =>
      have hw := (hi.l1 k).find_lt hf
      refine ⟨⟨hi.setL1 k ((hi.l1 k).touch hg1 hw) ?_, by simp, ?_, ?_⟩, rfl⟩
      · rintro rfl; exact touch_clean hw hlen hi.l1iClean
      · cases k <;> rfl
      · cases k <;> rfl
    · split
      · next w hf =>
        refine ⟨⟨hi.setL2 (hi.l2.touch hg2 (hi.l2.find_lt hf)) hi.store, ?_, rfl, rfl⟩, rfl⟩
        cases k <;> rfl
      · split
        · exact ⟨⟨hi, rfl, rfl, rfl⟩, rfl⟩
        · split
          · next t ht =>
            refine ⟨⟨hi.setMshr (allocateMshr_length ht), ?_, rfl, rfl⟩, rfl⟩
            cases k <;> rfl
          · exact ⟨⟨hi, rfl, rfl, rfl⟩, rfl⟩
  · -- STALLED_ON_L2C_HIT
    unfold stepL2cHit
    obtain ⟨h', he, hi', ho, -, hiq, hdq⟩ :=
      installL1_spec hc hi k e.addr (blockBelowL1_length hi hg2 e.addr)
    rw [he]
    exact ⟨_, rfl, ⟨hi', ho, hiq, hdq⟩, rfl⟩
  · exact ⟨_, rfl, ⟨hi, rfl, rfl, rfl⟩, rfl⟩
  · refine ⟨_, rfl, ⟨hi.setMshr (by simp [markMshrDone]), ?_, rfl, rfl⟩, rfl⟩
    cases k <;> rfl
  · -- STALLED_ON_DRAM_RESPONSE
    unfold stepDramResponse
    obtain ⟨l2, store, he, h2, hs⟩ :=
      installL2_spec hc hi e.addr false (dramReadBlock_length cfg h.store e.addr)
    simp only [he, andThen_next]
    have hi1 := hi.setL2 h2 hs
    have hi2 := hi1.setMshr (t := releaseMshr h.mshr e.addr) (by simp [releaseMshr])
    split
    · obtain ⟨h', he', hi', ho, -, hiq, hdq⟩ :=
        installL1_spec hc hi2 k e.addr (blockBelowL1_length hi2 hg2 e.addr)
      simp only at he'
      rw [he']
      refine ⟨_, rfl, ⟨hi', ?_, hiq, hdq⟩, rfl⟩
      rw [ho]; cases k <;> rfl
    · refine ⟨_, rfl, ⟨hi2, ?_, rfl, rfl⟩, rfl⟩
      cases k <;> rfl

/-- A scan answers and keeps the invariant (R322). -/
theorem scanQueue_spec (k : Side) (b : Word) (q : List QueueEntry) {h : Hierarchy}
    (hi : CachesInv cfg h) :
    ∃ r, scanQueue cfg k b h q = .next r ∧ CachesInv cfg r.hier ∧ r.hier.l1 k.other = h.l1 k.other ∧
      r.hier.iq = h.iq ∧ r.hier.dq = h.dq ∧ r.entries.map (·.addr) = q.map (·.addr) := by
  induction q generalizing h with
  | nil => exact ⟨_, rfl, hi, rfl, rfl, rfl, rfl⟩
  | cons e q ih =>
    obtain ⟨r, hr, hk, ha⟩ := advanceEntry_spec hc hi k e (e.addr == b)
    obtain ⟨t, ht, hi', ho, hiq, hdq, hm⟩ := ih hk.inv
    refine ⟨⟨t.hier, r.entry :: t.entries, (e.addr == b && r.finished) || t.avail⟩, ?_, hi',
      ho.trans hk.other, hiq.trans hk.iq, hdq.trans hk.dq, by simp [ha, hm]⟩
    simp only [scanQueue, hr, ht, andThen_next]

/-- `Load` answers, keeps the invariant, and leaves the other side's first-level cache and queue alone
(R320, R322). -/
theorem load_spec {h : Hierarchy} (hi : CachesInv cfg h) (k : Side) (a : Word) :
    ∃ r, load cfg k h a = .next r ∧ CachesInv cfg r.hier ∧ r.hier.l1 k.other = h.l1 k.other ∧
      r.hier.queue k.other = h.queue k.other := by
  obtain ⟨t, ht, hi', ho, hiq, hdq, -⟩ :=
    scanQueue_spec hc k (blockAddr cfg a) (enqueue (h.queue k) (blockAddr cfg a)) hi
  refine ⟨_, by simp only [load, ht, andThen_next]; rfl, ?_, ?_, ?_⟩
  · cases k <;> exact ⟨hi'.l1i, hi'.l1d, hi'.l2, hi'.l1iClean, hi'.mshrs, hi'.store⟩
  · rw [← ho]; cases k <;> rfl
  · cases k
    · exact hdq
    · exact hiq

end Whole

end Sys2Proof.Machine
end

