-- ==== Sys2Proof/Laws/PerInstr.lean ====
section
/-! SUPPORT. The per-instruction family of LAWS.json: the word the encoder writes for an instruction
matches that instruction's row of spec/opcode_table.json. -/

namespace Sys2Proof.Laws.EncodesItsRow

/-- `encode i` matches the row of `i`. -/
def Statement (i : Instr) : Prop := i.matchedBy (encode i) = true

theorem sll (rd rt : Reg) (shamt : BitVec 5) : Statement (.sll rd rt shamt) :=
  (admits_specialRow _ (by decide) _).2 ⟨by simp [encode], by simp [encode]⟩

theorem srl (rd rt : Reg) (shamt : BitVec 5) : Statement (.srl rd rt shamt) :=
  (admits_specialRow _ (by decide) _).2 ⟨by simp [encode], by simp [encode]⟩

theorem sra (rd rt : Reg) (shamt : BitVec 5) : Statement (.sra rd rt shamt) :=
  (admits_specialRow _ (by decide) _).2 ⟨by simp [encode], by simp [encode]⟩

theorem sllv (rd rt rs : Reg) : Statement (.sllv rd rt rs) :=
  (admits_specialRow _ (by decide) _).2 ⟨by simp [encode], by simp [encode]⟩

theorem srlv (rd rt rs : Reg) : Statement (.srlv rd rt rs) :=
  (admits_specialRow _ (by decide) _).2 ⟨by simp [encode], by simp [encode]⟩

theorem srav (rd rt rs : Reg) : Statement (.srav rd rt rs) :=
  (admits_specialRow _ (by decide) _).2 ⟨by simp [encode], by simp [encode]⟩

theorem jr (rs : Reg) : Statement (.jr rs) :=
  (admits_specialRow _ (by decide) _).2 ⟨by simp [encode], by simp [encode]⟩

theorem jalr (rd rs : Reg) : Statement (.jalr rd rs) :=
  (admits_specialRow _ (by decide) _).2 ⟨by simp [encode], by simp [encode]⟩

theorem syscall : Statement .syscall :=
  (admits_specialRow _ (by decide) _).2 ⟨by simp [encode], by simp [encode]⟩

theorem mfhi (rd : Reg) : Statement (.mfhi rd) :=
  (admits_specialRow _ (by decide) _).2 ⟨by simp [encode], by simp [encode]⟩

theorem mthi (rs : Reg) : Statement (.mthi rs) :=
  (admits_specialRow _ (by decide) _).2 ⟨by simp [encode], by simp [encode]⟩

theorem mflo (rd : Reg) : Statement (.mflo rd) :=
  (admits_specialRow _ (by decide) _).2 ⟨by simp [encode], by simp [encode]⟩

theorem mtlo (rs : Reg) : Statement (.mtlo rs) :=
  (admits_specialRow _ (by decide) _).2 ⟨by simp [encode], by simp [encode]⟩

theorem mult (rs rt : Reg) : Statement (.mult rs rt) :=
  (admits_specialRow _ (by decide) _).2 ⟨by simp [encode], by simp [encode]⟩

theorem multu (rs rt : Reg) : Statement (.multu rs rt) :=
  (admits_specialRow _ (by decide) _).2 ⟨by simp [encode], by simp [encode]⟩

theorem div (rs rt : Reg) : Statement (.div rs rt) :=
  (admits_specialRow _ (by decide) _).2 ⟨by simp [encode], by simp [encode]⟩

theorem divu (rs rt : Reg) : Statement (.divu rs rt) :=
  (admits_specialRow _ (by decide) _).2 ⟨by simp [encode], by simp [encode]⟩

theorem add (rd rs rt : Reg) : Statement (.add rd rs rt) :=
  (admits_specialRow _ (by decide) _).2 ⟨by simp [encode], by simp [encode]⟩

theorem addu (rd rs rt : Reg) : Statement (.addu rd rs rt) :=
  (admits_specialRow _ (by decide) _).2 ⟨by simp [encode], by simp [encode]⟩

theorem sub (rd rs rt : Reg) : Statement (.sub rd rs rt) :=
  (admits_specialRow _ (by decide) _).2 ⟨by simp [encode], by simp [encode]⟩

theorem subu (rd rs rt : Reg) : Statement (.subu rd rs rt) :=
  (admits_specialRow _ (by decide) _).2 ⟨by simp [encode], by simp [encode]⟩

theorem and (rd rs rt : Reg) : Statement (.and rd rs rt) :=
  (admits_specialRow _ (by decide) _).2 ⟨by simp [encode], by simp [encode]⟩

theorem or (rd rs rt : Reg) : Statement (.or rd rs rt) :=
  (admits_specialRow _ (by decide) _).2 ⟨by simp [encode], by simp [encode]⟩

theorem xor (rd rs rt : Reg) : Statement (.xor rd rs rt) :=
  (admits_specialRow _ (by decide) _).2 ⟨by simp [encode], by simp [encode]⟩

theorem nor (rd rs rt : Reg) : Statement (.nor rd rs rt) :=
  (admits_specialRow _ (by decide) _).2 ⟨by simp [encode], by simp [encode]⟩

theorem slt (rd rs rt : Reg) : Statement (.slt rd rs rt) :=
  (admits_specialRow _ (by decide) _).2 ⟨by simp [encode], by simp [encode]⟩

theorem sltu (rd rs rt : Reg) : Statement (.sltu rd rs rt) :=
  (admits_specialRow _ (by decide) _).2 ⟨by simp [encode], by simp [encode]⟩

theorem bltz (rs : Reg) (off : BitVec 16) : Statement (.bltz rs off) :=
  (admits_regimmRow _ (by decide) _).2 ⟨by simp [encode], by simp [encode]⟩

theorem bgez (rs : Reg) (off : BitVec 16) : Statement (.bgez rs off) :=
  (admits_regimmRow _ (by decide) _).2 ⟨by simp [encode], by simp [encode]⟩

theorem bltzal (rs : Reg) (off : BitVec 16) : Statement (.bltzal rs off) :=
  (admits_regimmRow _ (by decide) _).2 ⟨by simp [encode], by simp [encode]⟩

theorem bgezal (rs : Reg) (off : BitVec 16) : Statement (.bgezal rs off) :=
  (admits_regimmRow _ (by decide) _).2 ⟨by simp [encode], by simp [encode]⟩

theorem j (target : BitVec 26) : Statement (.j target) :=
  (admits_primaryRow _ (by decide) _).2 (by simp [encode])

theorem jal (target : BitVec 26) : Statement (.jal target) :=
  (admits_primaryRow _ (by decide) _).2 (by simp [encode])

theorem beq (rs rt : Reg) (off : BitVec 16) : Statement (.beq rs rt off) :=
  (admits_primaryRow _ (by decide) _).2 (by simp [encode])

theorem bne (rs rt : Reg) (off : BitVec 16) : Statement (.bne rs rt off) :=
  (admits_primaryRow _ (by decide) _).2 (by simp [encode])

theorem blez (rs : Reg) (off : BitVec 16) : Statement (.blez rs off) :=
  (admits_primaryRow _ (by decide) _).2 (by simp [encode])

theorem bgtz (rs : Reg) (off : BitVec 16) : Statement (.bgtz rs off) :=
  (admits_primaryRow _ (by decide) _).2 (by simp [encode])

theorem addi (rt rs : Reg) (imm : BitVec 16) : Statement (.addi rt rs imm) :=
  (admits_primaryRow _ (by decide) _).2 (by simp [encode])

theorem addiu (rt rs : Reg) (imm : BitVec 16) : Statement (.addiu rt rs imm) :=
  (admits_primaryRow _ (by decide) _).2 (by simp [encode])

theorem slti (rt rs : Reg) (imm : BitVec 16) : Statement (.slti rt rs imm) :=
  (admits_primaryRow _ (by decide) _).2 (by simp [encode])

theorem sltiu (rt rs : Reg) (imm : BitVec 16) : Statement (.sltiu rt rs imm) :=
  (admits_primaryRow _ (by decide) _).2 (by simp [encode])

theorem andi (rt rs : Reg) (imm : BitVec 16) : Statement (.andi rt rs imm) :=
  (admits_primaryRow _ (by decide) _).2 (by simp [encode])

theorem ori (rt rs : Reg) (imm : BitVec 16) : Statement (.ori rt rs imm) :=
  (admits_primaryRow _ (by decide) _).2 (by simp [encode])

theorem xori (rt rs : Reg) (imm : BitVec 16) : Statement (.xori rt rs imm) :=
  (admits_primaryRow _ (by decide) _).2 (by simp [encode])

theorem lui (rt : Reg) (imm : BitVec 16) : Statement (.lui rt imm) :=
  (admits_primaryRow _ (by decide) _).2 (by simp [encode])

theorem lb (rt : Reg) (off : BitVec 16) (rs : Reg) : Statement (.lb rt off rs) :=
  (admits_primaryRow _ (by decide) _).2 (by simp [encode])

theorem lh (rt : Reg) (off : BitVec 16) (rs : Reg) : Statement (.lh rt off rs) :=
  (admits_primaryRow _ (by decide) _).2 (by simp [encode])

theorem lw (rt : Reg) (off : BitVec 16) (rs : Reg) : Statement (.lw rt off rs) :=
  (admits_primaryRow _ (by decide) _).2 (by simp [encode])

theorem lbu (rt : Reg) (off : BitVec 16) (rs : Reg) : Statement (.lbu rt off rs) :=
  (admits_primaryRow _ (by decide) _).2 (by simp [encode])

theorem lhu (rt : Reg) (off : BitVec 16) (rs : Reg) : Statement (.lhu rt off rs) :=
  (admits_primaryRow _ (by decide) _).2 (by simp [encode])

theorem sb (rt : Reg) (off : BitVec 16) (rs : Reg) : Statement (.sb rt off rs) :=
  (admits_primaryRow _ (by decide) _).2 (by simp [encode])

theorem sh (rt : Reg) (off : BitVec 16) (rs : Reg) : Statement (.sh rt off rs) :=
  (admits_primaryRow _ (by decide) _).2 (by simp [encode])

theorem sw (rt : Reg) (off : BitVec 16) (rs : Reg) : Statement (.sw rt off rs) :=
  (admits_primaryRow _ (by decide) _).2 (by simp [encode])

end Sys2Proof.Laws.EncodesItsRow
end

