-- ==== Sys2Proof/Laws/Stages.lean ====
section
/-! SUPPORT. The handlers around execute: everything each can do, and what a step is made of. -/

namespace Sys2Proof.Machine

/-! ### memory_stage (42 R140) -/

/-- Everything `Mem()` can do when it answers a next state. -/
inductive MemOutcome (s : State) : State → Prop where
  /-- ME is empty (R140) -/
  | empty (h : s.me = none) : MemOutcome s s
  /-- WB is occupied (R141) -/
  | held (op : Op) (h : s.me = some op) (hw : s.wb.isSome = true) : MemOutcome s s
  /-- a non-memory Op (R142) -/
  | pass (op : Op) (h : s.me = some op) (hw : s.wb = none) (hm : op.isMem = false) :
      MemOutcome s (s.moveToWb op)
  /-- the request is Pending (R148) -/
  | wait (op : Op) (r : Loaded) (h : s.me = some op) (hw : s.wb = none) (hm : op.isMem = true)
      (hl : load s.cfg .d s.hier op.memAddr = .next r) (hp : r.word = none) :
      MemOutcome s (s.setHier r.hier)
  /-- a load completes (R146) -/
  | load (op : Op) (r : Loaded) (w : Word) (h : s.me = some op) (hw : s.wb = none)
      (hm : op.isMem = true) (hl : load s.cfg .d s.hier op.memAddr = .next r) (ha : r.word = some w)
      (hr : op.memWrite = false) :
      MemOutcome s ((s.setHier r.hier).moveToWb
        { op with dstVal := extractWord op.opcode op.memAddr w, dstReady := true })
  /-- a store completes (R147) -/
  | store (op : Op) (r : Loaded) (w : Word) (hier : Hierarchy) (h : s.me = some op) (hw : s.wb = none)
      (hm : op.isMem = true) (hl : Machine.load s.cfg .d s.hier op.memAddr = .next r)
      (ha : r.word = some w) (hr : op.memWrite = true)
      (hs : storeWord s.cfg r.hier op.memAddr (mergeWord op.opcode op.memAddr w op.memValue) = .next hier) :
      MemOutcome s ((s.setHier hier).moveToWb op)

theorem memStage_outcome {s t : State} (h : memStage s = .next t) : MemOutcome s t := by
  unfold memStage at h
  split at h
  · next hm => cases h; exact .empty hm
  · next op hm =>
    split at h
    · next hw => cases h; exact .held op hm hw
    · next hw =>
      have hw : s.wb = none := by simpa using hw
      split at h
      · next hmem =>
        obtain ⟨r, hl, h⟩ := andThen_eq_next.1 h
        split at h
        · next hp => cases h; exact .wait op r hm hw hmem hl hp
        · next w ha =>
          unfold completeAccess at h
          split at h
          · next hr =>
            obtain ⟨hier, hs, h⟩ := andThen_eq_next.1 h
            cases h
            exact .store op r w hier hm hw hmem hl ha hr hs
          · next hr => cases h; exact .load op r w hm hw hmem hl ha (by simpa using hr)
      · next hmem => cases h; exact .pass op hm hw (by simpa using hmem)

/-- `Mem()` touches ME, WB and the hierarchy only. -/
theorem memStage_frame {s t : State} (h : memStage s = .next t) :
    t = { s with me := t.me, wb := t.wb, hier := t.hier } := by
  cases memStage_outcome h <;> rfl

/-- A non-memory Op passes through mem (R142). -/
theorem Op.passesMem {m : Op} (h : m.isMem = false) : m.PassesMem := by
  intro u hu hw
  simp [memStage, hu, hw, h, State.moveToWb]

/-! ### writeback_stage (41 R130) -/

/-- `Writeback()` touches the register file, `run`, WB and the retirement counter only. -/
theorem writebackStage_frame (s : State) :
    writebackStage s =
      { s with
        regs := (writebackStage s).regs, run := (writebackStage s).run, wb := none
        statRetired := (writebackStage s).statRetired } := by
  unfold writebackStage
  split
  · next h => rw [← h]
  · unfold State.retire State.haltIf State.commit State.writeReg
    split <;> split <;> (try split) <;> rfl

/-- WB is empty after writeback. -/
@[simp] theorem writebackStage_wb (s : State) : (writebackStage s).wb = none := by
  rw [writebackStage_frame]

/-- A non-halting Op with a destination commits it and nothing else (R131, R132). -/
theorem Op.commitsReg {m : Op} {rd : Reg} (hd : m.dst = some rd) (hh : m.isHaltSyscall = false) :
    m.CommitsReg rd m.dstVal := by
  intro z hz
  simp only [writebackStage, hz, State.commit, hd, State.haltIf, hh, State.writeReg, State.retire]
  by_cases h : rd = 0#5 <;> simp [h]

/-- A non-halting Op without a destination commits nothing. -/
theorem Op.commitsNothing {m : Op} (hd : m.dst = none) (hh : m.isHaltSyscall = false) :
    m.CommitsNothing := by
  intro z hz
  simp [writebackStage, hz, State.commit, hd, State.haltIf, hh, State.retire]

/-- Only an Op whose sub-opcode is SYSCALL's, in SPECIAL, can halt (R133). -/
theorem Op.notHalt_of_subop {m : Op} (h : m.subop ≠ 0x0C#6) : m.isHaltSyscall = false := by
  simp [Op.isHaltSyscall, h]

theorem Op.notHalt_of_opcode {m : Op} (h : m.opcode ≠ 0#6) : m.isHaltSyscall = false := by
  simp [Op.isHaltSyscall, h]

/-- An Op that is no memory access, with a ready result, delivers it. -/
theorem Op.delivers {m : Op} {rd : Reg} {v : Word} (hd : m.dst = some rd) (hv : m.dstVal = v)
    (hr : m.dstReady = true) (hm : m.isMem = false) (hh : m.isHaltSyscall = false) : m.Delivers rd v :=
  ⟨hd, hv, hr, Op.passesMem hm, hv ▸ Op.commitsReg hd hh⟩

/-- An Op that is no memory access and has no destination delivers nothing. -/
theorem Op.deliversNothing {m : Op} (hd : m.dst = none) (hm : m.isMem = false)
    (hh : m.isHaltSyscall = false) : m.DeliversNothing :=
  ⟨hd, Op.passesMem hm, Op.commitsNothing hd hh⟩

/-- An Op of a non-SYSCALL instruction, as execute resolved it, does not halt. -/
theorem State.withOperands_notHalt {s : State} {op : Op} {i : Instr} (h : subopOf (encode i) ≠ 0x0C#6) :
    (s.withOperands (op.readAs i)).isHaltSyscall = false :=
  Op.notHalt_of_subop h

/-- `haltIf` as one update of `run`. -/
theorem State.haltIf_eq (s : State) (op : Op) :
    s.haltIf op = { s with run := if op.isHaltSyscall then false else s.run } := by
  unfold State.haltIf
  cases op.isHaltSyscall <;> rfl

/-- A memory Op that reads loads its address's word (42 R140, R146 to R149). -/
theorem Op.loadsInto {m : Op} {rt : Reg} {ea : Word} {f : Word → Word} (hd : m.dst = some rt)
    (ha : m.memAddr = ea) (hm : m.isMem = true) (hw : m.memWrite = false)
    (hf : ∀ w, extractWord m.opcode ea w = f w) (hh : m.isHaltSyscall = false) :
    m.LoadsInto rt ea f := by
  refine ⟨hd, ha, fun u r hu hwb hl => ?_⟩
  cases hr : r.word with
  | none =>
    simp only [memStage, hu, hwb, hm, ha, hl, hr, andThen_next, Option.isSome_none,
      Bool.false_eq_true, if_false, if_true, State.setHier]
  | some w =>
    refine ⟨{ m with dstVal := extractWord m.opcode ea w, dstReady := true }, ?_, hd, hf w, ?_⟩
    · simp only [memStage, hu, hwb, hm, ha, hl, hr, andThen_next, Option.isSome_none,
        Bool.false_eq_true, if_false, if_true, completeAccess, hw, State.moveToWb, State.setHier]
    · have hc := Op.commitsReg (m := { m with dstVal := extractWord m.opcode ea w, dstReady := true })
        hd hh
      rw [← hf w]
      exact hc

/-- A memory Op that writes stores into its address's word (42 R140, R144, R147). -/
theorem Op.storesTo {m : Op} {ea : Word} {f : Word → Word} (hd : m.dst = none) (ha : m.memAddr = ea)
    (hm : m.isMem = true) (hw : m.memWrite = true)
    (hf : ∀ w, mergeWord m.opcode ea w m.memValue = f w) (hh : m.isHaltSyscall = false) :
    m.StoresTo ea f := by
  refine ⟨hd, ha, fun u r hu hwb hl => ?_, Op.commitsNothing hd hh⟩
  cases hr : r.word with
  | none =>
    simp only [memStage, hu, hwb, hm, ha, hl, hr, andThen_next, Option.isSome_none,
      Bool.false_eq_true, if_false, if_true, State.setHier]
  | some w =>
    intro h hs
    rw [← hf w] at hs
    simp only [memStage, hu, hwb, hm, ha, hl, hr, andThen_next, Option.isSome_none,
      Bool.false_eq_true, if_false, if_true, completeAccess, hw, State.moveToWb, State.setHier, hs]

/-! ### decode_stage (44 R200) -/

/-- Everything `Decode()` can do. -/
theorem decodeStage_cases (s : State) :
    (decodeStage s = s ∧ (s.de = none ∨ s.ex.isSome = true)) ∨
    (∃ op, s.de = some op ∧ s.ex = none ∧ decodeStage s = { s with de := none, ex := some op.decode }) := by
  unfold decodeStage
  split
  · next h => exact .inl ⟨rfl, .inl h⟩
  · next op h =>
    split
    · next hx => exact .inl ⟨rfl, .inr hx⟩
    · next hx => exact .inr ⟨op, h, by simpa using hx, rfl⟩

/-! ### fetch_stage (45 R220, R243) -/

/-- Everything `Fetch()` can do when it answers a next state. -/
inductive FetchOutcome (s : State) : State → Prop where
  /-- halted (R222) -/
  | halted (h : s.run = false) : FetchOutcome s { s with pc := nextSeq s.pc }
  /-- the word has not arrived (R225) -/
  | wait (r : Loaded) (h : s.run = true) (hl : load s.cfg .i s.hier s.pc = .next r)
      (hp : r.word = none) : FetchOutcome s (s.setHier r.hier)
  /-- the word has arrived and DE is occupied (R226) -/
  | full (r : Loaded) (w : Word) (h : s.run = true) (hl : load s.cfg .i s.hier s.pc = .next r)
      (ha : r.word = some w) (hd : s.de.isSome = true) : FetchOutcome s (s.setHier r.hier)
  /-- the word is delivered (R228 to R230) -/
  | deliver (r : Loaded) (w : Word) (h : s.run = true) (hl : load s.cfg .i s.hier s.pc = .next r)
      (ha : r.word = some w) (hd : s.de = none) :
      FetchOutcome s
        { s.setHier r.hier with
          de := some (newOp s.pc w (s.predict s.pc))
          pc := (s.predict s.pc).nextPc
          statFetched := s.statFetched + 1 }

theorem fetchStage_outcome {s t : State} (h : fetchStage s = .next t) : FetchOutcome s t := by
  unfold fetchStage at h
  split at h
  · next hr =>
    unfold fetchRunning at h
    obtain ⟨r, hl, h⟩ := andThen_eq_next.1 h
    split at h
    · next hp => cases h; exact .wait r hr hl hp
    · next w ha =>
      cases h
      cases hd : s.de with
      | none =>
        rw [State.deliver_of_free _ _ (by simpa using hd)]
        exact .deliver r w hr hl ha hd
      | some op =>
        rw [State.deliver_of_occupied _ _ (by simp [hd])]
        exact .full r w hr hl ha (by simp [hd])
  · next hr => cases h; exact .halted (by simpa using hr)

/-- `Fetch()` touches DE, PC, the fetch counter and the hierarchy only. -/
theorem fetchStage_frame {s t : State} (h : fetchStage s = .next t) :
    t = { s with de := t.de, pc := t.pc, statFetched := t.statFetched, hier := t.hier } := by
  cases fetchStage_outcome h <;> rfl

/-! ### A step (40 R110) -/

/-- The handlers of a step, one after the other. -/
theorem step_eq_next {s t : State} :
    step s = .next t ↔ s.stopped = false ∧ s.cfg.wf = true ∧ ∃ s1 s2 s3,
      memStage (writebackStage s) = .next s1 ∧ executeStage s1 = .next s2 ∧
        fetchStage (decodeStage s2) = .next s3 ∧ t = s3.applyRecovery := by
  unfold step cycle
  by_cases h1 : s.stopped = true
  · simp [h1]
  · by_cases h2 : s.cfg.wf = true
    · simp only [h1, h2, if_true, Bool.false_eq_true, if_false, andThen_eq_next, true_and] at *
      constructor
      · rintro ⟨s1, a, s2, b, s3, c, d⟩
        cases d
        exact ⟨s1, s2, s3, a, b, c, rfl⟩
      · rintro ⟨s1, s2, s3, a, b, c, rfl⟩
        exact ⟨s1, a, s2, b, s3, c, rfl⟩
    · simp [h1, h2]

end Sys2Proof.Machine
end

