-- ==== Sys2Proof/Laws/Views.lean ====
section
/-! SUPPORT. Blocks of the flat store read word by word, and what the cache operations do to the copy of a
block: a touch moves none, new data changes one, a fill brings one and drops the one its way held. -/

namespace Sys2Proof.Machine

/-! ### Blocks of the flat store (47 R316, R317) -/

/-- A word read looks at the aligned word only. -/
theorem Memory.readWord_congr (m : Memory) {a b : Word} (h : wordAddr a = wordAddr b) :
    m.readWord a = m.readWord b := by
  simp only [Memory.readWord, h]

/-- Writing successive words from an aligned address, without passing the top of the space. -/
theorem readWord_writeWords {m : Memory} (h : m.wf = true) {b : Word} (hb : wordAddr b = b)
    (ws : List Word) (hl : b.toNat + 4 * ws.length ≤ 2 ^ 32) (a : Word) :
    (writeWords m b ws).readWord a =
      if b.toNat ≤ (wordAddr a).toNat ∧ (wordAddr a).toNat < b.toNat + 4 * ws.length then
        ws.getD (((wordAddr a).toNat - b.toNat) / 4) 0
      else m.readWord a := by
  induction ws generalizing m b with
  | nil => rw [if_neg (by simp)]; rfl
  | cons v ws ih =>
    have hal : b.toNat / 4 * 4 = b.toNat := by rw [← wordAddr_toNat, hb]
    have hala : (wordAddr a).toNat / 4 * 4 = (wordAddr a).toNat := by
      rw [wordAddr_toNat]; omega
    simp only [List.length_cons] at hl ⊢
    show (writeWords (m.writeWord b v) (b + 4) ws).readWord a = _
    by_cases hw : ws = []
    · subst hw
      show (m.writeWord b v).readWord a = _
      rw [Memory.readWord_writeWord h, hb]
      by_cases e : b = wordAddr a
      · rw [if_pos e, if_pos (by rw [e]; simp), e]; simp
      · rw [if_neg e, if_neg]
        intro hh
        apply e
        apply BitVec.eq_of_toNat_eq
        simp at hh
        omega
    · have hlen : 0 < ws.length := List.length_pos_iff.2 hw
      have hb4 : (b + 4).toNat = b.toNat + 4 := by
        rw [BitVec.toNat_add]
        show (b.toNat + 4) % 2 ^ 32 = _
        omega
      have hal4 : wordAddr (b + 4) = b + 4 := by
        apply BitVec.eq_of_toNat_eq
        rw [wordAddr_toNat, hb4]; omega
      rw [ih (Memory.wf_writeWord h b v) hal4 (by omega), hb4, Memory.readWord_writeWord h, hb]
      by_cases e : b = wordAddr a
      · rw [if_neg (by rw [e]; omega), if_pos e, if_pos (by rw [e]; omega), e]; simp
      · have hne : b.toNat ≠ (wordAddr a).toNat := fun h => e (BitVec.eq_of_toNat_eq h)
        rw [if_neg e]
        by_cases hin : b.toNat + 4 ≤ (wordAddr a).toNat ∧ (wordAddr a).toNat < b.toNat + 4 + 4 * ws.length
        · rw [if_pos hin, if_pos (by omega)]
          have : ((wordAddr a).toNat - b.toNat) / 4 = ((wordAddr a).toNat - (b.toNat + 4)) / 4 + 1 := by
            omega
          rw [this, List.getD_cons_succ]
        · rw [if_neg hin, if_neg (by omega)]

section Blocks
variable {cfg : Config} (hs : 2 + cfg.blockShift ≤ 32)
include hs

/-- `Config.wf` gives the bound the block arithmetic needs. -/
theorem blockAddr_add_lt (a : Word) : (blockAddr cfg a).toNat + 4 * cfg.blockWords ≤ 2 ^ 32 := by
  have hp : 2 ^ (32 - (2 + cfg.blockShift)) * 2 ^ (2 + cfg.blockShift) = 2 ^ 32 := by
    rw [← Nat.pow_add]; congr 1; omega
  have hlt : a.toNat / 2 ^ (2 + cfg.blockShift) < 2 ^ (32 - (2 + cfg.blockShift)) := by
    rw [Nat.div_lt_iff_lt_mul (Nat.two_pow_pos _), hp]; exact a.isLt
  rw [blockAddr_toNat, four_mul_blockWords, ← hp]
  calc _ = (a.toNat / 2 ^ (2 + cfg.blockShift) + 1) * 2 ^ (2 + cfg.blockShift) := by ring
    _ ≤ _ := Nat.mul_le_mul_right _ hlt

omit hs in
theorem wordAddr_blockAddr (a : Word) : wordAddr (blockAddr cfg a) = blockAddr cfg a := by
  apply BitVec.eq_of_toNat_eq
  rw [wordAddr_toNat, blockAddr_toNat, Nat.pow_add]
  have : a.toNat / (2 ^ 2 * 2 ^ cfg.blockShift) * (2 ^ 2 * 2 ^ cfg.blockShift) =
      (a.toNat / (2 ^ 2 * 2 ^ cfg.blockShift) * 2 ^ cfg.blockShift) * 4 := by ring
  rw [this, Nat.mul_div_cancel _ (by decide)]

/-- A cache of one set: any geometry shows what does not depend on it. -/
theorem oneSet_wf : Geometry.wf ⟨0, 1⟩ cfg.blockShift = true := Geometry.wf_iff.2 ⟨by decide, by simpa using hs⟩

theorem wordOffset_toNat (a : Word) : wordOffset cfg a = a.toNat / 4 % cfg.blockWords :=
  wordOffset_eq (oneSet_wf hs) a

theorem wordOffset_bound (a : Word) : wordOffset cfg a < cfg.blockWords := wordOffset_lt (oneSet_wf hs) a

/-- The word address as block address plus offset. -/
theorem wordAddr_split (a : Word) :
    (wordAddr a).toNat = (blockAddr cfg a).toNat + 4 * wordOffset cfg a :=
  wordAddr_eq_block (oneSet_wf hs) a

/-- Same block and same offset, same word. -/
theorem wordAddr_eq_of_block {a b : Word} (hb : blockAddr cfg a = blockAddr cfg b)
    (ho : wordOffset cfg a = wordOffset cfg b) : wordAddr a = wordAddr b := by
  apply BitVec.eq_of_toNat_eq
  rw [wordAddr_split hs, wordAddr_split hs b, hb, ho]

/-- Same word, same block and same offset. -/
theorem block_of_wordAddr_eq {a b : Word} (h : wordAddr a = wordAddr b) :
    blockAddr cfg a = blockAddr cfg b ∧ wordOffset cfg a = wordOffset cfg b := by
  have h4 : a.toNat / 4 = b.toNat / 4 := by
    have := congrArg BitVec.toNat h
    rw [wordAddr_toNat, wordAddr_toNat] at this
    omega
  refine ⟨?_, by rw [wordOffset_toNat hs, wordOffset_toNat hs, h4]⟩
  apply BitVec.eq_of_toNat_eq
  rw [blockAddr_toNat, blockAddr_toNat, Nat.pow_add, ← Nat.div_div_eq_div_mul,
    ← Nat.div_div_eq_div_mul, show (2 : Nat) ^ 2 = 4 from rfl, h4]

/-- A word lies in the range of a block exactly when that is its block. -/
theorem in_block_iff (a b : Word) :
    ((blockAddr cfg b).toNat ≤ (wordAddr a).toNat ∧
      (wordAddr a).toNat < (blockAddr cfg b).toNat + 4 * cfg.blockWords) ↔
      blockAddr cfg a = blockAddr cfg b := by
  have ho := wordOffset_bound hs a
  have ha := wordAddr_split hs a
  constructor
  · intro h
    apply BitVec.eq_of_toNat_eq
    rw [ha] at h
    rw [blockAddr_toNat, blockAddr_toNat] at *
    rw [four_mul_blockWords] at h
    have h4 : 4 * wordOffset cfg a < 2 ^ (2 + cfg.blockShift) := by
      rw [← four_mul_blockWords]; omega
    have hpos := Nat.two_pow_pos (2 + cfg.blockShift)
    congr 1
    rcases Nat.lt_trichotomy (a.toNat / 2 ^ (2 + cfg.blockShift)) (b.toNat / 2 ^ (2 + cfg.blockShift)) with
      hlt | heq | hgt
    · exfalso
      have := Nat.mul_le_mul_right (2 ^ (2 + cfg.blockShift)) (Nat.succ_le_of_lt hlt)
      rw [Nat.succ_mul] at this
      omega
    · exact heq
    · exfalso
      have := Nat.mul_le_mul_right (2 ^ (2 + cfg.blockShift)) (Nat.succ_le_of_lt hgt)
      rw [Nat.succ_mul] at this
      omega
  · intro h
    rw [ha, h]
    omega

/-- Word `i` of a block. -/
theorem block_word_toNat (a : Word) {i : Nat} (hi : i < cfg.blockWords) :
    (blockAddr cfg a + BitVec.ofNat 32 (4 * i)).toNat = (blockAddr cfg a).toNat + 4 * i := by
  have := blockAddr_add_lt hs a
  rw [BitVec.toNat_add, BitVec.toNat_ofNat]
  omega

/-- A block read from the flat store, word by word. -/
theorem dramReadBlock_getD (m : Memory) (a : Word) :
    (dramReadBlock cfg m (blockAddr cfg a)).getD (wordOffset cfg a) 0 = m.readWord a := by
  have ho := wordOffset_bound hs a
  rw [List.getD_eq_getElem _ _ (by rw [dramReadBlock_length]; exact ho)]
  simp only [dramReadBlock, blockWordAddrs, List.map_map, List.getElem_map, List.getElem_range,
    Function.comp_apply]
  apply Memory.readWord_congr
  apply BitVec.eq_of_toNat_eq
  have hw := wordAddr_split hs a
  rw [wordAddr_toNat, block_word_toNat hs a ho, ← hw]
  have := congrArg BitVec.toNat (wordAddr_wordAddr a)
  rw [wordAddr_toNat] at this
  exact this

/-- Two blocks are equal if their words are. -/
theorem block_ext {d e : List Word} (hd : d.length = cfg.blockWords) (he : e.length = cfg.blockWords)
    (b : Word) (h : ∀ a, blockAddr cfg a = blockAddr cfg b →
      d.getD (wordOffset cfg a) 0 = e.getD (wordOffset cfg a) 0) : d = e := by
  apply List.ext_getElem (by rw [hd, he])
  intro i h1 h2
  have hi : i < cfg.blockWords := by omega
  have hp := block_word_toNat hs b hi
  have hblk : blockAddr cfg (blockAddr cfg b + BitVec.ofNat 32 (4 * i)) = blockAddr cfg b := by
    rw [← in_block_iff hs]
    have hw : (wordAddr (blockAddr cfg b + BitVec.ofNat 32 (4 * i))).toNat =
        (blockAddr cfg b).toNat + 4 * i := by
      have := congrArg BitVec.toNat (wordAddr_blockAddr (cfg := cfg) b)
      rw [wordAddr_toNat] at this
      rw [wordAddr_toNat, hp]; omega
    omega
  have hoff : wordOffset cfg (blockAddr cfg b + BitVec.ofNat 32 (4 * i)) = i := by
    have := congrArg BitVec.toNat (wordAddr_blockAddr (cfg := cfg) b)
    rw [wordAddr_toNat] at this
    have hw := wordAddr_split hs (blockAddr cfg b + BitVec.ofNat 32 (4 * i))
    rw [wordAddr_toNat, hp, hblk] at hw
    omega
  have := h _ hblk
  rw [hoff, List.getD_eq_getElem _ _ h1, List.getD_eq_getElem _ _ h2] at this
  exact this

/-- Reading a block after a block was written. -/
theorem dramReadBlock_writeWords {m : Memory} (h : m.wf = true) (a b : Word) {ws : List Word}
    (hl : ws.length = cfg.blockWords) :
    dramReadBlock cfg (writeWords m (blockAddr cfg b) ws) (blockAddr cfg a) =
      if blockAddr cfg a = blockAddr cfg b then ws else dramReadBlock cfg m (blockAddr cfg a) := by
  have hbnd := blockAddr_add_lt hs b
  have hread := fun x => readWord_writeWords h (wordAddr_blockAddr b) ws (by rw [hl]; exact hbnd) x
  rw [hl] at hread
  split
  · next e =>
    refine block_ext hs (dramReadBlock_length _ _ _) hl a fun x hx => ?_
    have h1 := dramReadBlock_getD hs (writeWords m (blockAddr cfg b) ws) x
    rw [hx] at h1
    rw [h1, hread, if_pos ((in_block_iff hs x b).2 (hx.trans e)), wordAddr_split hs x, hx, e]
    congr 1
    omega
  · next e =>
    refine block_ext hs (dramReadBlock_length _ _ _) (dramReadBlock_length _ _ _) a fun x hx => ?_
    have h1 := dramReadBlock_getD hs (writeWords m (blockAddr cfg b) ws) x
    have h2 := dramReadBlock_getD hs m x
    rw [hx] at h1 h2
    rw [h1, h2, hread, if_neg (fun hh => e (hx.symm.trans ((in_block_iff hs x b).1 hh)))]

end Blocks

/-! ### The copy of a block in one cache -/

/-- The data and the dirty bit of the copy of the block of `a`, if the cache holds one. -/
def Cache.copy (cfg : Config) (g : Geometry) (c : Cache) (a : Word) : Option (List Word × Bool) :=
  (c.find cfg g a).map fun w => ((c.block cfg g a w).data, (c.block cfg g a w).dirty)

section Copies
variable {cfg : Config} {g : Geometry} {c : Cache} (hg : g.wf cfg.blockShift = true)
include hg

omit hg in
theorem Cache.copy_eq_none {a : Word} : c.copy cfg g a = none ↔ c.find cfg g a = none := by
  simp [Cache.copy]

/-- The copy is that of the block. -/
theorem Cache.copy_congr {a b : Word} (h : blockAddr cfg a = blockAddr cfg b) :
    c.copy cfg g a = c.copy cfg g b := by
  have hsi : setIndex cfg g a = setIndex cfg g b := by
    rw [← setIndex_blockAddr hg a, ← setIndex_blockAddr hg b, h]
  have hti : tagOf cfg g a = tagOf cfg g b := by
    rw [← tagOf_blockAddr hg a, ← tagOf_blockAddr hg b, h]
  simp only [Cache.copy, Cache.find, Cache.block, hsi, hti]

omit hg in
/-- The scan of a set decides by valid bits and tags only. -/
theorem findWay_map {ways ways' : CacheSet} (tag : Word)
    (h : ways'.map (fun b => (b.valid, b.tag)) = ways.map (fun b => (b.valid, b.tag))) :
    findWay ways' tag = findWay ways tag := by
  have e : ∀ ws : CacheSet, findWay ws tag =
      (ws.map fun b => (b.valid, b.tag)).findIdx? (fun p => p.1 && p.2 == tag) := by
    intro ws; rw [List.findIdx?_map]; rfl
  rw [e, e, h]

/-- The copy of `a`, way by way. -/
theorem CacheInv.copy_some_iff (h : CacheInv cfg g c) {a : Word} {d : List Word} {x : Bool} :
    c.copy cfg g a = some (d, x) ↔ ∃ w < (c.ways (setIndex cfg g a)).length,
      (c.block cfg g a w).valid = true ∧ (c.block cfg g a w).tag = tagOf cfg g a ∧
        (c.block cfg g a w).data = d ∧ (c.block cfg g a w).dirty = x := by
  constructor
  · intro hc
    obtain ⟨w, hf, he⟩ := Option.map_eq_some_iff.1 hc
    obtain ⟨hw, hv, ht⟩ := findWay_some hf
    injection he with e1 e2
    exact ⟨w, hw, hv, ht, e1, e2⟩
  · rintro ⟨w, hw, hv, ht, hd, hx⟩
    have hf := findWay_of_valid (h.waysAt hg a).1 hw hv
    have : c.find cfg g a = some w := by
      unfold Cache.find; rw [← ht]; exact hf
    simp [Cache.copy, this, hd, hx]

/-- A valid block is the copy of the block address built from its tag and its set. -/
theorem CacheInv.copy_of_block (h : CacheInv cfg g c) {set : Nat} (hset : set < g.sets) {b : CacheBlock}
    (hb : b ∈ c.ways set) (hv : b.valid = true) :
    c.copy cfg g (blockAddrOf cfg g b.tag set) = some (b.data, b.dirty) := by
  obtain ⟨w, hw, rfl⟩ := List.getElem_of_mem hb
  have htag := ((h.waysInv hset).2 _ (List.getElem_mem hw)).2
  rw [h.copy_some_iff hg]
  refine ⟨w, ?_, ?_⟩
  · rw [setIndex_blockAddrOf hg htag hset]; exact hw
  · unfold Cache.block
    rw [setIndex_blockAddrOf hg htag hset, tagOf_blockAddrOf hg htag hset, blockAt_eq hw]
    exact ⟨hv, rfl, rfl, rfl⟩

/-- A copy is a valid block, whose tag and set give back the block address. -/
theorem CacheInv.block_of_copy (h : CacheInv cfg g c) {a : Word} {d : List Word} {x : Bool}
    (hc : c.copy cfg g a = some (d, x)) :
    ∃ b ∈ c.ways (setIndex cfg g a), b.valid = true ∧ b.data = d ∧ b.dirty = x ∧
      blockAddrOf cfg g b.tag (setIndex cfg g a) = blockAddr cfg a := by
  obtain ⟨w, hw, hv, ht, hd, hx⟩ := (h.copy_some_iff hg).1 hc
  exact ⟨_, blockAt_mem hw, hv, hd, hx, by
    rw [show (blockAt _ w).tag = tagOf cfg g a from ht, blockAddrOf_tagOf hg]⟩

theorem CacheInv.copy_length (h : CacheInv cfg g c) {a : Word} {d : List Word} {x : Bool}
    (hc : c.copy cfg g a = some (d, x)) : d.length = cfg.blockWords := by
  obtain ⟨b, hb, -, rfl, -, -⟩ := h.block_of_copy hg hc
  exact ((h.waysAt hg a).2 b hb).1

/-- A touch moves no copy (R297). -/
theorem Cache.copy_touch (h : CacheInv cfg g c) {a : Word} {w : Nat}
    (hw : w < (c.ways (setIndex cfg g a)).length) (b : Word) :
    (c.touch cfg g a w).copy cfg g b = c.copy cfg g b := by
  unfold Cache.copy Cache.find Cache.block
  rw [Cache.ways_touch hg h]
  split
  · next e =>
    rw [← e]
    have hm := touchWay_map (fun b => (b.valid, b.tag)) (fun _ _ => rfl) hw
    rw [findWay_map _ hm]
    cases hf : findWay (c.ways (setIndex cfg g a)) (tagOf cfg g b) with
    | none => rfl
    | some v =>
      have hv := (findWay_some hf).1
      have hb : blockAt (touchWay (c.ways (setIndex cfg g a)) w) v = _ :=
        (blockAt_eq (by simpa using hv)).trans (touchWay_getElem hw v hv)
      simp only [Option.map_some, hb, blockAt_eq hv]
  · rfl

omit hg in
/-- A block of the cache by its set's ways. -/
theorem Cache.block_eq (a : Word) (w : Nat) :
    c.block cfg g a w = blockAt (c.ways (setIndex cfg g a)) w := rfl

/-- A way that takes the block of `a` brings its copy and drops the copy the way held. -/
theorem Cache.copy_setBlock (h : CacheInv cfg g c) {a : Word} {w : Nat} {nb : CacheBlock}
    (hw : w < (c.ways (setIndex cfg g a)).length) (hv : nb.valid = true) (ht : nb.tag = tagOf cfg g a)
    (hset : CacheInv cfg g (c.setBlock cfg g a w nb)) (b : Word) :
    (c.setBlock cfg g a w nb).copy cfg g b =
      if blockAddr cfg b = blockAddr cfg a then some (nb.data, nb.dirty)
      else if (c.block cfg g a w).valid = true ∧ blockAddr cfg b = c.residentAddr cfg g a w then none
      else c.copy cfg g b := by
  have htagw : (c.block cfg g a w).tag.toNat < 2 ^ (32 - (2 + cfg.blockShift + g.setBits)) :=
    ((h.waysAt hg a).2 _ (blockAt_mem hw)).2
  have hways := fun i => Cache.ways_setBlock hg h a w i nb
  split
  · next e =>
    rw [Cache.copy_congr hg e, hset.copy_some_iff hg]
    refine ⟨w, by rw [hways, if_pos rfl]; simpa using hw, ?_⟩
    rw [Cache.block_eq, hways, if_pos rfl, blockAt_eq (by simpa using hw), List.getElem_set_self]
    exact ⟨hv, ht, rfl, rfl⟩
  · next e =>
    by_cases es : setIndex cfg g a = setIndex cfg g b
    · have hwb : w < (c.ways (setIndex cfg g b)).length := es ▸ hw
      have hold : c.block cfg g a w = (c.ways (setIndex cfg g b))[w] := by
        rw [Cache.block_eq, es, blockAt_eq hwb]
      have htne : nb.tag ≠ tagOf cfg g b := fun ht' =>
        e (blockAddr_eq_of_set_tag hg es.symm (ht'.symm.trans ht))
      have hres : blockAddr cfg b = c.residentAddr cfg g a w ↔
          (c.ways (setIndex cfg g b))[w].tag = tagOf cfg g b := by
        rw [← hold]
        unfold Cache.residentAddr
        rw [← blockAddrOf_tagOf hg b, es]
        constructor
        · intro he
          have := congrArg (tagOf cfg g) he
          rw [tagOf_blockAddrOf hg (tagOf_lt hg b) (setIndex_lt hg b),
            tagOf_blockAddrOf hg htagw (setIndex_lt hg b)] at this
          exact this.symm
        · intro he; rw [he]
      have hcell : ∀ v (hv' : v < (c.ways (setIndex cfg g b)).length),
          (c.setBlock cfg g a w nb).block cfg g b v =
            if w = v then nb else (c.ways (setIndex cfg g b))[v] := by
        intro v hv'
        rw [Cache.block_eq, hways, if_pos es, blockAt_eq (by simpa using hv'), List.getElem_set]
      have hlen : ((c.setBlock cfg g a w nb).ways (setIndex cfg g b)).length =
          (c.ways (setIndex cfg g b)).length := by rw [hways, if_pos es]; simp
      apply Option.ext
      rintro ⟨d, x⟩
      rw [hset.copy_some_iff hg, hold, hlen]
      simp only [hres]
      by_cases hvr : (c.ways (setIndex cfg g b))[w].valid = true ∧
          (c.ways (setIndex cfg g b))[w].tag = tagOf cfg g b
      · rw [if_pos hvr]
        refine ⟨?_, fun hh => absurd hh (by simp)⟩
        rintro ⟨v, hv', hval, ht', -⟩
        rw [hcell v hv'] at hval ht'
        split at ht'
        · exact absurd ht' htne
        · next hne =>
          rw [if_neg hne] at hval
          have hp := List.pairwise_iff_getElem.1 (h.waysAt hg b).1.2.2
          rcases Nat.lt_or_gt_of_ne hne with hlt | hlt
          · exact (hp w v hwb hv' hlt hvr.1 hval (hvr.2.trans ht'.symm)).elim
          · exact (hp v w hv' hwb hlt hval hvr.1 (ht'.trans hvr.2.symm)).elim
      · rw [if_neg hvr, h.copy_some_iff hg]
        constructor
        · rintro ⟨v, hv', hp⟩
          rw [hcell v hv'] at hp
          split at hp
          · exact absurd hp.2.1 htne
          · refine ⟨v, hv', ?_⟩
            rw [Cache.block_eq, blockAt_eq hv']; exact hp
        · rintro ⟨v, hv', hp⟩
          refine ⟨v, hv', ?_⟩
          rw [Cache.block_eq, blockAt_eq hv'] at hp
          have hne : w ≠ v := by
            rintro rfl
            exact hvr ⟨hp.1, hp.2.1⟩
          rw [hcell v hv', if_neg hne]; exact hp
    · have hres : blockAddr cfg b ≠ c.residentAddr cfg g a w := by
        intro he
        apply es
        have := congrArg (setIndex cfg g) he
        unfold Cache.residentAddr at this
        rw [setIndex_blockAddr hg, setIndex_blockAddrOf hg htagw (setIndex_lt hg a)] at this
        exact this.symm
      rw [if_neg (fun hh => hres hh.2)]
      unfold Cache.copy Cache.find
      simp only [Cache.block_eq, hways, if_neg es]

/-- New data in the copy of one block (R318, R340). -/
theorem Cache.copy_setData (h : CacheInv cfg g c) {a : Word} {w : Nat} (hf : c.find cfg g a = some w)
    {data : List Word} (dirty : Bool) (hd : data.length = cfg.blockWords) (b : Word) :
    (c.setBlock cfg g a w { c.block cfg g a w with data := data, dirty := dirty }).copy cfg g b =
      if blockAddr cfg b = blockAddr cfg a then some (data, dirty) else c.copy cfg g b := by
  have hw := h.find_lt hf
  obtain ⟨-, hv, ht⟩ := findWay_some hf
  rw [← Cache.block_eq] at hv ht
  have hset := h.setData hg hw dirty hd
  rw [Cache.copy_setBlock hg h hw
    (nb := { c.block cfg g a w with data := data, dirty := dirty }) hv ht hset]
  have hres : c.residentAddr cfg g a w = blockAddr cfg a := by
    unfold Cache.residentAddr
    rw [ht, blockAddrOf_tagOf hg]
  rw [hres]
  split
  · rfl
  · next e => rw [if_neg (fun hh => e hh.2)]

/-- A fill brings the copy of one block and drops the copy its way held (R305). -/
theorem Cache.copy_fill (h : CacheInv cfg g c) {a : Word} {w : Nat} {data : List Word} (dirty : Bool)
    (hw : w < (c.ways (setIndex cfg g a)).length) (hf : c.find cfg g a = none)
    (hd : data.length = cfg.blockWords) (b : Word) :
    (c.fill cfg g a w data dirty).copy cfg g b =
      if blockAddr cfg b = blockAddr cfg a then some (data, dirty)
      else if (c.block cfg g a w).valid = true ∧ blockAddr cfg b = c.residentAddr cfg g a w then none
      else c.copy cfg g b := by
  have hn := findWay_none.1 hf
  have hset : CacheInv cfg g (c.setBlock cfg g a w { c.block cfg g a w with
      valid := true, dirty := dirty, tag := tagOf cfg g a, data := data }) :=
    h.setBlock hg hw rfl hd (tagOf_lt hg a) (fun _ i hi _ hv => hn _ (List.getElem_mem hi) hv)
  have hlen : w < ((c.setBlock cfg g a w { c.block cfg g a w with
      valid := true, dirty := dirty, tag := tagOf cfg g a, data := data }).ways
        (setIndex cfg g a)).length := by
    rw [Cache.ways_setBlock hg h, if_pos rfl]; simpa using hw
  unfold Cache.fill
  rw [Cache.copy_touch hg hset hlen, Cache.copy_setBlock hg h hw (nb := { c.block cfg g a w with
      valid := true, dirty := dirty, tag := tagOf cfg g a, data := data }) rfl rfl hset]

/-- A fill replaces the block of one way (R305). -/
theorem Cache.fill_replaces (h : CacheInv cfg g c) (b : Word) {w : Nat}
    (hw : w < (c.ways (setIndex cfg g b)).length) (data : List Word) (dirty : Bool) :
    Replaces cfg g c (c.fill cfg g b w data dirty) b w data dirty := by
  have hl : setIndex cfg g b < c.length := by rw [h.1]; exact setIndex_lt hg b
  intro i
  unfold Cache.fill Cache.touch Cache.setBlock
  rw [Cache.ways_set hl, if_pos rfl, List.set_set, Cache.ways_set hl]
  by_cases e : setIndex cfg g b = i
  · subst e
    rw [if_pos rfl, if_pos rfl, touchWay_map _ (fun _ _ => rfl) (by simpa using hw), List.map_set]
    rfl
  · rw [if_neg e, if_neg (Ne.symm e)]

end Copies

end Sys2Proof.Machine
end

