-- ==== Sys2Proof/Tests/Slice0.lean ====
section
/-! SUPPORT. Tests of the model, and for each obligation with hypotheses a state that meets them. Expected
values are those of the spec's worked examples (48, 49) and test vectors (95), never the model's own. -/

namespace Sys2Proof.Tests
open Sys2Proof Sys2Proof.Machine

/-! ### Helpers -/

/-- One-word blocks, one set of one way in each cache: a small configuration (00 R8 allows it). -/
def tinyConfig : Config where
  blockShift := 0
  l1i := ⟨0, 1⟩
  l1d := ⟨0, 1⟩
  l2 := ⟨0, 1⟩
  l2Mshrs := 1
  l2HitLatency := 0
  l2ToDramLatency := 0
  dramAccessLatency := 0
  dramToL2cLatency := 0
  resetPc := 0x00400000
  queueInitSize := 1

/-- `init()` in the small configuration, running. -/
def tiny : State := State.initial tinyConfig true []

/-- Registers preset. -/
def setRegs (s : State) (regs : List (Nat × Nat)) : State :=
  regs.foldl (fun s r => s.writeReg (BitVec.ofNat 5 r.1) (BitVec.ofNat 32 r.2)) s

/-- The word `w` about to execute at 0x00400000, registers preset. -/
def ready (w : Nat) (regs : List (Nat × Nat)) : State := setRegs (tiny.withFetchWord 32 w) regs

/-- The next state of a result, or `d`. -/
def nextOr (d : State) : Result State → State
  | .next t => t
  | _ => d

/-- The result is a next state. -/
def isNext : Result State → Bool
  | .next _ => true
  | _ => false

/-- One step of a state (the state itself if it stops). -/
def after (s : State) : State := nextOr s (step s)

/-- The state mem leaves in the cycle that starts in `s`. -/
def afterMem (s : State) : State := nextOr s (memStage (writebackStage s))

/-- The state execute leaves when it starts in `s`. -/
def afterExecute (s : State) : State := nextOr s (executeStage s)

/-- The destination and the value of the Op that a step of `w` moves to ME. -/
def result (w : Nat) (regs : List (Nat × Nat)) : Option (Option Reg × Word) :=
  (after (ready w regs)).me.map fun m => (m.dst, m.dstVal)

/-- HI, LO and the countdown after a step of `w`. -/
def hiLo (w : Nat) (regs : List (Nat × Nat)) : Word × Word × Nat :=
  let t := after (ready w regs)
  (t.hi, t.lo, t.mduBusy)

/-- Direction and destination of a branch, and PC and the squash count after its step. -/
def branched (w : Nat) (regs : List (Nat × Nat)) : Option (Bool × Word × Word × Nat) :=
  let t := after (ready w regs)
  t.me.map fun m => (m.branchTaken, m.branchDest, t.pc, t.statSquash)

/-- A one-block cache whose block is the word `v` at the address `a`. -/
def oneBlock (a v : Nat) (dirty : Bool) : Cache :=
  [[⟨true, dirty, BitVec.ofNat 32 a >>> 2, 0, [BitVec.ofNat 32 v]⟩]]

/-- The Op of the memory instruction `w` in ME, EX and DE empty, L1D holding the word `v` at `a`
(dirty, so that nothing need lie below it). -/
def inMem (w : Nat) (regs : List (Nat × Nat)) (a v : Nat) : State :=
  let s := ready w regs
  { s with
    ex := none, me := (after s).me
    hier := { s.hier with l1d := oneBlock a v true } }

/-- The value a load has after the step that completes it. -/
def loaded (w : Nat) (regs : List (Nat × Nat)) (a v : Nat) : Option Word :=
  (after (inMem w regs a v)).wb.map (·.dstVal)

/-- The word the data side sees at `a` after the step that completes a store. -/
def stored (w : Nat) (regs : List (Nat × Nat)) (a v : Nat) : Word :=
  (after (inMem w regs a v)).hier.view tinyConfig .d (BitVec.ofNat 32 a)

/-! ### What the checks refuse (00 R8, 93 U6; 30 R98) -/

theorem test_refuse_no_ways : Geometry.wf ⟨2, 0⟩ 3 = false := by decide
theorem test_refuse_wide_sets : Geometry.wf ⟨28, 1⟩ 3 = false := by decide
theorem test_admit_widest_sets : Geometry.wf ⟨27, 1⟩ 3 = true := by decide
theorem test_refuse_l1i_no_ways : Config.wf { tinyConfig with l1i := ⟨0, 0⟩ } = false := by decide
theorem test_refuse_l1d_wide_sets : Config.wf { tinyConfig with l1d := ⟨31, 1⟩ } = false := by decide
theorem test_refuse_l2_no_ways : Config.wf { tinyConfig with l2 := ⟨0, 0⟩ } = false := by decide
theorem test_refuse_wide_block : Config.wf { tinyConfig with blockShift := 31 } = false := by decide
theorem test_refuse_no_mshr : Config.wf { tinyConfig with l2Mshrs := 0 } = false := by decide
theorem test_step_refuses_configuration :
    step { tiny with cfg := { tinyConfig with l2Mshrs := 0 } } = .refused .badConfiguration := rfl
theorem test_step_refuses_after_stop : step tiny.stop = .refused .cycleAfterStop := rfl

/-- The five words of 95 §2.1 that match no row. -/
theorem test_refuse_words :
    decodeWord 0x70000000 = .error (.unrecognisedOp 0x1C) ∧
    decodeWord 0x0000000D = .error (.unrecognisedFunct 0x0D) ∧
    decodeWord 0x42000018 = .error (.unrecognisedOp 0x10) ∧
    decodeWord 0x05020000 = .error (.unrecognisedRtsel 0x02) ∧
    decodeWord 0xC1000000 = .error (.unrecognisedOp 0x30) := by decide

/-- Fewer than four bytes are no word. -/
theorem test_refuse_short_input : decodeBytes [0x00, 0x49, 0x08] = .error .truncated := by decide

/-! ### Decoding: a word of every row, from 48, 49 and 95 §2.1 -/

theorem test_decode_shifts :
    decodeWord 0x00084900 = .ok (.sll 9 8 4) ∧ decodeWord 0x00084902 = .ok (.srl 9 8 4) ∧
    decodeWord 0x00084903 = .ok (.sra 9 8 4) ∧ decodeWord 0x01484804 = .ok (.sllv 9 8 10) ∧
    decodeWord 0x01484806 = .ok (.srlv 9 8 10) ∧ decodeWord 0x01484807 = .ok (.srav 9 8 10) ∧
    decodeWord 0x00000000 = .ok (.sll 0 0 0) := by decide

theorem test_decode_alu :
    decodeWord 0x01095020 = .ok (.add 10 8 9) ∧ decodeWord 0x01095021 = .ok (.addu 10 8 9) ∧
    decodeWord 0x01095022 = .ok (.sub 10 8 9) ∧ decodeWord 0x01095023 = .ok (.subu 10 8 9) ∧
    decodeWord 0x01095024 = .ok (.and 10 8 9) ∧ decodeWord 0x01095025 = .ok (.or 10 8 9) ∧
    decodeWord 0x01095026 = .ok (.xor 10 8 9) ∧ decodeWord 0x01095027 = .ok (.nor 10 8 9) ∧
    decodeWord 0x0109502A = .ok (.slt 10 8 9) ∧ decodeWord 0x0109502B = .ok (.sltu 10 8 9) := by
  decide

theorem test_decode_immediate :
    decodeWord 0x2109FFFF = .ok (.addi 9 8 0xFFFF) ∧
    decodeWord 0x25098000 = .ok (.addiu 9 8 0x8000) ∧
    decodeWord 0x2909FFFF = .ok (.slti 9 8 0xFFFF) ∧
    decodeWord 0x2D09FFFF = .ok (.sltiu 9 8 0xFFFF) ∧
    decodeWord 0x3109FF00 = .ok (.andi 9 8 0xFF00) ∧
    decodeWord 0x35098000 = .ok (.ori 9 8 0x8000) ∧
    decodeWord 0x3909FFFF = .ok (.xori 9 8 0xFFFF) ∧
    decodeWord 0x3C091234 = .ok (.lui 9 0x1234) := by decide

theorem test_decode_muldiv :
    decodeWord 0x01090018 = .ok (.mult 8 9) ∧ decodeWord 0x01090019 = .ok (.multu 8 9) ∧
    decodeWord 0x0109001A = .ok (.div 8 9) ∧ decodeWord 0x0109001B = .ok (.divu 8 9) ∧
    decodeWord 0x00005010 = .ok (.mfhi 10) ∧ decodeWord 0x00005012 = .ok (.mflo 10) ∧
    decodeWord 0x01000011 = .ok (.mthi 8) ∧ decodeWord 0x01000013 = .ok (.mtlo 8) := by decide

theorem test_decode_memory :
    decodeWord 0x810B0003 = .ok (.lb 11 3 8) ∧ decodeWord 0x910B0003 = .ok (.lbu 11 3 8) ∧
    decodeWord 0x850B0002 = .ok (.lh 11 2 8) ∧ decodeWord 0x950C0002 = .ok (.lhu 12 2 8) ∧
    decodeWord 0x8D0DFFFC = .ok (.lw 13 0xFFFC 8) ∧ decodeWord 0xA10A0001 = .ok (.sb 10 1 8) ∧
    decodeWord 0xA50A0002 = .ok (.sh 10 2 8) ∧ decodeWord 0xAD090000 = .ok (.sw 9 0 8) := by decide

theorem test_decode_branches :
    decodeWord 0x11090003 = .ok (.beq 8 9 3) ∧ decodeWord 0x1500FFFD = .ok (.bne 8 0 0xFFFD) ∧
    decodeWord 0x19000001 = .ok (.blez 8 1) ∧ decodeWord 0x1D000001 = .ok (.bgtz 8 1) ∧
    decodeWord 0x05000001 = .ok (.bltz 8 1) ∧ decodeWord 0x05010001 = .ok (.bgez 8 1) ∧
    decodeWord 0x05100001 = .ok (.bltzal 8 1) ∧ decodeWord 0x05110001 = .ok (.bgezal 8 1) := by decide

theorem test_decode_jumps_and_system :
    decodeWord 0x08100040 = .ok (.j 0x0100040) ∧ decodeWord 0x0C100008 = .ok (.jal 0x0100008) ∧
    decodeWord 0x03E00008 = .ok (.jr 31) ∧ decodeWord 0x0100F809 = .ok (.jalr 31 8) ∧
    decodeWord 0x0000000C = .ok .syscall := by decide

/-- Unused fields are ignored: the two words of 95 §2.1. -/
theorem test_decode_ignores_unused_fields :
    decodeWord 0x03FFFFCC = .ok .syscall ∧ decodeWord 0x03E84900 = .ok (.sll 9 8 4) := by decide

/-- The first byte is the low one (20 R63). -/
theorem test_decode_bytes_little_endian :
    decodeBytes [0x21, 0x50, 0x09, 0x01, 0x77] = .ok (.addu 10 8 9, [0x77]) := by decide

/-! ### One step of each instruction (95 §2.2 to §2.5) -/

theorem test_sll : result 0x00084900 [(8, 0x0000000F)] = some (some 9, 0x000000F0) := by decide
theorem test_sll_31 : result 0x00084FC0 [(8, 0x80000001)] = some (some 9, 0x80000000) := by decide
theorem test_srl : result 0x00084902 [(8, 0x80000010)] = some (some 9, 0x08000001) := by decide
theorem test_sra : result 0x00084903 [(8, 0x80000010)] = some (some 9, 0xF8000001) := by decide
theorem test_sllv : result 0x01484804 [(8, 1), (10, 0x21)] = some (some 9, 2) := by decide
theorem test_srlv : result 0x01484806 [(8, 0x80000000), (10, 31)] = some (some 9, 1) := by decide
theorem test_srav :
    result 0x01484807 [(8, 0x80000000), (10, 31)] = some (some 9, 0xFFFFFFFF) := by decide

theorem test_add : result 0x01095020 [(8, 0x7FFFFFFF), (9, 1)] = some (some 10, 0x80000000) := by
  decide
theorem test_addu : result 0x01095021 [(8, 0xFFFFFFFF), (9, 2)] = some (some 10, 1) := by decide
theorem test_addu_source_is_destination : result 0x01084021 [(8, 3)] = some (some 8, 6) := by decide
theorem test_sub : result 0x01095022 [(8, 0x80000000), (9, 1)] = some (some 10, 0x7FFFFFFF) := by
  decide
theorem test_subu : result 0x01095023 [(8, 0), (9, 1)] = some (some 10, 0xFFFFFFFF) := by decide
theorem test_and :
    result 0x01095024 [(8, 0xFF00FF00), (9, 0x0F0F0F0F)] = some (some 10, 0x0F000F00) := by decide
theorem test_or :
    result 0x01095025 [(8, 0xFF00FF00), (9, 0x0F0F0F0F)] = some (some 10, 0xFF0FFF0F) := by decide
theorem test_xor :
    result 0x01095026 [(8, 0xFF00FF00), (9, 0x0F0F0F0F)] = some (some 10, 0xF00FF00F) := by decide
theorem test_nor :
    result 0x01095027 [(8, 0xFF00FF00), (9, 0x0F0F0F0F)] = some (some 10, 0x00F000F0) := by decide
theorem test_slt : result 0x0109502A [(8, 0xFFFFFFFF), (9, 1)] = some (some 10, 1) := by decide
theorem test_sltu : result 0x0109502B [(8, 0xFFFFFFFF), (9, 1)] = some (some 10, 0) := by decide

theorem test_addi : result 0x2109FFFF [(8, 0)] = some (some 9, 0xFFFFFFFF) := by decide
theorem test_addi_no_trap : result 0x21090001 [(8, 0x7FFFFFFF)] = some (some 9, 0x80000000) := by
  decide
theorem test_addiu : result 0x25098000 [(8, 0x00008000)] = some (some 9, 0) := by decide
theorem test_slti : result 0x2909FFFF [(8, 0xFFFFFFFE)] = some (some 9, 1) := by decide
theorem test_sltiu : result 0x2D09FFFF [(8, 5)] = some (some 9, 1) := by decide
theorem test_andi : result 0x3109FF00 [(8, 0x12345678)] = some (some 9, 0x00005600) := by decide
theorem test_ori : result 0x35098000 [(8, 0x00010000)] = some (some 9, 0x00018000) := by decide
theorem test_xori : result 0x3909FFFF [(8, 0xFFFFFFFF)] = some (some 9, 0xFFFF0000) := by decide
theorem test_lui : result 0x3C091234 [] = some (some 9, 0x12340000) := by decide

theorem test_mult : hiLo 0x01090018 [(8, 0xFFFFFFFD), (9, 5)] = (0xFFFFFFFF, 0xFFFFFFF1, 4) := by
  decide
theorem test_multu :
    hiLo 0x01090019 [(8, 0xFFFFFFFF), (9, 0xFFFFFFFF)] = (0xFFFFFFFE, 0x00000001, 4) := by decide
theorem test_div : hiLo 0x0109001A [(8, 7), (9, 0xFFFFFFFE)] = (1, 0xFFFFFFFD, 32) := by decide
theorem test_div_overflow :
    hiLo 0x0109001A [(8, 0x80000000), (9, 0xFFFFFFFF)] = (0, 0x80000000, 32) := by decide
theorem test_divu : hiLo 0x0109001B [(8, 0xFFFFFFF9), (9, 2)] = (1, 0x7FFFFFFC, 32) := by decide
theorem test_divu_by_zero : hiLo 0x0109001B [(8, 5), (9, 0)] = (0, 0, 32) := by decide
theorem test_mfhi :
    ((after { ready 0x00005010 [] with hi := 0x1234, lo := 0xABCD }).me.map fun m =>
      (m.dst, m.dstVal)) = some (some 10, 0x1234) := by decide
/-- Held while the countdown is not 0 (43 R176), with or without one tick left. -/
theorem test_mfhi_waits :
    (after { ready 0x00005010 [] with hi := 0x1234, mduBusy := 1 }).me = none := by decide
theorem test_mflo :
    ((after { ready 0x00005012 [] with hi := 0x1234, lo := 0xABCD }).me.map fun m =>
      (m.dst, m.dstVal)) = some (some 10, 0xABCD) := by decide
theorem test_mthi : hiLo 0x01000011 [(8, 0x55)] = (0x55, 0, 0) := by decide
theorem test_mtlo : hiLo 0x01000013 [(8, 0x66)] = (0, 0x66, 0) := by decide

theorem test_lb : loaded 0x810B0003 [(8, 0x10000000)] 0x10000000 0xFF223344 = some 0xFFFFFFFF := by
  decide
theorem test_lbu : loaded 0x910B0003 [(8, 0x10000000)] 0x10000000 0xFF223344 = some 0x000000FF := by
  decide
theorem test_lh : loaded 0x850B0002 [(8, 0x10000000)] 0x10000000 0xFFFF7FFE = some 0xFFFFFFFF := by
  decide
theorem test_lhu_misaligned :
    loaded 0x950C0002 [(8, 0x10000001)] 0x10000000 0x11223344 = some 0x00001122 := by decide
theorem test_lw_wraps_and_aligns :
    loaded 0x8D0D7FFF [(8, 0xFFFFFFFF)] 0x00007FFC 0x11223344 = some 0x11223344 := by decide
theorem test_sb : stored 0xA10A0002 [(8, 0x10000000), (10, 0xFFFFFFAB)] 0x10000000 0x11223344 =
    0x11AB3344 := by decide
theorem test_sh_misaligned :
    stored 0xA50A0001 [(8, 0x10000000), (10, 0x1234ABCD)] 0x10000000 0x11223344 = 0x1122ABCD := by
  decide
theorem test_sw : stored 0xAD090003 [(8, 0x10000000), (9, 0xDEADBEEF)] 0x10000000 0x11223344 =
    0xDEADBEEF := by decide

/-- Taken, without a prediction: a mismatch (95 §2.5). -/
theorem test_beq_taken :
    branched 0x11090003 [(8, 5), (9, 5)] = some (true, 0x00400010, 0x00400010, 1) := by decide
/-- Not taken, without a prediction: still a mismatch (92 D30). -/
theorem test_beq_not_taken :
    branched 0x11090003 [(8, 5), (9, 6)] = some (false, 0x00400010, 0x00400004, 1) := by decide
theorem test_bne : branched 0x1500FFFD [(8, 2)] = some (true, 0x003FFFF8, 0x003FFFF8, 1) := by decide
theorem test_blez : branched 0x19000001 [(8, 0)] = some (true, 0x00400008, 0x00400008, 1) := by decide
theorem test_blez_not_taken :
    branched 0x19000001 [(8, 1)] = some (false, 0x00400008, 0x00400004, 1) := by decide
theorem test_bgtz : branched 0x1D000001 [(8, 0)] = some (false, 0x00400008, 0x00400004, 1) := by
  decide
theorem test_bgtz_taken : branched 0x1D000001 [(8, 1)] = some (true, 0x00400008, 0x00400008, 1) := by
  decide
theorem test_bltz : branched 0x05000001 [(8, 0x80000000)] =
    some (true, 0x00400008, 0x00400008, 1) := by decide
theorem test_bltz_zero : branched 0x05000001 [(8, 0)] = some (false, 0x00400008, 0x00400004, 1) := by
  decide
theorem test_bgez : branched 0x05010001 [(8, 0)] = some (true, 0x00400008, 0x00400008, 1) := by decide
theorem test_bgez_negative :
    branched 0x05010001 [(8, 0xFFFFFFFF)] = some (false, 0x00400008, 0x00400004, 1) := by decide
/-- The link is written though not taken (49 R482). -/
theorem test_bltzal_links : result 0x05100001 [(8, 1)] = some (some 31, 0x00400004) := by decide
theorem test_bgezal_links : result 0x05110001 [(8, 0)] = some (some 31, 0x00400004) := by decide
theorem test_j : branched 0x08100040 [] = some (true, 0x00400100, 0x00400100, 1) := by decide
/-- The region bits come from `pc + 4` (92 D15). -/
theorem test_j_region : jumpTarget 0x0FFFFFFC 0 = 0x10000000 := by decide
theorem test_jal : result 0x0C100008 [] = some (some 31, 0x00400004) ∧
    branched 0x0C100008 [] = some (true, 0x00400020, 0x00400020, 1) := by decide
theorem test_jr : branched 0x03E00008 [(31, 0x00400100)] =
    some (true, 0x00400100, 0x00400100, 1) := by decide
/-- `jalr $8, $8` (0x01004009): the old value is the destination (95 §2.5). -/
theorem test_jalr_same_register :
    result 0x01004009 [(8, 0x00400010)] = some (some 8, 0x00400004) ∧
    branched 0x01004009 [(8, 0x00400010)] = some (true, 0x00400010, 0x00400010, 1) := by decide

/-- The Op of `w` in WB, as execute made it. -/
def inWb (w : Nat) (regs : List (Nat × Nat)) : State :=
  let s := ready w regs
  { s with ex := none, me := none, wb := (after s).me }

/-- Selector 10 halts, at writeback (49 R495). -/
theorem test_syscall_halts : (after (inWb 0x0000000C [(2, 10)])).run = false := by decide
theorem test_syscall_other_selector : (after (inWb 0x0000000C [(2, 11)])).run = true := by decide

/-- `addu $0, $8, $9`: register 0 stays 0 (95 §2.2). -/
theorem test_register_zero :
    (after (inWb 0x01090021 [(8, 1), (9, 2)])).regs.get 0 = 0 ∧
    (after (inWb 0x01090021 [(8, 1), (9, 2)])).statRetired = 1 := by decide

/-- An unrecognised word moves on and delivers nothing (30 R98). -/
theorem test_unrecognised : result 0x70000000 [] = some (none, 0) := by decide

/-- From the state after reset (95 §0: the first word is pending in cycles 1 to 8). -/
theorem test_reset_fetch_is_pending :
    (after State.reset).pc = 0x00400000 ∧ (after State.reset).de = none := by decide

theorem test_reset_runs_placed_word :
    ((after (State.reset.withFetchWord 32 0x2402000A)).me.map fun m => (m.dst, m.dstVal)) =
      some (some 2, 10) := by decide

/-! ### Predictor and cache functions (95 §2.6, §2.7) -/

theorem test_btb_index :
    btbIndex 0x00400000 = 0 ∧ btbIndex 0x00400010 = 4 ∧ btbIndex 0x00400FFC = 0x3FF ∧
    btbIndex 0x00401000 = 0 ∧ btbIndex 0x00400001 = 0 := by decide

theorem test_pattern_index :
    patternIndex 0x00 0x00400010 = 0x04 ∧ patternIndex 0x03 0x00400010 = 0x07 ∧
    patternIndex 0xFF 0x004003FC = 0x00 ∧ patternIndex 0xA5 0x00400000 = 0xA5 := by decide

theorem test_counter_saturates :
    saturate 3 true = 3 ∧ saturate 0 false = 0 ∧ saturate 1 true = 2 ∧ saturate 2 false = 1 := by
  decide

theorem test_history : shiftHistory 0x80 true = 0x01 ∧ shiftHistory 0xFF false = 0xFE := by decide

/-- V-P5: the counter at the index of the history before the shift. -/
theorem test_update_uses_old_history :
    (({ tiny with ghr := 0x01 }.updateDirection 0x00400010 true).counter 5) = 1 ∧
    ({ tiny with ghr := 0x01 }.updateDirection 0x00400010 true).ghr = 0x03 := ⟨rfl, rfl⟩

/-- V-C1, second and third row. -/
theorem test_address_decomposition :
    wordOffset Config.exampleE 0x0040001C = 7 ∧ blockAddr Config.exampleE 0x0040001C = 0x00400000 ∧
    setIndex Config.exampleE Config.exampleE.l1i 0x00400020 = 1 ∧
    tagOf Config.exampleE Config.exampleE.l1i 0x00400020 = 0x8000 ∧
    setIndex Config.exampleE Config.exampleE.l2 0x00400020 = 1 ∧
    tagOf Config.exampleE Config.exampleE.l2 0x00400020 = 0x4000 := by decide

/-- A set of valid blocks with these ranks. -/
def ranked (ranks : List Nat) : CacheSet :=
  ranks.map fun r => ⟨true, false, BitVec.ofNat 32 r, r, [0]⟩

/-- V-C2: four ways from reset, touch way 2, then way 3, then way 3 again; the victim is way 1. -/
theorem test_lru :
    (touchWay (ranked [0, 1, 2, 3]) 2).map (·.rank) = [1, 2, 0, 3] ∧
    (touchWay (ranked [1, 2, 0, 3]) 3).map (·.rank) = [2, 3, 1, 0] ∧
    (touchWay (ranked [2, 3, 1, 0]) 3).map (·.rank) = [2, 3, 1, 0] ∧
    victimWay (ranked [2, 3, 1, 0]) 4 = .next 1 := ⟨by decide, by decide, by decide, rfl⟩

/-- V-P4 as a fetch: a BTB hit of an unconditional jump sends PC to its target (V-B1, cycle 27). -/
theorem test_fetch_follows_btb :
    let s := { tiny.refreshBtb 0x00400000 0x00400100 true with
      hier := { tiny.hier with l1i := oneBlock 0x00400000 0x08100040 false } }
    (after s).pc = 0x00400100 ∧ ((after s).de.map fun d => (d.instr, d.predTaken)) =
      some (0x08100040, true) := by decide

/-- 47 R318 on a miss of L2: a dirty L1D victim is installed in L2, dirty; the new block is clean. -/
theorem test_dirty_victim_goes_to_l2 :
    (match installL1 tinyConfig .d { tiny.hier with l1d := oneBlock 0x10000000 0xAB true } 0x20000000
        [0xCD] with
      | .next h => (h.l1d, h.l2)
      | _ => ([], [])) = (oneBlock 0x20000000 0xCD false, oneBlock 0x10000000 0xAB true) := by decide

/-! ### States that meet the obligations' hypotheses

Each theorem names the obligations it serves. The hypotheses of an obligation about every state, alone,
are met by any state. -/

/-- DecodedWordIsItsEncodingOnTheUsedBits and IgnoredFieldsDoNotAffectDecoding: a word with ignored
bits set, and another that differs from it in ignored bits only. -/
theorem witness_decoded_word :
    decodeWord 0x03E84900 = .ok (.sll 9 8 4) ∧
    (0x00084900#32 &&& Instr.usedBits (.sll 9 8 4)) = 0x03E84900#32 &&& Instr.usedBits (.sll 9 8 4) ∧
    (0x00084900#32) ≠ 0x03E84900#32 := by decide

/-- RowsDecideDecodingWithoutOverlap: two instructions a word matches. -/
theorem witness_row :
    Instr.matchedBy (.sll 9 8 4) 0x00084900 = true ∧ Instr.matchedBy (.sll 0 0 0) 0x00084900 = true := by
  decide

/-- The Op of `w` as it stands in EX in `ready w`. -/
def readyOp (w : Word) : Op := (newOp 0x00400000 w ⟨0x00400004, false, false⟩).decode

/-- `s.Executes op`, the hypothesis of every completion statement (ShiftsByAConstantComplete to
DivideCompletesAlsoByZero, MoveToHiLoCompletes, LoadsComplete, StoresComplete,
ConditionalBranchesComplete to SyscallCompletesAndHaltsOnTen), with a countdown running. -/
theorem witness_executes :
    { ready 0x01095021 [(8, 1)] with mduBusy := 3 }.Executes
      (readyOp 0x01095021) := ⟨rfl, rfl⟩

/-- PlacedWordRunsInTheNextStep, from the state after reset. -/
theorem witness_placed_word :
    State.reset.stopped = false ∧ State.reset.cfg.wf = true ∧
      decodeWord 0x01095021 = .ok (.addu 10 8 9) := by decide

/-- `ready` with an Op also in DE, and L1I holding what PC asks for. -/
def twoInFlight (w v : Nat) : State :=
  let s := ready w []
  { s with
    de := some (newOp 0x00400004 (BitVec.ofNat 32 v) ⟨0x00400008, false, false⟩)
    pc := 0x00400008
    hier := { s.hier with l1i := oneBlock 0x00400008 0 false } }

/-- An ADDU about to execute, an Op behind it. -/
def movable : State := twoInFlight 0x01095021 0

/-- An MFHI that waits one more cycle, an Op behind it. -/
def waiting : State := { twoInFlight 0x00005010 0 with mduBusy := 1 }

/-- StepRunsTheDecodedInstruction. -/
theorem witness_step_runs :
    movable.stopped = false ∧ movable.cfg.wf = true ∧
      memStage (writebackStage movable) = .next (afterMem movable) ∧
      (afterMem movable).ex = some (readyOp 0x01095021) ∧
      decodeWord (readyOp 0x01095021).instr = .ok (.addu 10 8 9) := ⟨rfl, rfl, rfl, rfl, rfl⟩

/-- DecodeMovesTheOpOrStalls, OnlyExecuteWritesHiLoAndThePredictor: execute consumes its Op (the next
one moves up); execute holds it, while another stands in DE. -/
theorem witness_decode_moves :
    memStage (writebackStage movable) = .next (afterMem movable) ∧
    executeStage (afterMem movable) = .next (afterExecute (afterMem movable)) ∧
    step movable = .next (after movable) ∧ (after movable).statSquash = movable.statSquash ∧
    (afterExecute (afterMem movable)).ex = none ∧ movable.de ≠ none ∧
    memStage (writebackStage waiting) = .next (afterMem waiting) ∧
    executeStage (afterMem waiting) = .next (afterExecute (afterMem waiting)) ∧
    step waiting = .next (after waiting) ∧ (after waiting).statSquash = waiting.statSquash ∧
    (afterExecute (afterMem waiting)).ex ≠ none ∧ waiting.de ≠ none :=
  ⟨rfl, rfl, rfl, rfl, rfl, by decide, rfl, rfl, rfl, rfl, by decide, by decide⟩

/-- DecodeMovesTheOpOrStalls, what decode writes: a word that decodes, a word of no row. -/
theorem witness_decode_writes :
    (∃ i, decodeWord (readyOp 0x01095021).instr = .ok i ∧
      (⟨some 8, some 9, some 10, false, false, false, false⟩ : OperandClass) = classOf i) ∧
    ∃ r, decodeWord (readyOp 0x70000000).instr = .error r := ⟨⟨.addu 10 8 9, rfl, rfl⟩, _, rfl⟩

/-- An MFHI or MFLO (`w`) in EX behind a divide: the longest countdown of 43 R173. -/
def behindDivide (w : Nat) : State := { ready w [] with mduBusy := 32 }

/-- MoveFromHiLoCompletesWhenNotBusy. -/
theorem witness_not_busy :
    (ready 0x00005010 []).Executes (readyOp 0x00005010) ∧ (ready 0x00005010 []).mduBusy = 0 :=
  ⟨⟨rfl, rfl⟩, rfl⟩

/-- MoveFromHiLoIsHeldExactlyTheCountdown, MFHI and MFLO. -/
theorem witness_behind_divide :
    ((behindDivide 0x00005010).Executes (readyOp 0x00005010) ∧ (readyOp 0x00005010).DecodedInv ∧
      decodeWord (readyOp 0x00005010).instr = .ok (.mfhi 10) ∧ 32 ≤ (behindDivide 0x00005010).mduBusy) ∧
    ((behindDivide 0x00005012).Executes (readyOp 0x00005012) ∧ (readyOp 0x00005012).DecodedInv ∧
      decodeWord (readyOp 0x00005012).instr = .ok (.mflo 10)) :=
  ⟨⟨⟨rfl, rfl⟩, rfl, rfl, by decide⟩, ⟨⟨rfl, rfl⟩, rfl, rfl⟩⟩

/-! Deciding the invariants of a concrete state: the quantifiers of `State.Inv` range over lists and slots. -/

/-- `State.Inv` from its parts, each a decidable statement. -/
theorem inv_of_parts {s : State}
    (config : s.cfg.wf = true ∧ s.regs.get 0 = 0 ∧ s.recov = Recovery.inactive ∧
      s.mduBusy ≤ divLatency)
    (de : ∀ op ∈ s.de, ((op.predTaken = true → op.predIsBranch = true) ∧
      (op.predTaken = false → op.predDest = nextSeq op.pc)) ∧ op.dstReady = false)
    (ex : ∀ op ∈ s.ex, ((op.predTaken = true → op.predIsBranch = true) ∧
      (op.predTaken = false → op.predDest = nextSeq op.pc)) ∧ op.decode = op ∧ op.dstReady = false)
    (me : ∀ op ∈ s.me, ((op.predTaken = true → op.predIsBranch = true) ∧
      (op.predTaken = false → op.predDest = nextSeq op.pc)) ∧ op.decode = op ∧
      (op.dst ≠ none → op.dstReady = !op.isMem))
    (wb : ∀ op ∈ s.wb, ((op.predTaken = true → op.predIsBranch = true) ∧
      (op.predTaken = false → op.predDest = nextSeq op.pc)) ∧ op.decode = op ∧
      (op.dst ≠ none → op.dstReady = true))
    (path : (∀ e ∈ s.ex, ∀ d ∈ s.de, d.pc = e.predDest) ∧
      (∀ e ∈ s.ex, s.de = none → s.run = true → s.pc = e.predDest) ∧
      (∀ d ∈ s.de, s.run = true → s.pc = d.predDest))
    (caches : ∀ gc ∈ [(s.cfg.l1i, s.hier.l1i), (s.cfg.l1d, s.hier.l1d), (s.cfg.l2, s.hier.l2)],
      gc.2.length = gc.1.sets ∧ ∀ ways ∈ gc.2,
        (ways.length = gc.1.ways ∧ (ways.map (·.rank)).Perm (List.range gc.1.ways) ∧
          ways.Pairwise (fun a b => a.valid = true → b.valid = true → a.tag ≠ b.tag)) ∧
        ∀ b ∈ ways, b.data.length = s.cfg.blockWords ∧
          b.tag.toNat < 2 ^ (32 - (2 + s.cfg.blockShift + gc.1.setBits)))
    (rest : (∀ ways ∈ s.hier.l1i, ∀ b ∈ ways, b.dirty = false) ∧
      s.hier.mshr.length = s.cfg.l2Mshrs ∧ s.hier.store.wf = true)
    (cleanL2 : ∀ set ∈ List.range s.hier.l2.length, ∀ b ∈ s.hier.l2.ways set, b.valid = true →
      b.dirty = false →
        b.data = dramReadBlock s.cfg s.hier.store (blockAddrOf s.cfg s.cfg.l2 b.tag set))
    (cleanL1d : ∀ set ∈ List.range s.hier.l1d.length, ∀ b ∈ s.hier.l1d.ways set, b.valid = true →
      b.dirty = false → b.data = blockBelowL1 s.cfg s.hier (blockAddrOf s.cfg s.cfg.l1d b.tag set))
    (queues : ∀ q ∈ [s.hier.iq, s.hier.dq],
      q.Pairwise (fun a b => a.valid = true → b.valid = true → a.addr ≠ b.addr) ∧
        ∀ e ∈ q, e.valid = true → blockAddr s.cfg e.addr = e.addr)
    (unique : s.hier.mshr.Pairwise (fun a b => a.valid = true → b.valid = true → a.addr ≠ b.addr))
    (holders : (((s.hier.iq ++ s.hier.dq).filter (·.inDram)).map (·.addr)).Perm
      ((s.hier.mshr.filter (·.valid)).map (·.addr)))
    (data : (∀ e ∈ s.hier.dq, e.valid = false) ∨ (∃ op, s.me = some op ∧ op.isMem = true ∧
      ∀ e ∈ s.hier.dq, e.valid = true → e.addr = blockAddr s.cfg op.memAddr)) : s.Inv where
  config := config.1
  zeroReg := config.2.1
  noRecovery := config.2.2.1
  busy := config.2.2.2
  slots := ⟨de, ex, me, wb⟩
  path := ⟨path.1, path.2.1, path.2.2⟩
  caches :=
    ⟨caches (s.cfg.l1i, s.hier.l1i) (by simp), caches (s.cfg.l1d, s.hier.l1d) (by simp),
      caches (s.cfg.l2, s.hier.l2) (by simp), rest.1, rest.2.1, rest.2.2⟩
  clean := ⟨cleanL2, cleanL1d⟩
  miss := ⟨queues s.hier.iq (by simp), queues s.hier.dq (by simp), unique, holders⟩
  dataQueue := by
    intro e he hv
    rcases data with h | ⟨op, hop, hm, h⟩
    · rw [h e he] at hv
      exact absurd hv (by decide)
    · exact ⟨op, hop, hm, h e he hv⟩

/-- A BEQ nobody predicted (taken: both registers are 0), an Op behind it. -/
def mispredicted : State := twoInFlight 0x11090003 0

/-- A BNE predicted to fall through, as it does, an Op behind it. -/
def predicted : State :=
  { twoInFlight 0x15090003 0 with
    ex := some (newOp 0x00400000 0x15090003 ⟨0x00400004, true, false⟩).decode }

/-- A SW in ME whose block is in L1D. -/
def storing : State := inMem 0xAD090001 [(8, 0x10000000), (9, 0xDEADBEEF)] 0x10000000 0x11223344

/-- A LW in ME whose block is in no cache. -/
def deferring : State :=
  { inMem 0x8D0D0000 [(8, 0x10000000)] 0x10000000 0 with hier := tiny.hier }

/-- A LW in ME whose block is in L1D, behind it in EX an ADDU that reads the loaded register. -/
def loadUse : State :=
  { inMem 0x8D0D0000 [(8, 0x10000000)] 0x10000000 0x11223344 with
    ex := some (readyOp 0x01AD7021) }

theorem inv_movable : movable.Inv :=
  inv_of_parts (by decide) (by decide) (by decide) (by decide) (by decide) (by decide) (by decide)
    (by decide) (by decide) (by decide) (by decide) (by decide) (by decide) (.inl (by decide))

theorem inv_waiting : waiting.Inv :=
  inv_of_parts (by decide) (by decide) (by decide) (by decide) (by decide) (by decide) (by decide)
    (by decide) (by decide) (by decide) (by decide) (by decide) (by decide) (.inl (by decide))

theorem inv_mispredicted : mispredicted.Inv :=
  inv_of_parts (by decide) (by decide) (by decide) (by decide) (by decide) (by decide) (by decide)
    (by decide) (by decide) (by decide) (by decide) (by decide) (by decide) (.inl (by decide))

theorem inv_predicted : predicted.Inv :=
  inv_of_parts (by decide) (by decide) (by decide) (by decide) (by decide) (by decide) (by decide)
    (by decide) (by decide) (by decide) (by decide) (by decide) (by decide) (.inl (by decide))

theorem inv_storing : storing.Inv :=
  inv_of_parts (by decide) (by decide) (by decide) (by decide) (by decide) (by decide) (by decide)
    (by decide) (by decide) (by decide) (by decide) (by decide) (by decide) (.inl (by decide))

theorem inv_deferring : deferring.Inv :=
  inv_of_parts (by decide) (by decide) (by decide) (by decide) (by decide) (by decide) (by decide)
    (by decide) (by decide) (by decide) (by decide) (by decide) (by decide) (.inl (by decide))

theorem inv_load_use : loadUse.Inv :=
  inv_of_parts (by decide) (by decide) (by decide) (by decide) (by decide) (by decide) (by decide)
    (by decide) (by decide) (by decide) (by decide) (by decide) (by decide) (.inl (by decide))

/-- The Op that execute moves to ME. -/
def movedOp (w : Nat) (regs : List (Nat × Nat)) : Op :=
  ((after (ready w regs)).me).getD (readyOp 0)

/-- StoresChangeExactlyTheirBytes: SB at byte 3, SH at halfword 1, SW at a misaligned address. -/
theorem witness_stores :
    ((ready 0xA10A0003 [(8, 0x10000000), (10, 0xAB)]).Executes (readyOp 0xA10A0003) ∧
      exec (.sb 10 3 8) (ready 0xA10A0003 [(8, 0x10000000), (10, 0xAB)]) =
        .next ((ready 0xA10A0003 [(8, 0x10000000), (10, 0xAB)]).tickMdu.moveToMem
          (movedOp 0xA10A0003 [(8, 0x10000000), (10, 0xAB)]))) ∧
    ((ready 0xA50A0003 [(8, 0x10000000), (10, 0xAB)]).Executes (readyOp 0xA50A0003) ∧
      exec (.sh 10 3 8) (ready 0xA50A0003 [(8, 0x10000000), (10, 0xAB)]) =
        .next ((ready 0xA50A0003 [(8, 0x10000000), (10, 0xAB)]).tickMdu.moveToMem
          (movedOp 0xA50A0003 [(8, 0x10000000), (10, 0xAB)]))) ∧
    ((ready 0xAD090001 [(8, 0x10000000), (9, 0xDEADBEEF)]).Executes (readyOp 0xAD090001) ∧
      exec (.sw 9 1 8) (ready 0xAD090001 [(8, 0x10000000), (9, 0xDEADBEEF)]) =
        .next ((ready 0xAD090001 [(8, 0x10000000), (9, 0xDEADBEEF)]).tickMdu.moveToMem
          (movedOp 0xAD090001 [(8, 0x10000000), (9, 0xDEADBEEF)])) ∧
      storing.Inv ∧ storing.me = some (movedOp 0xAD090001 [(8, 0x10000000), (9, 0xDEADBEEF)]) ∧
      storing.wb = none ∧ memStage storing = .next (afterMem storing) ∧
      (afterMem storing).me = none) :=
  ⟨⟨⟨rfl, rfl⟩, rfl⟩, ⟨⟨rfl, rfl⟩, rfl⟩, ⟨rfl, rfl⟩, rfl, inv_storing, rfl, rfl, rfl, rfl⟩

/-- What a request gives, or the hierarchy as it was. -/
def loadOr (h : Hierarchy) : Result Loaded → Loaded
  | .next r => r
  | _ => ⟨h, none⟩

/-- DataRequestsReturnAndKeepTheDataView: available (a hit) and pending (a miss). -/
theorem witness_data_requests :
    (storing.cfg.wf = true ∧ CachesInv storing.cfg storing.hier ∧ CleanCopies storing.cfg storing.hier ∧
      QueueInv storing.cfg storing.hier.dq ∧ load storing.cfg .d storing.hier 0x10000002 =
        .next (loadOr storing.hier (load storing.cfg .d storing.hier 0x10000002)) ∧
      (loadOr storing.hier (load storing.cfg .d storing.hier 0x10000002)).word = some 0x11223344) ∧
    (load storing.cfg .d storing.hier 0x20000000 =
        .next (loadOr storing.hier (load storing.cfg .d storing.hier 0x20000000)) ∧
      (loadOr storing.hier (load storing.cfg .d storing.hier 0x20000000)).word = none) :=
  ⟨⟨rfl, inv_storing.caches, inv_storing.clean, inv_storing.miss.dq, rfl, rfl⟩, rfl, rfl⟩

/-- StepChangesMemoryOnlyByTheStoreInMem, StepKeepsTheCacheInvariants, StepKeepsCleanCopies,
StepKeepsThePipelineInvariants: a store completes; nothing is in ME. -/
theorem witness_memory_step :
    (storing.Inv ∧ memStage (writebackStage storing) = .next (afterMem storing) ∧
      step storing = .next (after storing) ∧ (afterMem storing).me = none ∧
      storing.me.map (fun op => (op.isMem, op.memWrite)) = some (true, true)) ∧
    (movable.Inv ∧ memStage (writebackStage movable) = .next (afterMem movable) ∧
      step movable = .next (after movable) ∧ movable.me = none) :=
  ⟨⟨inv_storing, rfl, rfl, rfl, rfl⟩, inv_movable, rfl, rfl, rfl⟩

/-- StepKeepsTheMissInvariants: a load waits in ME, and the step leaves a valid DQ entry for it. -/
theorem witness_miss_step :
    deferring.Inv ∧ step deferring = .next (after deferring) ∧
      (after deferring).hier.dq.any (·.valid) = true ∧ (after deferring).me ≠ none :=
  ⟨inv_deferring, rfl, rfl, by decide⟩

/-- UnrecognisedWordHasNoEffect. -/
theorem witness_unrecognised :
    (ready 0x70000000 []).Executes (readyOp 0x70000000) ∧ (readyOp 0x70000000).DecodedInv ∧
      decodeWord (readyOp 0x70000000).instr = .error (.unrecognisedOp 0x1C) := ⟨⟨rfl, rfl⟩, rfl, rfl⟩

/-- ExecuteFrame: an instruction all of whose clauses apply. -/
theorem witness_execute_frame :
    exec (.addu 10 8 9) movable = .next (afterExecute movable) ∧ setsHi (.addu 10 8 9) = false ∧
      setsLo (.addu 10 8 9) = false ∧ loadsCountdown (.addu 10 8 9) = false ∧
      isCondBranch (.addu 10 8 9) = false ∧ isControl (.addu 10 8 9) = false :=
  ⟨rfl, rfl, rfl, rfl, rfl, rfl⟩

/-- ExecuteHoldsExactlyOnExHold: EX empty, held, not held. -/
theorem witness_ex_hold :
    tiny.ex = none ∧
    (waiting.ex = some (readyOp 0x00005010) ∧ (readyOp 0x00005010).DecodedInv ∧
      waiting.exHold (readyOp 0x00005010) = true) ∧
    (movable.ex = some (readyOp 0x01095021) ∧ (readyOp 0x01095021).DecodedInv ∧
      movable.exHold (readyOp 0x01095021) = false) :=
  ⟨rfl, ⟨rfl, rfl, rfl⟩, rfl, rfl, rfl⟩

/-- An Op bound for register 8, with its value ready or not. -/
def producer (isReady : Bool) : Op :=
  { readyOp 0x01094021 with dstVal := 5, dstReady := isReady }

/-- BypassTakesTheYoungestProducer: one state a clause, the highest register number in the last. -/
theorem witness_bypass :
    ({ tiny with me := some (producer true) }.me = some (producer true) ∧
      (producer true).dst = some 8 ∧ (producer true).dstReady = true) ∧
    ((producer false).dst = some 8 ∧ (producer false).dstReady = false) ∧
    ((∀ m, { tiny with wb := some (producer true) }.me = some m → m.dst ≠ some 8) ∧
      { tiny with wb := some (producer true) }.wb = some (producer true)) ∧
    ((31 : Reg) ≠ 0 ∧ (∀ m, tiny.me = some m → m.dst ≠ some 31) ∧
      (∀ w, tiny.wb = some w → w.dst ≠ some 31)) :=
  ⟨⟨rfl, rfl, rfl⟩, ⟨rfl, rfl⟩, ⟨fun _ h => absurd h (by simp [tiny, State.initial]), rfl⟩, by decide,
    fun _ h => absurd h (by simp [tiny, State.initial]),
    fun _ h => absurd h (by simp [tiny, State.initial])⟩

/-- NoLoadUseBubbleOnAHit: a load completes in mem while its consumer waits in EX. -/
theorem witness_load_use :
    loadUse.Inv ∧ memStage (writebackStage loadUse) = .next (afterMem loadUse) ∧
      (afterMem loadUse).me = none ∧ loadUse.me ≠ none :=
  ⟨inv_load_use, rfl, rfl, by decide⟩

/-- RecoveryIsRecordedOnceAndAppliedAtTheEnd. -/
theorem witness_no_recovery : tiny.recov.active = false := rfl

/-- The branch that execute moves to ME from a state. -/
def branchOf (s : State) : Op := ((afterExecute (afterMem s)).me).getD (readyOp 0)

/-- MispredictionFlushesExactlyTheYoungerOps: with a mismatch, without one. -/
theorem witness_misprediction :
    (mispredicted.Inv ∧ memStage (writebackStage mispredicted) = .next (afterMem mispredicted) ∧
      (afterMem mispredicted).ex = some (readyOp 0x11090003) ∧
      (afterMem mispredicted).exHold (readyOp 0x11090003) = false ∧
      (readyOp 0x11090003).isBranch = true ∧
      executeStage (afterMem mispredicted) = .next (afterExecute (afterMem mispredicted)) ∧
      (afterExecute (afterMem mispredicted)).me = some (branchOf mispredicted) ∧
      step mispredicted = .next (after mispredicted) ∧ (branchOf mispredicted).mismatch = true) ∧
    (predicted.Inv ∧ memStage (writebackStage predicted) = .next (afterMem predicted) ∧
      (afterMem predicted).ex = predicted.ex ∧ (afterMem predicted).exHold (branchOf predicted) = false ∧
      (branchOf predicted).isBranch = true ∧
      executeStage (afterMem predicted) = .next (afterExecute (afterMem predicted)) ∧
      (afterExecute (afterMem predicted)).me = some (branchOf predicted) ∧
      step predicted = .next (after predicted) ∧ (branchOf predicted).mismatch = false) :=
  ⟨⟨inv_mispredicted, rfl, rfl, rfl, rfl, rfl, rfl, rfl, rfl⟩,
    inv_predicted, rfl, rfl, rfl, rfl, rfl, rfl, rfl, rfl⟩

/-- WritebackCommitsHaltsAndRetires: WB empty; an Op with a destination; the halting syscall. -/
theorem witness_writeback :
    tiny.wb = none ∧ (inWb 0x01090021 []).wb = some (movedOp 0x01090021 []) ∧
      (inWb 0x0000000C [(2, 10)]).wb.map (fun op => (op.opcode, op.subop, op.src1Val)) =
        some (0x00, 0x0C, 10) := ⟨rfl, rfl, rfl⟩

/-- OnlyWritebackWritesRegistersAndRun, CountersBalanceTheSlots: a step without and one with a recovery;
after the first `run` is set. -/
theorem witness_steps :
    (movable.recov = Recovery.inactive ∧ step movable = .next (after movable) ∧
      (after movable).run = true ∧ (after movable).statSquash = movable.statSquash) ∧
    (mispredicted.recov = Recovery.inactive ∧ step mispredicted = .next (after mispredicted) ∧
      (after mispredicted).statSquash = mispredicted.statSquash + 1) :=
  ⟨⟨rfl, rfl, rfl, rfl⟩, rfl, rfl, rfl⟩

/-- FetchDecisionTable: halted; pending; available with DE occupied; available with DE free. -/
theorem witness_fetch :
    ({ tiny with run := false }.run = false) ∧
    (tiny.run = true ∧ load tiny.cfg .i tiny.hier tiny.pc =
        .next (loadOr tiny.hier (load tiny.cfg .i tiny.hier tiny.pc)) ∧
      (loadOr tiny.hier (load tiny.cfg .i tiny.hier tiny.pc)).word = none) ∧
    (movable.run = true ∧ load movable.cfg .i movable.hier movable.pc =
        .next (loadOr movable.hier (load movable.cfg .i movable.hier movable.pc)) ∧
      (loadOr movable.hier (load movable.cfg .i movable.hier movable.pc)).word = some 0 ∧
      movable.de ≠ none ∧ { movable with de := none }.de = none) :=
  ⟨rfl, ⟨rfl, rfl, rfl⟩, rfl, rfl, rfl, by decide, rfl⟩

/-- ValidBtbEntriesStayValid: a step that overwrites the entry it finds valid. -/
theorem witness_valid_btb :
    step (mispredicted.refreshBtb 0x00401000 0x00400100 true) =
        .next (after (mispredicted.refreshBtb 0x00401000 0x00400100 true)) ∧
      ((mispredicted.refreshBtb 0x00401000 0x00400100 true).btb.get 0).valid = true := ⟨rfl, rfl⟩

/-- PredictorScenarioOfTheSource: the source's J, and a JR to 0x00400100, with entry 0 invalid. -/
theorem witness_scenario :
    ((0 : Fin 1024) = ((0x00400000#32).extractLsb' 2 10).toFin ∧
      ((ready 0x08100040 []).btb.get 0).valid = false ∧
      (ready 0x08100040 []).Executes (readyOp 0x08100040) ∧ (readyOp 0x08100040).pc = 0x00400000 ∧
      (0x00400100 : Word) = jumpTarget 0x00400000 0x0100040) ∧
    (((ready 0x01000008 [(8, 0x00400100)]).btb.get 0).valid = false ∧
      (ready 0x01000008 [(8, 0x00400100)]).Executes (readyOp 0x01000008) ∧
      (0x00400100 : Word) = (ready 0x01000008 [(8, 0x00400100)]).operand 8) :=
  ⟨⟨rfl, rfl, ⟨rfl, rfl⟩, rfl, rfl⟩, rfl, ⟨rfl, rfl⟩, rfl⟩

/-- BtbRefreshOverwritesOneEntry at the highest index, and CountersSaturate at both bounds. -/
theorem witness_predictor_bounds :
    (0x00400FFC : Word).toNat / 4 % 1024 = 1023 ∧ (tiny.counter 0).toNat = 0 ∧
    ({ tiny with pht := tiny.pht.set 0 3 }.counter 0).toNat = 3 := by decide

/-- TouchMovesOneWayToTheFront: the first and the last way, and a way between; a set with one invalid
way; a full set; an install into the only way of L2 and of L1D. -/
theorem witness_touch :
    (0 < (ranked [2, 3, 1, 0]).length ∧ 3 < (ranked [2, 3, 1, 0]).length ∧
      (blockAt (ranked [2, 3, 1, 0]) 2).rank < (blockAt (ranked [2, 3, 1, 0]) 0).rank) ∧
    (∃ b ∈ ranked [1, 0] ++ [⟨false, false, 0, 2, [0]⟩], b.valid = false) ∧
    (SetInv 4 (ranked [2, 3, 1, 0]) ∧ ∀ b ∈ ranked [2, 3, 1, 0], b.valid = true) ∧
    (storing.cfg.wf = true ∧ CachesInv storing.cfg storing.hier ∧
      storing.hier.l2.find storing.cfg storing.cfg.l2 0x20000000 = none ∧
      (storing.hier.l1 .d).find storing.cfg (l1Geometry storing.cfg .d) 0x20000000 = none) :=
  ⟨by decide, by decide, ⟨⟨rfl, by decide, by decide⟩, by decide⟩, rfl, inv_storing.caches, rfl, rfl⟩

/-- StalledEntriesCountDownAndDramRequestAdvances and DramAccessMarksItsMshrDone. -/
theorem witness_entries :
    (QueueEntry.mk true 0x20 .stalledOnDram 1).valid = true ∧
    0 < (QueueEntry.mk true 0x20 .stalledOnDram 1).stall ∧
    (QueueEntry.mk true 0x20 .stalledOnDramRequest 0).stall = 0 ∧
    (QueueEntry.mk true 0x20 .stalledOnDram 0).state = .stalledOnDram ∧
    (MshrEntry.mk true false 0x20).addr = (QueueEntry.mk true 0x20 .stalledOnDram 0).addr := by decide

/-- A hierarchy with the block 0x10000000 in L2 only. -/
def onlyInL2 : State :=
  { storing with hier := { storing.hier with l1d := tiny.hier.l1d, l2 := oneBlock 0x10000000 7 true } }

theorem inv_only_in_l2 : onlyInL2.Inv :=
  inv_of_parts (by decide) (by decide) (by decide) (by decide) (by decide) (by decide) (by decide)
    (by decide) (by decide) (by decide) (by decide) (by decide) (by decide) (.inl (by decide))

/-- RequestLatenciesAreExact: a hit in L1, a hit in L2, a miss in both with an MSHR free. -/
theorem witness_latencies :
    (storing.cfg.wf = true ∧ CachesInv storing.cfg storing.hier ∧
      (∀ e ∈ storing.hier.queue .d, e.valid = false) ∧
      (storing.hier.l1 .d).find storing.cfg (l1Geometry storing.cfg .d) 0x10000000 ≠ none) ∧
    (CachesInv onlyInL2.cfg onlyInL2.hier ∧ (∀ e ∈ onlyInL2.hier.queue .d, e.valid = false) ∧
      (onlyInL2.hier.l1 .d).find onlyInL2.cfg (l1Geometry onlyInL2.cfg .d) 0x10000000 = none ∧
      onlyInL2.hier.l2.find onlyInL2.cfg onlyInL2.cfg.l2 0x10000000 ≠ none) ∧
    (CachesInv deferring.cfg deferring.hier ∧ (∀ e ∈ deferring.hier.queue .d, e.valid = false) ∧
      (deferring.hier.l1 .d).find deferring.cfg (l1Geometry deferring.cfg .d) 0x10000000 = none ∧
      deferring.hier.l2.find deferring.cfg deferring.cfg.l2 0x10000000 = none ∧
      (∀ m ∈ deferring.hier.mshr, m.holds (blockAddr deferring.cfg 0x10000000) = false) ∧
      ∃ m ∈ deferring.hier.mshr, m.valid = false) :=
  ⟨⟨rfl, inv_storing.caches, by decide, by decide⟩,
    ⟨inv_only_in_l2.caches, by decide, by decide, by decide⟩,
    inv_deferring.caches, by decide, by decide, by decide, by decide, by decide⟩

/-- The hierarchy a store leaves, or the one it found. -/
def hierOr (h : Hierarchy) : Result Hierarchy → Hierarchy
  | .next h' => h'
  | _ => h

/-- StoredWordIsReadBack. -/
theorem witness_store_word :
    storing.cfg.wf = true ∧ CachesInv storing.cfg storing.hier ∧
      storeWord storing.cfg storing.hier 0x10000003 5 =
        .next (hierOr storing.hier (storeWord storing.cfg storing.hier 0x10000003 5)) :=
  ⟨rfl, inv_storing.caches, rfl⟩

/-- InitGivesTheResetState: the last set and way of each cache in configuration E, and another state with
the same configuration, run flag and store. -/
theorem witness_init :
    3 < (l1Geometry Config.exampleE .i).sets ∧ 1 < (l1Geometry Config.exampleE .i).ways ∧
    7 < Config.exampleE.l2.sets ∧ 1 < Config.exampleE.l2.ways ∧
    ({ tiny with pc := 0, hi := 5 } : State).cfg = tiny.cfg ∧
    ({ tiny with pc := 0, hi := 5 } : State).run = tiny.run ∧
    ({ tiny with pc := 0, hi := 5 } : State).hier.store = tiny.hier.store := by decide

/-- ResetMeetsTheInvariants: a configuration and a flat store with bytes in it. -/
theorem witness_initial :
    tinyConfig.wf = true ∧ Memory.wf (Memory.writeWord [] 0x00400000 0x2402000A) = true := by decide

/-- NoFatalConditionOccurs. -/
theorem witness_no_fatal : storing.Inv ∧ storing.stopped = false := ⟨inv_storing, rfl⟩

/-- CycleIsOneInstructionInProgramOrder and ExecutionFollowsProgramOrder: an executed Op, a held Op, an
empty EX. -/
theorem witness_program_order :
    (movable.Inv ∧ memStage (writebackStage movable) = .next (afterMem movable) ∧
      step movable = .next (after movable) ∧ (after movable).run = true ∧
      (afterMem movable).ex = some (readyOp 0x01095021) ∧
      (afterMem movable).exHold (readyOp 0x01095021) = false ∧
      (readyOp 0x01095021).predTaken = false) ∧
    (waiting.Inv ∧ step waiting = .next (after waiting) ∧ (after waiting).run = true ∧
      (afterMem waiting).ex = some (readyOp 0x00005010) ∧
      (afterMem waiting).exHold (readyOp 0x00005010) = true) ∧
    (storing.Inv ∧ step storing = .next (after storing) ∧ (after storing).run = true ∧
      (afterMem storing).ex = none) :=
  ⟨⟨inv_movable, rfl, rfl, rfl, rfl, rfl, rfl⟩, ⟨inv_waiting, rfl, rfl, rfl, rfl⟩,
    inv_storing, rfl, rfl, rfl⟩

end Sys2Proof.Tests
end

section
/-! PROOFS. Execute as the dispatch runs it: everything one evaluation can do, for every word (43 R160 to
R187). -/

namespace Sys2Proof.Machine

/-! ### The fields of an Op that fetch and decode write -/

/-- What fetch records (45 R228, R231). -/
def Op.fetchedFields (op : Op) : Word × Bool × Bool × Word :=
  (op.pc, op.predIsBranch, op.predTaken, op.predDest)

/-- The word and what decode writes (44 R202, R203). -/
def Op.decodedFields (op : Op) : (Word × BitVec 6 × BitVec 6 × BitVec 16 × Word × BitVec 5 × BitVec 26) ×
    Option Reg × Option Reg × Option Reg × Bool × Bool × Bool × Bool :=
  ((op.instr, op.opcode, op.subop, op.imm16, op.seImm, op.shamt, op.jtarget),
    op.src1, op.src2, op.dst, op.isMem, op.memWrite, op.isBranch, op.branchCond)

theorem Op.predictionInv_congr {m op : Op} (e : m.fetchedFields = op.fetchedFields) :
    m.PredictionInv ↔ op.PredictionInv := by
  simp only [Op.fetchedFields, Prod.mk.injEq] at e
  obtain ⟨e1, e2, e3, e4⟩ := e
  unfold Op.PredictionInv
  rw [e1, e2, e3, e4]

theorem Op.decodedInv_congr {m op : Op} (e : m.decodedFields = op.decodedFields)
    (h : op.DecodedInv) : m.DecodedInv := by
  simp only [Op.decodedFields, Prod.mk.injEq] at e
  obtain ⟨⟨e1, e2, e3, e4, e5, e6, e7⟩, c1, c2, c3, c4, c5, c6, c7⟩ := e
  obtain ⟨h1, h2, h3, h4, h5, h6, k⟩ := op.decodedInv_iff.1 h
  rw [Op.decodedInv_iff, e1, e2, e3, e4, e5, e6, e7]
  exact ⟨h1, h2, h3, h4, h5, h6, c1.trans k.src1, c2.trans k.src2, c3.trans k.dst, c4.trans k.isMem,
    c5.trans k.memWrite, c6.trans k.isBranch, c7.trans k.branchCond⟩

/-- No instruction that stores has a destination (30 R100). -/
theorem classOfWord_dst_of_memWrite {w : Word} (h : (classOfWord w).memWrite = true) :
    (classOfWord w).dst = none := by
  unfold classOfWord at h ⊢
  split at h
  · next i _ =>
    cases i <;> simp_all [classOf, aluClass, branchClass, jumpClass, loadClass, storeClass]
  · rfl

theorem Op.dst_of_memWrite {op : Op} (hd : op.DecodedInv) (hw : op.memWrite = true) : op.dst = none := by
  obtain ⟨-, -, -, -, -, -, c⟩ := op.decodedInv_iff.1 hd
  rw [c.dst]
  exact classOfWord_dst_of_memWrite (c.memWrite ▸ hw)

/-! ### The ready bit and the countdown (43 R172, R173) -/

/-- `Compute` makes the result of every instruction but a load ready, and loads the countdown with at most
DIV_LATENCY. -/
structure ComputeReady (i : Instr) (compute : Op → State → Op × State) : Prop where
  ready : ∀ op s, op.dstReady = false → (classOf i).dst ≠ none →
    (compute op s).1.dstReady = !(classOf i).isMem
  busy : ∀ op s, (compute op s).2.mduBusy ≤ max s.mduBusy divLatency

theorem exec_ready_shape (i : Instr) :
    ∃ compute, (∀ s, exec i s = executeAs i compute s) ∧ ComputeReady i compute := by
  cases i
  all_goals
    apply Exists.intro
    apply And.intro
    · intro s
      dsimp only [exec]
      exact rfl
    constructor
    case ready =>
      intro op s hr hd
      simp_all [classOf, aluClass, branchClass, jumpClass, loadClass, storeClass, inOp, Op.result,
        Op.address, Op.branch]
    case busy => intro op s; simp [inOp, multLatency, divLatency]

/-! ### Everything `Execute()` can do -/

/-- The Op `m` is the decoded Op `held` after execute has computed it. -/
structure Op.ExecutedFrom (m held : Op) : Prop where
  fetched : m.fetchedFields = held.fetchedFields
  decoded : m.DecodedInv
  ready : m.dst ≠ none → m.dstReady = !m.isMem

/-- Nothing but the countdown moves, or the Op in EX is computed, resolved and moved to ME. -/
inductive ExecuteOutcome (s : State) : State → Prop where
  /-- EX is empty, ME is occupied, or the Op waits for HI or LO (R162, R163, R176) -/
  | tick : ExecuteOutcome s s.tickMdu
  /-- the Op is consumed (R160) -/
  | moves (held m : Op) (a b : Word) (n : Nat) (hx : s.Executes held)
      (hm : held.DecodedInv → held.dstReady = false → m.ExecutedFrom held)
      (hn : n ≤ max s.mduBusy divLatency) :
      ExecuteOutcome s (((s.tickMdu.writeHiLo a b n).resolveBranch m).moveToMem m)

/-- The consumed Op, for a `Compute` of the common shape. -/
theorem ComputeFrame.executedFrom {i : Instr} {compute : Op → State → Op × State}
    (hf : ComputeFrame i compute) {s t : State} {held : Op} (hi : decodeWord held.instr = .ok i)
    (hd : held.DecodedInv)
    (hr : (classOf i).dst ≠ none → (compute (s.withOperands held) t).1.dstReady = !(classOf i).isMem) :
    (compute (s.withOperands held) t).1.ExecutedFrom held := by
  have hdf : (compute (s.withOperands held) t).1.decodedFields = held.decodedFields := by
    simp only [Op.decodedFields, hf.instr, hf.opcode, hf.subop, hf.imm16, hf.seImm, hf.shamt, hf.jtarget,
      hf.src1, hf.src2, hf.dst, hf.isMem, hf.memWrite, hf.isBranch, hf.branchCond, State.withOperands]
  have hff : (compute (s.withOperands held) t).1.fetchedFields = held.fetchedFields := by
    simp only [Op.fetchedFields, hf.pc, hf.predIsBranch, hf.predTaken, hf.predDest, State.withOperands]
  have hdec := Op.decodedInv_congr hdf hd
  refine ⟨hff, hdec, ?_⟩
  obtain ⟨-, -, -, -, -, -, c⟩ := (Op.decodedInv_iff _).1 hdec
  rw [c.dst, c.isMem, hf.instr, show (s.withOperands held).instr = held.instr from rfl, classOfWord, hi]
  exact hr

theorem exec_outcome {i : Instr} {s t : State} (hi : ∀ op ∈ s.ex, decodeWord op.instr = .ok i)
    (h : exec i s = .next t) : ExecuteOutcome s t := by
  obtain ⟨c, hc, hf⟩ := exec_shape i
  obtain ⟨c', hc', hr⟩ := exec_ready_shape i
  rcases executeWith_cases (·.readAs i) (readsHiLo i) c s with ⟨he, -⟩ | ⟨held, hx, hw, he⟩
  · rw [hc, executeAs, he] at h
    cases h
    exact .tick
  · have he' := executeAs_consumes (compute := c') hx hw
    rw [← hc', h] at he'
    rw [hc, executeAs, he] at h
    have het := (Host.Outcome.next.inj h).trans (Host.Outcome.next.inj he')
    obtain ⟨a, b, n, hs⟩ := hf.state (s.withOperands (held.readAs i)) s.tickMdu
    have hn : n = (c' (s.withOperands (held.readAs i)) s.tickMdu).2.mduBusy := by
      simpa [hs] using congrArg State.mduBusy het
    have hme : (c (s.withOperands (held.readAs i)) s.tickMdu).1 =
        (c' (s.withOperands (held.readAs i)) s.tickMdu).1 := by
      simpa using congrArg State.me het
    cases h
    rw [hs]
    refine .moves held _ a b n hx (fun hd hrdy => ?_) ?_
    · rw [Op.readAs_of_decoded hd (hi held hx.1)] at hme ⊢
      exact hf.executedFrom (hi held hx.1) hd (hme ▸ hr.ready _ _ hrdy)
    · have := hr.busy (s.withOperands (held.readAs i)) s.tickMdu
      rw [← hn, State.tickMdu_mduBusy] at this
      omega

theorem executeUnrecognised_outcome {s t : State}
    (hi : ∀ op ∈ s.ex, classOfWord op.instr = unrecognisedClass)
    (h : executeUnrecognised s = .next t) : ExecuteOutcome s t := by
  rcases executeWith_cases (·.classify unrecognisedClass) false (inOp id) s with
    ⟨he, -⟩ | ⟨held, hx, -, he⟩
  · rw [executeUnrecognised, he] at h
    cases h
    exact .tick
  · rw [executeUnrecognised, he] at h
    cases h
    refine .moves held (s.withOperands (held.classify unrecognisedClass)) s.tickMdu.hi s.tickMdu.lo
      s.tickMdu.mduBusy hx (fun hd _ => ⟨rfl, ?_, fun hn => absurd rfl hn⟩) ?_
    · obtain ⟨-, -, -, -, -, -, k⟩ := held.decodedInv_iff.1 hd
      rw [hi held hx.1] at k
      refine Op.decodedInv_congr (op := held) ?_ hd
      simp only [Op.decodedFields, State.withOperands, Op.classify, k.src1, k.src2, k.dst, k.isMem,
        k.memWrite, k.isBranch, k.branchCond]
    · rw [State.tickMdu_mduBusy]; omega

theorem executeStage_outcome {s t : State} (h : executeStage s = .next t) : ExecuteOutcome s t := by
  unfold executeStage at h
  split at h
  · cases h; exact .tick
  · next op hop =>
    split at h
    · next i hi =>
      exact exec_outcome (fun o ho => by rw [hop] at ho; cases ho; exact hi) h
    · next hi =>
      refine executeUnrecognised_outcome (fun o ho => ?_) h
      rw [hop] at ho
      cases ho
      rw [classOfWord, hi]

end Sys2Proof.Machine
end

section
/-! PROOFS. What each handler keeps of the pipeline: the slots, the fetch path, the pending recovery, register
0 and the countdown; and so what a step keeps (O54). -/

namespace Sys2Proof.Machine

/-! ### Frames of a step -/

@[simp] theorem writebackStage_cfg (s : State) : (writebackStage s).cfg = s.cfg := by
  rw [writebackStage_frame]

@[simp] theorem writebackStage_de (s : State) : (writebackStage s).de = s.de := by
  rw [writebackStage_frame]

@[simp] theorem writebackStage_ex (s : State) : (writebackStage s).ex = s.ex := by
  rw [writebackStage_frame]

@[simp] theorem writebackStage_me (s : State) : (writebackStage s).me = s.me := by
  rw [writebackStage_frame]

@[simp] theorem writebackStage_pc (s : State) : (writebackStage s).pc = s.pc := by
  rw [writebackStage_frame]

@[simp] theorem writebackStage_recov (s : State) : (writebackStage s).recov = s.recov := by
  rw [writebackStage_frame]

@[simp] theorem writebackStage_mduBusy (s : State) : (writebackStage s).mduBusy = s.mduBusy := by
  rw [writebackStage_frame]

@[simp] theorem writebackStage_hier (s : State) : (writebackStage s).hier = s.hier := by
  rw [writebackStage_frame]

/-- Writeback never sets `run` (R133). -/
theorem run_of_writebackStage {s : State} (h : (writebackStage s).run = true) : s.run = true := by
  unfold writebackStage at h
  split at h
  · exact h
  · rw [State.retire_run, State.haltIf_run] at h
    split at h
    · cases h
    · simpa using h

/-- Writeback never writes register 0's entry (10 R21). -/
theorem writebackStage_regs_zero (s : State) : (writebackStage s).regs.get 0 = s.regs.get 0 := by
  unfold writebackStage State.commit
  split
  · rfl
  · rw [State.retire_regs, State.haltIf_regs]
    split
    · exact s.writeReg_regs_zero _ _
    · rfl

/-- `Decode()` touches DE and EX only. -/
theorem decodeStage_frame (s : State) :
    decodeStage s = { s with de := (decodeStage s).de, ex := (decodeStage s).ex } := by
  rcases decodeStage_cases s with ⟨h, -⟩ | ⟨op, -, -, h⟩ <;> rw [h]

@[simp] theorem decodeStage_cfg (s : State) : (decodeStage s).cfg = s.cfg := by
  rw [decodeStage_frame]

@[simp] theorem decodeStage_regs (s : State) : (decodeStage s).regs = s.regs := by
  rw [decodeStage_frame]

@[simp] theorem decodeStage_me (s : State) : (decodeStage s).me = s.me := by
  rw [decodeStage_frame]

@[simp] theorem decodeStage_wb (s : State) : (decodeStage s).wb = s.wb := by
  rw [decodeStage_frame]

@[simp] theorem decodeStage_recov (s : State) : (decodeStage s).recov = s.recov := by
  rw [decodeStage_frame]

@[simp] theorem decodeStage_mduBusy (s : State) : (decodeStage s).mduBusy = s.mduBusy := by
  rw [decodeStage_frame]

@[simp] theorem decodeStage_hier (s : State) : (decodeStage s).hier = s.hier := by
  rw [decodeStage_frame]

/-- Execute touches neither the configuration, the register file nor the hierarchy. -/
structure ExecuteKeeps (s t : State) : Prop where
  cfg : t.cfg = s.cfg
  regs : t.regs = s.regs
  hier : t.hier = s.hier

theorem ExecuteOutcome.keeps {s t : State} (h : ExecuteOutcome s t) : ExecuteKeeps s t := by
  cases h with
  | tick => exact ⟨rfl, rfl, rfl⟩
  | moves => constructor <;> simp

/-! ### Slots (44 R207, 45 R232, 41 R131) -/

theorem SlotsInv.writeback {s : State} (h : SlotsInv s) : SlotsInv (writebackStage s) := by
  refine ⟨?_, ?_, ?_, ?_⟩
  · rw [writebackStage_de]; exact h.de
  · rw [writebackStage_ex]; exact h.ex
  · rw [writebackStage_me]; exact h.me
  · rw [writebackStage_wb]; exact fun op ho => nomatch ho

/-- A slot that holds one Op. -/
theorem forall_mem_some {P : Op → Prop} {op : Op} (h : P op) : ∀ o ∈ some op, P o := by
  rintro o ⟨⟩; exact h

theorem forall_mem_none {P : Op → Prop} : ∀ o ∈ (none : Option Op), P o := fun _ h => nomatch h

/-- An Op leaves ME with its result ready: a non-load had it, a load gets it, a store has none. -/
theorem SlotsInv.mem {s t : State} (h : SlotsInv s) (hm : MemOutcome s t) : SlotsInv t := by
  cases hm with
  | empty | held => exact h
  | wait => exact ⟨h.de, h.ex, h.me, h.wb⟩
  | pass op ho _ hmem =>
    obtain ⟨hp, hd, hr⟩ := h.me op ho
    exact ⟨h.de, h.ex, forall_mem_none, forall_mem_some ⟨hp, hd, fun hn => by rw [hr hn, hmem]; rfl⟩⟩
  | load op _ _ ho =>
    obtain ⟨hp, hd, -⟩ := h.me op ho
    exact ⟨h.de, h.ex, forall_mem_none,
      forall_mem_some ⟨hp, Op.decodedInv_congr (op := op) rfl hd, fun _ => rfl⟩⟩
  | store op _ _ _ ho _ _ _ _ hw =>
    obtain ⟨hp, hd, -⟩ := h.me op ho
    exact ⟨h.de, h.ex, forall_mem_none,
      forall_mem_some ⟨hp, hd, fun hn => absurd (Op.dst_of_memWrite hd hw) hn⟩⟩

theorem SlotsInv.execute {s t : State} (h : SlotsInv s) (he : ExecuteOutcome s t) : SlotsInv t := by
  cases he with
  | tick => exact ⟨h.de, h.ex, h.me, h.wb⟩
  | moves held m _ _ _ hx hm _ =>
    obtain ⟨hp, hd, hr⟩ := h.ex held hx.1
    obtain ⟨hf, hdec, hready⟩ := hm hd hr
    refine ⟨by simpa using h.de, forall_mem_none, ?_, by simpa using h.wb⟩
    exact forall_mem_some ⟨(Op.predictionInv_congr hf).2 hp, hdec, hready⟩

theorem SlotsInv.decode {s : State} (h : SlotsInv s) : SlotsInv (decodeStage s) := by
  rcases decodeStage_cases s with ⟨he, -⟩ | ⟨op, ho, -, he⟩ <;> rw [he]
  · exact h
  · obtain ⟨hp, hr⟩ := h.de op ho
    exact ⟨forall_mem_none, forall_mem_some ⟨hp, op.decodedInv_decode, hr⟩, h.me, h.wb⟩

/-- A prediction is taken only for a branch, and falls through when it is not taken (46 R264 to R266). -/
theorem newOp_predictionInv (s : State) (w : Word) :
    (newOp s.pc w (s.predict s.pc)).PredictionInv := by
  simp only [Op.PredictionInv, newOp, State.predict]
  split
  · split <;> simp
  · simp

theorem SlotsInv.fetch {s t : State} (h : SlotsInv s) (hf : FetchOutcome s t) : SlotsInv t := by
  cases hf with
  | halted | wait | full => exact ⟨h.de, h.ex, h.me, h.wb⟩
  | deliver _ w => exact ⟨forall_mem_some ⟨newOp_predictionInv s w, rfl⟩, h.ex, h.me, h.wb⟩

/-! ### The fetch path (45 R232) -/

theorem PathInv.writeback {s : State} (h : PathInv s) : PathInv (writebackStage s) := by
  refine ⟨?_, ?_, ?_⟩ <;> simp only [writebackStage_de, writebackStage_ex, writebackStage_pc]
  · exact h.exDe
  · exact fun e he hd hr => h.exPc e he hd (run_of_writebackStage hr)
  · exact fun d hd hr => h.dePc d hd (run_of_writebackStage hr)

theorem PathInv.mem {s t : State} (h : PathInv s) (hm : memStage s = .next t) : PathInv t := by
  rw [memStage_frame hm]
  exact ⟨h.exDe, h.exPc, h.dePc⟩

theorem PathInv.execute {s t : State} (h : PathInv s) (he : ExecuteOutcome s t) : PathInv t := by
  cases he with
  | tick => exact ⟨h.exDe, h.exPc, h.dePc⟩
  | moves => exact ⟨forall_mem_none, forall_mem_none, by simpa using h.dePc⟩

theorem PathInv.decode {s : State} (h : PathInv s) : PathInv (decodeStage s) := by
  rcases decodeStage_cases s with ⟨he, -⟩ | ⟨op, ho, -, he⟩ <;> rw [he]
  · exact h
  · exact ⟨fun _ _ => forall_mem_none, forall_mem_some fun _ => h.dePc op ho, forall_mem_none⟩

theorem PathInv.fetch {s t : State} (h : PathInv s) (hf : FetchOutcome s t) : PathInv t := by
  cases hf with
  | halted hr =>
    have hnot : s.run ≠ true := by simp [hr]
    exact ⟨h.exDe, fun _ _ _ h' => absurd h' hnot, fun _ _ h' => absurd h' hnot⟩
  | wait | full => exact ⟨h.exDe, h.exPc, h.dePc⟩
  | deliver _ _ hr _ _ hd =>
    exact ⟨fun e he => forall_mem_some (h.exPc e he hd hr), fun _ _ h' => (nomatch h'),
      forall_mem_some fun _ => rfl⟩

/-! ### The pending recovery (40 R118 to R120) -/

/-- During a cycle: no recovery is pending, or execute has asked for its own (R117, R183). -/
def RecoveryInv (s : State) : Prop :=
  s.recov = Recovery.inactive ∨ (s.recov.active = true ∧ s.recov.depth = branchFlushDepth)

theorem RecoveryInv.execute {s t : State} (h : s.recov = Recovery.inactive) (he : ExecuteOutcome s t) :
    RecoveryInv t := by
  cases he with
  | tick => exact .inl h
  | moves held m =>
    unfold RecoveryInv
    rw [State.moveToMem_recov]
    cases hb : m.isBranch with
    | false => rw [State.resolveBranch_of_not_branch _ hb]; exact .inl h
    | true =>
      rw [State.resolveBranch_of_branch _ hb, State.refreshBtb_recov, State.updateIfCond_recov,
        State.recoverIfMismatch_recov, State.writeHiLo_recov, State.tickMdu_recov, h]
      split
      · exact .inr ⟨rfl, rfl⟩
      · exact .inl rfl

theorem fetchStage_recov {s t : State} (h : fetchStage s = .next t) : t.recov = s.recov := by
  rw [fetchStage_frame h]

/-- The recovery execute asks for empties DE and EX and nothing else. -/
theorem applyRecovery_cases {s : State} (h : RecoveryInv s) :
    s.applyRecovery = s ∧ s.recov = Recovery.inactive ∨
    s.applyRecovery = { s with
      pc := s.recov.dest, de := none, ex := none, recov := Recovery.inactive
      statSquash := s.statSquash + 1 } := by
  rcases h with h | ⟨ha, hd⟩
  · exact .inl ⟨State.applyRecovery_inactive (by rw [h]; rfl), h⟩
  · right
    simp [State.applyRecovery, ha, hd, flushSlot, branchFlushDepth]

theorem RecoveryInv.applyRecovery_recov {s : State} (h : RecoveryInv s) :
    s.applyRecovery.recov = Recovery.inactive := by
  rcases applyRecovery_cases h with ⟨he, hr⟩ | he <;> rw [he]
  exact hr

theorem RecoveryInv.applyRecovery_me {s : State} (h : RecoveryInv s) : s.applyRecovery.me = s.me := by
  rcases applyRecovery_cases h with ⟨he, -⟩ | he <;> rw [he]

theorem SlotsInv.applyRecovery {s : State} (h : SlotsInv s) (hr : RecoveryInv s) :
    SlotsInv s.applyRecovery := by
  rcases applyRecovery_cases hr with ⟨he, -⟩ | he <;> rw [he]
  · exact h
  · exact ⟨forall_mem_none, forall_mem_none, h.me, h.wb⟩

theorem PathInv.applyRecovery {s : State} (h : PathInv s) (hr : RecoveryInv s) :
    PathInv s.applyRecovery := by
  rcases applyRecovery_cases hr with ⟨he, -⟩ | he <;> rw [he]
  · exact h
  · exact ⟨forall_mem_none, forall_mem_none, forall_mem_none⟩

/-! ### The countdown (10 R29) -/

theorem ExecuteOutcome.mduBusy_le {s t : State} (he : ExecuteOutcome s t) (h : s.mduBusy ≤ divLatency) :
    t.mduBusy ≤ divLatency := by
  cases he with
  | tick => exact (Nat.sub_le _ _).trans h
  | moves _ _ _ _ n _ _ hn =>
    rw [State.moveToMem_mduBusy, State.resolveBranch_mduBusy, State.writeHiLo_mduBusy]
    exact hn.trans (max_le h le_rfl)

/-! ### A step, handler by handler (40 R110) -/

/-- The states of one step between its handlers, with what each handler did. -/
structure StepStages (s m e f t : State) : Prop where
  mem : memStage (writebackStage s) = .next m
  execute : ExecuteOutcome m e
  fetch : fetchStage (decodeStage e) = .next f
  recovery : t = f.applyRecovery

theorem step_stages {s t : State} (h : step s = .next t) : ∃ m e f, StepStages s m e f t := by
  obtain ⟨-, -, m, e, f, hm, he, hf, ht⟩ := step_eq_next.1 h
  exact ⟨m, e, f, hm, executeStage_outcome he, hf, ht⟩

section Stages
variable {s m e f t : State} (h : StepStages s m e f t)
include h

theorem StepStages.mem_cfg : m.cfg = s.cfg := by
  rw [memStage_frame h.mem]; simp

theorem StepStages.execute_cfg : e.cfg = s.cfg := h.execute.keeps.cfg.trans h.mem_cfg

theorem StepStages.cfg : t.cfg = s.cfg := by
  rw [h.recovery, State.applyRecovery_cfg, fetchStage_frame h.fetch]
  simpa using h.execute_cfg

theorem StepStages.regs : t.regs = (writebackStage s).regs := by
  rw [h.recovery, State.applyRecovery_regs, fetchStage_frame h.fetch]
  refine (decodeStage_regs e).trans (h.execute.keeps.regs.trans ?_)
  rw [memStage_frame h.mem]

theorem StepStages.mduBusy : t.mduBusy = e.mduBusy := by
  rw [h.recovery, State.applyRecovery_mduBusy, fetchStage_frame h.fetch]
  simp

/-- Before `ApplyRecovery` at most execute's own recovery is pending. -/
theorem StepStages.recoveryInv (hi : s.recov = Recovery.inactive) : RecoveryInv f := by
  have hm : m.recov = Recovery.inactive := by rw [memStage_frame h.mem]; simpa using hi
  have he := RecoveryInv.execute hm h.execute
  unfold RecoveryInv at he ⊢
  rwa [fetchStage_recov h.fetch, decodeStage_recov]

theorem StepStages.slots (hi : s.recov = Recovery.inactive) (hs : SlotsInv s) : SlotsInv t := by
  have hm := hs.writeback.mem (memStage_outcome h.mem)
  have hf := ((hm.execute h.execute).decode).fetch (fetchStage_outcome h.fetch)
  rw [h.recovery]
  exact hf.applyRecovery (h.recoveryInv hi)

theorem StepStages.path (hi : s.recov = Recovery.inactive) (hp : PathInv s) : PathInv t := by
  have hm := hp.writeback.mem h.mem
  have hf := ((hm.execute h.execute).decode).fetch (fetchStage_outcome h.fetch)
  rw [h.recovery]
  exact hf.applyRecovery (h.recoveryInv hi)

theorem StepStages.countdown (hb : s.mduBusy ≤ divLatency) : t.mduBusy ≤ divLatency := by
  rw [h.mduBusy]
  refine h.execute.mduBusy_le ?_
  rw [memStage_frame h.mem]
  simpa using hb

end Stages

/-- Settles O54: each handler keeps the slots and the fetch path; the one recovery that can be pending is
execute's, which empties DE and EX. -/
theorem stepKeepsThePipelineInvariants : Obligations.StepKeepsThePipelineInvariants := by
  intro s t hs hstep
  obtain ⟨m, e, f, h⟩ := step_stages hstep
  refine ⟨h.cfg, ?_, ?_, h.countdown hs.busy, h.slots hs.noRecovery hs.slots,
    h.path hs.noRecovery hs.path⟩
  · rw [h.regs, writebackStage_regs_zero, hs.zeroReg]
  · rw [h.recovery]
    exact (h.recoveryInv hs.noRecovery).applyRecovery_recov

end Sys2Proof.Machine
end

section
/-! PROOFS. What each handler keeps of the caches and the flat store; and so what a step keeps (O55). -/

namespace Sys2Proof.Machine

section Operations
variable {cfg : Config} (hc : cfg.wf = true) {h : Hierarchy} (hi : CachesInv cfg h)
include hc hi

theorem load_cachesInv {k : Side} {a : Word} {r : Loaded} (hl : load cfg k h a = .next r) :
    CachesInv cfg r.hier := by
  obtain ⟨r', hr', hi', -⟩ := load_spec hc hi k a
  cases hl.symm.trans hr'
  exact hi'

/-- `Load` of one side leaves the other side's queue alone (R320). -/
theorem load_other_queue {k : Side} {a : Word} {r : Loaded} (hl : load cfg k h a = .next r) :
    r.hier.queue k.other = h.queue k.other := by
  obtain ⟨r', hr', -, -, hq⟩ := load_spec hc hi k a
  cases hl.symm.trans hr'
  exact hq

/-- `Store` writes one resident L1D block, makes it dirty and touches it (R340). -/
theorem storeWord_cachesInv {a v : Word} {h' : Hierarchy} (hs : storeWord cfg h a v = .next h') :
    CachesInv cfg h' := by
  have hg := l1Geometry_wf hc .d
  unfold storeWord at hs
  split at hs
  · cases hs
  · next w hf =>
    cases hs
    have hw := hi.l1d.find_lt hf
    have hlen : (h.l1d.block cfg cfg.l1d a w).data.length = cfg.blockWords :=
      ((hi.l1d.waysAt hg a).2 _ (blockAt_mem hw)).1
    refine hi.setL1 .d ((hi.l1d.setData hg hw true (by simpa using hlen)).touch hg ?_) (fun e => nomatch e)
    rw [Cache.ways_setBlock hg hi.l1d, if_pos rfl, List.length_set]
    exact hw

end Operations

theorem MemOutcome.cachesInv {s t : State} (h : MemOutcome s t) (hc : s.cfg.wf = true)
    (hi : CachesInv s.cfg s.hier) : CachesInv t.cfg t.hier := by
  cases h with
  | empty | held | pass => exact hi
  | wait _ _ _ _ _ hl => exact load_cachesInv hc hi hl
  | load _ _ _ _ _ _ hl => exact load_cachesInv hc hi hl
  | store _ _ _ _ _ _ _ hl _ _ hs => exact storeWord_cachesInv hc (load_cachesInv hc hi hl) hs

theorem FetchOutcome.cachesInv {s t : State} (h : FetchOutcome s t) (hc : s.cfg.wf = true)
    (hi : CachesInv s.cfg s.hier) : CachesInv t.cfg t.hier := by
  cases h with
  | halted => exact hi
  | wait _ _ hl | full _ _ _ hl | deliver _ _ _ hl => exact load_cachesInv hc hi hl

section Stages
variable {s m e f t : State} (h : StepStages s m e f t) (hc : s.cfg.wf = true)
  (hi : CachesInv s.cfg s.hier)
include h hc hi

theorem StepStages.mem_cachesInv : CachesInv s.cfg m.hier := by
  have hm := (memStage_outcome h.mem).cachesInv (by simpa using hc) (by simpa using hi)
  rwa [h.mem_cfg] at hm

/-- The hierarchy fetch finds is the one mem leaves. -/
theorem StepStages.fetch_cachesInv : CachesInv (decodeStage e).cfg (decodeStage e).hier := by
  rw [decodeStage_cfg, decodeStage_hier, h.execute_cfg, h.execute.keeps.hier]
  exact h.mem_cachesInv hc hi

theorem StepStages.cachesInv : CachesInv t.cfg t.hier := by
  have hcfg : (decodeStage e).cfg.wf = true := by rw [decodeStage_cfg, h.execute_cfg]; exact hc
  rw [h.recovery, State.applyRecovery_cfg, State.applyRecovery_hier]
  exact (fetchStage_outcome h.fetch).cachesInv hcfg (h.fetch_cachesInv hc hi)

end Stages

/-- Settles O55: only mem and fetch write the hierarchy, by `Load` and `Store`, which keep the invariant. -/
theorem stepKeepsTheCacheInvariants : Obligations.StepKeepsTheCacheInvariants := by
  intro s t hs hstep
  obtain ⟨m, e, f, h⟩ := step_stages hstep
  exact h.cachesInv hs.config hs.caches

end Sys2Proof.Machine
end

section
/-! PROOFS. The request queues and the miss-status table under one entry's advance, a scan, a request and a
step (O57). -/

namespace Sys2Proof.Machine

/-! ### The addresses in the table and those in the DRAM states (47 R335) -/

/-- The addresses of the valid miss-status entries. -/
def mshrAddrs (t : List MshrEntry) : List Word := (t.filter (·.valid)).map (·.addr)

/-- The addresses of the queue entries in a DRAM state. -/
def dramAddrs (q : List QueueEntry) : List Word := (q.filter (·.inDram)).map (·.addr)

/-- The table has one valid entry per address of `l`, and no other. -/
def MshrHeldBy (t : List MshrEntry) (l : List Word) : Prop := (mshrAddrs t).Nodup ∧ l.Perm (mshrAddrs t)

theorem dramAddrs_append (p q : List QueueEntry) : dramAddrs (p ++ q) = dramAddrs p ++ dramAddrs q := by
  simp [dramAddrs]

theorem dramAddrs_cons (e : QueueEntry) (q : List QueueEntry) :
    dramAddrs (e :: q) = (if e.inDram then [e.addr] else []) ++ dramAddrs q := by
  cases he : e.inDram <;> simp [dramAddrs, he]

theorem mshrAddrs_cons (e : MshrEntry) (t : List MshrEntry) :
    mshrAddrs (e :: t) = (if e.valid then [e.addr] else []) ++ mshrAddrs t := by
  cases he : e.valid <;> simp [mshrAddrs, he]

theorem mshrAddrs_nodup_iff (t : List MshrEntry) :
    (mshrAddrs t).Nodup ↔ t.Pairwise (fun a b => a.valid = true → b.valid = true → a.addr ≠ b.addr) := by
  rw [mshrAddrs, List.Nodup, List.pairwise_map, List.pairwise_filter]

/-- An entry in a DRAM state is valid, so the valid entries alone decide. -/
theorem dramAddrs_filter_valid (q : List QueueEntry) : dramAddrs (q.filter (·.valid)) = dramAddrs q := by
  unfold dramAddrs
  rw [List.filter_filter]
  congr 2
  funext e
  unfold QueueEntry.inDram
  cases e.valid <;> simp

/-! ### The miss-status table (R328, R331, R332) -/

/-- Taking an entry adds its address. -/
theorem mshrAddrs_allocate {t t' : List MshrEntry} {b : Word} (h : allocateMshr t b = some t') :
    (mshrAddrs t').Perm (b :: mshrAddrs t) := by
  induction t generalizing t' with
  | nil => cases h
  | cons e t ih =>
    unfold allocateMshr at h
    split at h
    · next hv =>
      obtain ⟨t'', h', rfl⟩ := Option.map_eq_some_iff.1 h
      simp only [mshrAddrs_cons, hv, if_true, List.singleton_append]
      exact ((ih h').cons _).trans (.swap _ _ _)
    · next hv =>
      cases h
      simp [mshrAddrs_cons, hv]

theorem mshrAddrs_markDone (t : List MshrEntry) (b : Word) :
    mshrAddrs (markMshrDone t b) = mshrAddrs t := by
  unfold markMshrDone
  induction t with
  | nil => rfl
  | cons e t ih =>
    rw [List.map_cons, mshrAddrs_cons, mshrAddrs_cons, ih]
    split <;> rfl

/-- Releasing drops the address. -/
theorem mshrAddrs_release (t : List MshrEntry) (b : Word) :
    mshrAddrs (releaseMshr t b) = (mshrAddrs t).filter (· != b) := by
  unfold releaseMshr
  induction t with
  | nil => rfl
  | cons e t ih =>
    rw [List.map_cons, mshrAddrs_cons, mshrAddrs_cons, ih, List.filter_append]
    congr 1
    cases hv : e.valid <;> by_cases ha : e.addr = b <;> simp [MshrEntry.holds, hv, ha]

theorem not_mem_mshrAddrs {t : List MshrEntry} {b : Word} (h : t.any (·.holds b) = false) :
    b ∉ mshrAddrs t := by
  intro hb
  obtain ⟨e, he, rfl⟩ := List.mem_map.1 hb
  obtain ⟨hm, hv⟩ := List.mem_filter.1 he
  have := List.any_eq_false.1 h e hm
  simp [MshrEntry.holds, hv] at this

/-! ### One entry's advance (R325 to R332) -/

/-- What one entry's advance does to the table, with the entry's DRAM state before and after. -/
inductive MshrMove (h : Hierarchy) (e : QueueEntry) (r : Stepped) : Prop where
  /-- the addresses in the table stay, and so does the entry's being in a DRAM state or not -/
  | keep (hm : mshrAddrs r.hier.mshr = mshrAddrs h.mshr) (hd : r.entry.inDram = e.inDram)
  /-- the entry takes a free miss-status entry and goes to DRAM (R328) -/
  | allocate (hn : e.inDram = false) (hd : r.entry.inDram = true)
      (hf : h.mshr.any (·.holds e.addr) = false) (hm : allocateMshr h.mshr e.addr = some r.hier.mshr)
  /-- the block has come from DRAM (R332) -/
  | release (hn : e.inDram = true) (hd : r.entry.inDram = false)
      (hm : r.hier.mshr = releaseMshr h.mshr e.addr)

/-- What one entry's advance does to the entry and the table. -/
structure EntryMove (h : Hierarchy) (e : QueueEntry) (r : Stepped) : Prop where
  addr : r.entry.addr = e.addr
  valid : r.entry.valid = true → e.valid = true
  finished : r.finished = true → e.valid = true ∧ r.entry.valid = false
  mshr : MshrMove h e r

/-- An entry that finishes without having been in a DRAM state. -/
theorem EntryMove.finish {h h' : Hierarchy} {e : QueueEntry} (hv : e.valid = true)
    (hn : e.inDram = false) (hm : h'.mshr = h.mshr) : EntryMove h e ⟨h', { e with valid := false }, true⟩ :=
  ⟨rfl, fun _ => hv, fun _ => ⟨hv, rfl⟩, .keep (by rw [hm]) hn.symm⟩

section Advance
variable {cfg : Config} (hc : cfg.wf = true)
include hc

theorem installL2_mshr {h h' : Hierarchy} (hi : CachesInv cfg h) {b : Word} {data : List Word}
    {dirty : Bool} (hd : data.length = cfg.blockWords) (he : installL2 cfg h b data dirty = .next h') :
    CachesInv cfg h' ∧ h'.mshr = h.mshr := by
  obtain ⟨l2, store, he', h2, hs⟩ := installL2_spec hc hi b dirty hd
  cases he.symm.trans he'
  exact ⟨hi.setL2 h2 hs, rfl⟩

theorem installL1_mshr {k : Side} {h h' : Hierarchy} (hi : CachesInv cfg h) {b : Word} {data : List Word}
    (hd : data.length = cfg.blockWords) (he : installL1 cfg k h b data = .next h') :
    h'.mshr = h.mshr := by
  obtain ⟨h'', he', -, -, hm, -⟩ := installL1_spec hc hi k b hd
  cases he.symm.trans he'
  exact hm

omit hc in
/-- A request that has not left for the levels below (R326 to R328). -/
theorem stepNotStalled_move (k : Side) (h : Hierarchy) {e : QueueEntry} (hv : e.valid = true)
    (hs : e.state = .notStalled) : EntryMove h e (stepNotStalled cfg k h e) := by
  have hn : e.inDram = false := by simp [QueueEntry.inDram, hs]
  unfold stepNotStalled
  split
  · exact .finish hv hn (by cases k <;> rfl)
  · split
    · exact ⟨rfl, id, fun hf => (nomatch hf), .keep rfl (by rw [hn]; simp [QueueEntry.inDram])⟩
    · split
      · exact ⟨rfl, id, fun hf => (nomatch hf), .keep rfl rfl⟩
      · next hany =>
        split
        · next ht =>
          exact ⟨rfl, id, fun hf => (nomatch hf),
            .allocate hn (by simp [QueueEntry.inDram, hv]) (by simpa using hany) ht⟩
        · exact ⟨rfl, id, fun hf => (nomatch hf), .keep rfl rfl⟩

/-- The block comes from L2 into L1 (R330). -/
theorem stepL2cHit_move {k : Side} {h : Hierarchy} (hi : CachesInv cfg h) {e : QueueEntry} {r : Stepped}
    (hv : e.valid = true) (hs : e.state = .stalledOnL2cHit) (he : stepL2cHit cfg k h e = .next r) :
    EntryMove h e r := by
  obtain ⟨h', hins, he⟩ := andThen_eq_next.1 he
  cases he
  exact .finish hv (by simp [QueueEntry.inDram, hs])
    (installL1_mshr hc hi (blockBelowL1_length hi (l2Geometry_wf hc) _) hins)

/-- The block comes from the flat store, and the miss-status entry is released (R332). -/
theorem stepDramResponse_move {k : Side} {h : Hierarchy} (hi : CachesInv cfg h) {e : QueueEntry}
    {waited : Bool} {r : Stepped} (hv : e.valid = true) (hs : e.state = .stalledOnDramResponse)
    (he : stepDramResponse cfg k h e waited = .next r) : EntryMove h e r := by
  obtain ⟨h1, hins, he⟩ := andThen_eq_next.1 he
  obtain ⟨hi1, hm1⟩ := installL2_mshr hc hi (dramReadBlock_length _ _ _) hins
  obtain ⟨h3, hins', he⟩ := andThen_eq_next.1 he
  have hi2 := hi1.setMshr (t := releaseMshr h1.mshr e.addr) (by simp [releaseMshr])
  have hm3 : h3.mshr = releaseMshr h.mshr e.addr := by
    rw [← hm1]
    split at hins'
    · exact installL1_mshr hc hi2 (blockBelowL1_length hi2 (l2Geometry_wf hc) _) hins'
    · cases hins'; rfl
  cases he
  exact ⟨rfl, fun _ => hv, fun _ => ⟨hv, rfl⟩,
    .release (by simp [QueueEntry.inDram, hv, hs]) rfl hm3⟩

theorem advanceEntry_move {k : Side} {h : Hierarchy} (hi : CachesInv cfg h) {e : QueueEntry}
    {waited : Bool} {r : Stepped} (he : advanceEntry cfg k h e waited = .next r) : EntryMove h e r := by
  unfold advanceEntry at he
  split at he
  · cases he; exact ⟨rfl, id, fun hf => (nomatch hf), .keep rfl rfl⟩
  next hv =>
  have hv : e.valid = true := by simpa using hv
  split at he
  · cases he; exact ⟨rfl, id, fun hf => (nomatch hf), .keep rfl rfl⟩
  unfold stepEntry at he
  split at he
  · next hs => cases he; exact stepNotStalled_move k h hv hs
  · next hs => exact stepL2cHit_move hc hi hv hs he
  · next hs =>
    cases he
    exact ⟨rfl, id, fun hf => (nomatch hf), .keep rfl (by simp [QueueEntry.inDram, hs])⟩
  · next hs =>
    cases he
    exact ⟨rfl, id, fun hf => (nomatch hf),
      .keep (mshrAddrs_markDone _ _) (by simp [QueueEntry.inDram, hs])⟩
  · next hs => exact stepDramResponse_move hc hi hv hs he

end Advance

/-- The table keeps in step with the entry, whatever else (`l`) holds miss-status entries (R335). -/
theorem EntryMove.heldBy {h : Hierarchy} {e : QueueEntry} {r : Stepped} {l : List Word}
    (hm : EntryMove h e r) (hh : MshrHeldBy h.mshr (dramAddrs [e] ++ l)) :
    MshrHeldBy r.hier.mshr (dramAddrs [r.entry] ++ l) := by
  obtain ⟨hnd, hp⟩ := hh
  simp only [dramAddrs_cons, hm.addr] at hp ⊢
  cases hm.mshr with
  | keep hmshr hd =>
    rw [MshrHeldBy, hmshr, hd]
    exact ⟨hnd, hp⟩
  | allocate hn hd hf halloc =>
    rw [hn] at hp
    have ha := mshrAddrs_allocate halloc
    refine ⟨ha.nodup_iff.2 (List.nodup_cons.2 ⟨not_mem_mshrAddrs hf, hnd⟩), ?_⟩
    rw [hd]
    exact (hp.cons e.addr).trans ha.symm
  | release hn hd hrel =>
    rw [hn] at hp
    rw [MshrHeldBy, hrel, mshrAddrs_release, hd]
    have hl : e.addr ∉ l := (List.nodup_cons.1 (hp.nodup_iff.2 hnd)).1
    refine ⟨hnd.filter _, ?_⟩
    have hfl : (e.addr :: l).filter (· != e.addr) = l := by
      rw [List.filter_cons_of_neg (by simp)]
      exact List.filter_eq_self.2 fun a ha => by simpa using fun h : a = e.addr => hl (h ▸ ha)
    exact hfl ▸ hp.filter (· != e.addr)

/-! ### A scan (R322, R333) -/

/-- A scan as the advances of its entries, each over the hierarchy the one before left. -/
inductive ScanMoves (b : Word) : Hierarchy → List QueueEntry → Scanned → Prop where
  | nil (h : Hierarchy) : ScanMoves b h [] ⟨h, [], false⟩
  | cons {h : Hierarchy} {e : QueueEntry} {q : List QueueEntry} {r : Stepped} {t : Scanned}
      (hm : EntryMove h e r) (ht : ScanMoves b r.hier q t) :
      ScanMoves b h (e :: q) ⟨t.hier, r.entry :: t.entries, (e.addr == b && r.finished) || t.avail⟩

theorem scanQueue_moves {cfg : Config} (hc : cfg.wf = true) {k : Side} {b : Word} {q : List QueueEntry}
    {h : Hierarchy} (hi : CachesInv cfg h) {t : Scanned} (hs : scanQueue cfg k b h q = .next t) :
    ScanMoves b h q t := by
  induction q generalizing h t with
  | nil => cases hs; exact .nil h
  | cons e q ih =>
    obtain ⟨r, hr, hs⟩ := andThen_eq_next.1 hs
    obtain ⟨t', ht, hs⟩ := andThen_eq_next.1 hs
    cases hs
    obtain ⟨r', hr', hk, -⟩ := advanceEntry_spec hc hi k e (e.addr == b)
    cases hr.symm.trans hr'
    exact .cons (advanceEntry_move hc hi hr) (ih hk.inv ht)

section Scan
variable {b : Word} {h : Hierarchy} {q : List QueueEntry} {t : Scanned} (hs : ScanMoves b h q t)
include hs

theorem ScanMoves.heldBy {l : List Word} (hh : MshrHeldBy h.mshr (dramAddrs q ++ l)) :
    MshrHeldBy t.hier.mshr (dramAddrs t.entries ++ l) := by
  induction hs generalizing l with
  | nil => exact hh
  | @cons h e q r t hm _ ih =>
    have hsplit : ∀ (e : QueueEntry) (q : List QueueEntry) (m : List Word),
        (dramAddrs (e :: q) ++ m).Perm (dramAddrs [e] ++ (dramAddrs q ++ m)) := fun e q m => by
      rw [← List.append_assoc, ← dramAddrs_append, List.singleton_append]
    have hswap : ∀ x y z : List Word, (x ++ (y ++ z)).Perm (y ++ (x ++ z)) := fun x y z => by
      rw [← List.append_assoc, ← List.append_assoc]
      exact List.perm_append_comm.append_right z
    obtain ⟨hnd, hp⟩ := hm.heldBy ⟨hh.1, (hsplit e q l).symm.trans hh.2⟩
    obtain ⟨hnd', hp'⟩ := ih ⟨hnd, (hswap _ _ _).trans hp⟩
    exact ⟨hnd', (hsplit _ _ _).trans ((hswap _ _ _).trans hp')⟩

/-- An entry after the scan is one before it, at the same address, and valid only if that was. -/
theorem ScanMoves.origin {e : QueueEntry} (he : e ∈ t.entries) :
    ∃ e₀ ∈ q, e.addr = e₀.addr ∧ (e.valid = true → e₀.valid = true) := by
  induction hs with
  | nil => cases he
  | @cons _ e₁ q _ _ hm _ ih =>
    rcases List.mem_cons.1 he with rfl | he
    · exact ⟨e₁, List.mem_cons_self, hm.addr, hm.valid⟩
    · obtain ⟨e₀, he₀, h⟩ := ih he
      exact ⟨e₀, List.mem_cons_of_mem _ he₀, h⟩

theorem ScanMoves.queueInv {cfg : Config} (hq : QueueInv cfg q) : QueueInv cfg t.entries := by
  constructor
  · replace hq := hq.1
    induction hs with
    | nil => exact .nil
    | cons hm ht ih =>
      obtain ⟨hhead, htail⟩ := List.pairwise_cons.1 hq
      refine List.pairwise_cons.2 ⟨fun e' he' hv hv' => ?_, ih htail⟩
      obtain ⟨e₀, he₀, ha, hval⟩ := ht.origin he'
      rw [hm.addr, ha]
      exact hhead e₀ he₀ (hm.valid hv) (hval hv')
  · intro e he hv
    obtain ⟨e₀, he₀, ha, hval⟩ := hs.origin he
    rw [ha]
    exact hq.2 e₀ he₀ (hval hv)

/-- When the waited entry has finished, no valid entry for its block is left: it was the only one. -/
theorem ScanMoves.none_left {cfg : Config} (hq : QueueInv cfg q) (ha : t.avail = true) :
    (∃ e ∈ q, e.valid = true ∧ e.addr = b) ∧ ∀ e ∈ t.entries, e.valid = true → e.addr ≠ b := by
  replace hq := hq.1
  induction hs with
  | nil => cases ha
  | @cons _ e₁ q r _ hm ht ih =>
    obtain ⟨hhead, htail⟩ := List.pairwise_cons.1 hq
    rcases Bool.or_eq_true_iff.1 ha with ha | ha
    · obtain ⟨haddr, hfin⟩ := Bool.and_eq_true_iff.1 ha
      have haddr : e₁.addr = b := by simpa using haddr
      obtain ⟨hv₁, hnv⟩ := hm.finished hfin
      refine ⟨⟨e₁, List.mem_cons_self, hv₁, haddr⟩, fun e he hv => ?_⟩
      rcases List.mem_cons.1 he with rfl | he
      · rw [hnv] at hv; cases hv
      · obtain ⟨e₀, he₀, hae, hval⟩ := ht.origin he
        rw [hae, ← haddr]
        exact (hhead e₀ he₀ hv₁ (hval hv)).symm
    · obtain ⟨⟨e₀, he₀, hv₀, ha₀⟩, hleft⟩ := ih ha htail
      refine ⟨⟨e₀, List.mem_cons_of_mem _ he₀, hv₀, ha₀⟩, fun e he hv => ?_⟩
      rcases List.mem_cons.1 he with rfl | he
      · rw [hm.addr, ← ha₀]
        exact hhead e₀ he₀ (hm.valid hv) hv₀
      · exact hleft e he hv

end Scan

/-! ### A new request (R321, R323) -/

/-- The slot claimed is an invalid one. -/
theorem claimSlot_eq_some {q q' : List QueueEntry} {b : Word} (h : claimSlot q b = some q') :
    ∃ l e r, q = l ++ e :: r ∧ e.valid = false ∧ q' = l ++ QueueEntry.request b :: r := by
  induction q generalizing q' with
  | nil => cases h
  | cons e q ih =>
    unfold claimSlot at h
    split at h
    · obtain ⟨q'', h', rfl⟩ := Option.map_eq_some_iff.1 h
      obtain ⟨l, e', r, rfl, hv, rfl⟩ := ih h'
      exact ⟨e :: l, e', r, rfl, hv, rfl⟩
    · next hv =>
      cases h
      exact ⟨[], e, q, rfl, by simpa using hv, rfl⟩

/-- A request coalesces, or stands as a new entry among the valid ones there were. -/
theorem enqueue_cases (q : List QueueEntry) (b : Word) :
    enqueue q b = q ∨ ∃ l r, enqueue q b = l ++ QueueEntry.request b :: r ∧
      (l ++ r).filter (·.valid) = q.filter (·.valid) ∧ ∀ e ∈ q, e.valid = true → e.addr ≠ b := by
  unfold enqueue
  split
  · exact .inl rfl
  · next hany =>
    have hnone : ∀ e ∈ q, e.valid = true → e.addr ≠ b := by
      simpa [QueueEntry.serves] using hany
    right
    split
    · next hcl =>
      obtain ⟨l, e, r, rfl, hv, rfl⟩ := claimSlot_eq_some hcl
      exact ⟨l, r, rfl, by simp [hv], hnone⟩
    · exact ⟨q, _, rfl, by simp [QueueEntry.free], hnone⟩

theorem enqueue_dramAddrs (q : List QueueEntry) (b : Word) : dramAddrs (enqueue q b) = dramAddrs q := by
  rcases enqueue_cases q b with he | ⟨l, r, he, hf, -⟩
  · rw [he]
  · rw [he, ← dramAddrs_filter_valid q, ← hf, dramAddrs_filter_valid, dramAddrs_append, dramAddrs_append,
      dramAddrs_cons]
    rfl

/-- A valid entry after a request is the new one or was there. -/
theorem mem_enqueue {q : List QueueEntry} {b : Word} {e : QueueEntry} (he : e ∈ enqueue q b)
    (hv : e.valid = true) : e ∈ q ∨ e.addr = b := by
  rcases enqueue_cases q b with h | ⟨l, r, h, hf, -⟩
  · exact .inl (h ▸ he)
  · rw [h, List.mem_append, List.mem_cons] at he
    rcases or_left_comm.1 he with rfl | hlr
    · exact .inr rfl
    · have : e ∈ (l ++ r).filter (·.valid) := List.mem_filter.2 ⟨List.mem_append.2 hlr, hv⟩
      rw [hf] at this
      exact .inl (List.mem_filter.1 this).1

theorem QueueInv.enqueue {cfg : Config} {q : List QueueEntry} (hq : QueueInv cfg q) (a : Word) :
    QueueInv cfg (enqueue q (blockAddr cfg a)) := by
  constructor
  · rcases enqueue_cases q (blockAddr cfg a) with he | ⟨l, r, he, hf, hnone⟩
    · rw [he]; exact hq.1
    · have hlr : (l ++ r).Pairwise (fun a b => a.valid = true → b.valid = true → a.addr ≠ b.addr) := by
        rw [← List.pairwise_filter, hf, List.pairwise_filter]; exact hq.1
      rw [he, List.pairwise_middle (fun h hx hy => (h hy hx).symm), List.pairwise_cons]
      refine ⟨fun e he _ hv => ?_, hlr⟩
      have : e ∈ q.filter (·.valid) := hf ▸ List.mem_filter.2 ⟨he, hv⟩
      exact (hnone e (List.mem_filter.1 this).1 hv).symm
  · intro e he hv
    rcases mem_enqueue he hv with he | ha
    · exact hq.2 e he hv
    · rw [ha, blockAddr_blockAddr]

/-! ### `Load` and `Store` (R322, R340) -/

/-- The invariant of the queues and the table, seen from one side. -/
theorem missInv_iff {cfg : Config} {h : Hierarchy} (k : Side) :
    MissInv cfg h ↔ QueueInv cfg (h.queue k) ∧ QueueInv cfg (h.queue k.other) ∧
      MshrHeldBy h.mshr (dramAddrs (h.queue k) ++ dramAddrs (h.queue k.other)) := by
  have hiff : MissInv cfg h ↔
      QueueInv cfg h.iq ∧ QueueInv cfg h.dq ∧ MshrHeldBy h.mshr (dramAddrs h.iq ++ dramAddrs h.dq) := by
    rw [MshrHeldBy, mshrAddrs_nodup_iff, ← dramAddrs_append]
    exact ⟨fun ⟨hiq, hdq, hu, hh⟩ => ⟨hiq, hdq, hu, hh⟩, fun ⟨hiq, hdq, hu, hh⟩ => ⟨hiq, hdq, hu, hh⟩⟩
  rw [hiff]
  cases k with
  | i => rfl
  | d =>
    have hcomm : (dramAddrs h.dq ++ dramAddrs h.iq).Perm (dramAddrs h.iq ++ dramAddrs h.dq) :=
      List.perm_append_comm
    exact ⟨fun ⟨hiq, hdq, hu, hh⟩ => ⟨hdq, hiq, hu, hcomm.trans hh⟩,
      fun ⟨hdq, hiq, hu, hh⟩ => ⟨hiq, hdq, hu, hcomm.symm.trans hh⟩⟩

section Load
variable {cfg : Config} (hc : cfg.wf = true) {h : Hierarchy} (hi : CachesInv cfg h) {k : Side} {a : Word}
  {r : Loaded} (hl : load cfg k h a = .next r)
include hc hi hl

/-- A request is a scan of the side's queue with the request in it. -/
theorem load_scan : ∃ t, ScanMoves (blockAddr cfg a) h (enqueue (h.queue k) (blockAddr cfg a)) t ∧
    r.hier = t.hier.setQueue k t.entries ∧ (r.word ≠ none → t.avail = true) := by
  obtain ⟨t, hs, he⟩ := andThen_eq_next.1 hl
  cases he
  refine ⟨t, scanQueue_moves hc hi hs, rfl, fun hw => ?_⟩
  by_contra hav
  exact hw (if_neg hav)

theorem load_missInv (hm : MissInv cfg h) : MissInv cfg r.hier := by
  obtain ⟨hk, ho, hh⟩ := (missInv_iff k).1 hm
  obtain ⟨t, hs, hr, -⟩ := load_scan hc hi hl
  have hq : r.hier.queue k = t.entries := by rw [hr]; cases k <;> rfl
  have hmshr : r.hier.mshr = t.hier.mshr := by rw [hr]; cases k <;> rfl
  rw [missInv_iff k, hq, load_other_queue hc hi hl, hmshr]
  exact ⟨hs.queueInv (hk.enqueue a), ho, hs.heldBy (by rwa [enqueue_dramAddrs])⟩

/-- A valid entry of the side's queue after a request is for its block, or was valid before. -/
theorem load_queue_origin {e : QueueEntry} (he : e ∈ r.hier.queue k) (hv : e.valid = true) :
    e.addr = blockAddr cfg a ∨ ∃ e₀ ∈ h.queue k, e₀.valid = true ∧ e.addr = e₀.addr := by
  obtain ⟨t, hs, hr, -⟩ := load_scan hc hi hl
  have hq : r.hier.queue k = t.entries := by rw [hr]; cases k <;> rfl
  obtain ⟨e₀, he₀, ha, hval⟩ := hs.origin (hq ▸ he)
  rcases mem_enqueue he₀ (hval hv) with hmem | hb
  · exact .inr ⟨e₀, hmem, hval hv, ha⟩
  · exact .inl (ha.trans hb)

/-- An answered request leaves no valid entry for its block. -/
theorem load_none_left (hm : MissInv cfg h) {w : Word} (hw : r.word = some w) {e : QueueEntry}
    (he : e ∈ r.hier.queue k) (hv : e.valid = true) : e.addr ≠ blockAddr cfg a := by
  obtain ⟨hk, -, -⟩ := (missInv_iff k).1 hm
  obtain ⟨t, hs, hr, hav⟩ := load_scan hc hi hl
  have hq : r.hier.queue k = t.entries := by rw [hr]; cases k <;> rfl
  exact (hs.none_left (hk.enqueue a) (hav (by rw [hw]; exact Option.some_ne_none w))).2 e (hq ▸ he) hv

end Load

/-- `Store` touches L1D only. -/
theorem storeWord_frame {cfg : Config} {h h' : Hierarchy} {a v : Word}
    (hs : storeWord cfg h a v = .next h') : h' = { h with l1d := h'.l1d } := by
  unfold storeWord at hs
  split at hs <;> cases hs
  rfl

/-! ### The handlers -/

/-- DQ has a valid entry only for the memory Op in ME (42 R150). -/
def DataQueueInv (s : State) : Prop :=
  ∀ e ∈ s.hier.dq, e.valid = true → ∃ op ∈ s.me, op.isMem = true ∧ e.addr = blockAddr s.cfg op.memAddr

theorem DataQueueInv.congr {s t : State} (h : DataQueueInv s) (hd : t.hier.dq = s.hier.dq)
    (hm : t.me = s.me) (hc : t.cfg = s.cfg) : DataQueueInv t := by
  unfold DataQueueInv
  rw [hd, hm, hc]
  exact h

/-- The queues and the table, and the DQ entries of the Op in ME. -/
structure RequestsInv (s : State) : Prop where
  miss : MissInv s.cfg s.hier
  data : DataQueueInv s

section Mem
variable {s : State} (hc : s.cfg.wf = true) (hi : CachesInv s.cfg s.hier) (hr : RequestsInv s)
include hc hi hr

/-- After the request of the Op in ME every valid DQ entry is for its block. -/
theorem RequestsInv.addr_of_load {op : Op} (ho : s.me = some op) {r : Loaded}
    (hl : load s.cfg .d s.hier op.memAddr = .next r) {e : QueueEntry} (he : e ∈ r.hier.dq)
    (hv : e.valid = true) : e.addr = blockAddr s.cfg op.memAddr := by
  rcases load_queue_origin hc hi hl he hv with ha | ⟨e₀, he₀, hv₀, ha⟩
  · exact ha
  · obtain ⟨op', ho', -, ha₀⟩ := hr.data e₀ he₀ hv₀
    rw [ho] at ho'
    cases ho'
    exact ha.trans ha₀

/-- Once the Op in ME is answered, DQ has no valid entry. -/
theorem RequestsInv.dq_of_answered {op : Op} (ho : s.me = some op) {r : Loaded}
    (hl : load s.cfg .d s.hier op.memAddr = .next r) {w : Word} (hw : r.word = some w) {e : QueueEntry}
    (he : e ∈ r.hier.dq) : e.valid ≠ true := fun hv =>
  load_none_left hc hi hl hr.miss hw he hv (hr.addr_of_load hc hi ho hl he hv)

theorem RequestsInv.mem {t : State} (hm : MemOutcome s t) : RequestsInv t := by
  cases hm with
  | empty | held => exact hr
  | pass op ho _ hmem =>
    refine ⟨hr.miss, fun e he hv => ?_⟩
    obtain ⟨op', ho', hmem', -⟩ := hr.data e he hv
    rw [ho] at ho'
    cases ho'
    rw [hmem] at hmem'
    cases hmem'
  | wait op r ho _ hmem hl =>
    exact ⟨load_missInv hc hi hl hr.miss,
      fun e he hv => ⟨op, ho, hmem, hr.addr_of_load hc hi ho hl he hv⟩⟩
  | load op r w ho _ _ hl hw =>
    exact ⟨load_missInv hc hi hl hr.miss, fun e he hv => absurd hv (hr.dq_of_answered hc hi ho hl hw he)⟩
  | store op r w hier ho _ _ hl hw _ hst =>
    have hfr := storeWord_frame hst
    have hmiss := load_missInv hc hi hl hr.miss
    refine ⟨?_, fun e he hv => ?_⟩
    · show MissInv s.cfg hier
      rw [hfr]
      exact ⟨hmiss.iq, hmiss.dq, hmiss.unique, hmiss.holders⟩
    · have he : e ∈ hier.dq := he
      rw [hfr] at he
      exact absurd hv (hr.dq_of_answered hc hi ho hl hw he)

theorem RequestsInv.fetch {t : State} (hf : FetchOutcome s t) : RequestsInv t := by
  cases hf with
  | halted => exact ⟨hr.miss, hr.data⟩
  | wait r _ hl | full r _ _ hl | deliver r _ _ hl =>
    exact ⟨load_missInv hc hi hl hr.miss, hr.data.congr (load_other_queue hc hi hl) rfl rfl⟩

end Mem

/-- Execute moves an Op to ME only when ME is free, and then DQ has no valid entry. -/
theorem RequestsInv.execute {s t : State} (hr : RequestsInv s) (he : ExecuteOutcome s t) :
    RequestsInv t := by
  cases he with
  | tick => exact ⟨hr.miss, hr.data⟩
  | moves held m a b n hx =>
    refine ⟨by simpa using hr.miss, fun e he hv => ?_⟩
    obtain ⟨op, ho, -⟩ := hr.data e (by simpa using he) hv
    rw [hx.2] at ho
    cases ho

theorem StepStages.requests {s m e f t : State} (h : StepStages s m e f t) (hc : s.cfg.wf = true)
    (hi : CachesInv s.cfg s.hier) (hrec : s.recov = Recovery.inactive) (hr : RequestsInv s) :
    RequestsInv t := by
  have hwb : RequestsInv (writebackStage s) :=
    ⟨by simpa using hr.miss, hr.data.congr (by simp) (by simp) (by simp)⟩
  have hme := (hwb.mem (by simpa using hc) (by simpa using hi) (memStage_outcome h.mem)).execute h.execute
  have hde : RequestsInv (decodeStage e) :=
    ⟨by simpa using hme.miss, hme.data.congr (by simp) (by simp) (by simp)⟩
  have hcfg : (decodeStage e).cfg.wf = true := by rw [decodeStage_cfg, h.execute_cfg]; exact hc
  have hfe := hde.fetch hcfg (h.fetch_cachesInv hc hi) (fetchStage_outcome h.fetch)
  rw [h.recovery]
  exact ⟨by simpa using hfe.miss,
    hfe.data.congr (by simp) (h.recoveryInv hrec).applyRecovery_me (by simp)⟩

/-- Settles O57: in a scan the table follows each entry in and out of the DRAM states, an answered request
leaves no valid entry for its block, and the recovery does not empty ME. -/
theorem stepKeepsTheMissInvariants : Obligations.StepKeepsTheMissInvariants := by
  intro s t hs hstep
  obtain ⟨m, e, f, h⟩ := step_stages hstep
  obtain ⟨hmiss, hdata⟩ := h.requests hs.config hs.caches hs.noRecovery ⟨hs.miss, hs.dataQueue⟩
  exact ⟨hmiss, hdata⟩

end Sys2Proof.Machine
end

section
/-! PROOFS. Who writes HI, LO, the countdown and the predictor (O38), and the state after `init()` (O53). -/

namespace Sys2Proof.Machine

/-- Settles O38: the frames of the other handlers. -/
theorem onlyExecuteWritesHiLoAndThePredictor : Obligations.OnlyExecuteWritesHiLoAndThePredictor := by
  intro s m e t hm he hstep
  obtain ⟨-, -, m', e', f, hm', he', hf, rfl⟩ := step_eq_next.1 hstep
  cases hm.symm.trans hm'
  cases he.symm.trans he'
  constructor
  · rw [memStage_frame hm, writebackStage_frame]
    exact ⟨rfl, rfl, rfl, rfl, rfl, rfl⟩
  · simp only [State.applyRecovery_hi, State.applyRecovery_lo, State.applyRecovery_mduBusy,
      State.applyRecovery_ghr, State.applyRecovery_pht, State.applyRecovery_btb]
    rw [fetchStage_frame hf, decodeStage_frame]
    exact ⟨rfl, rfl, rfl, rfl, rfl, rfl⟩

/-! ### After `init()` (10 R42, 47 R299) -/

/-- A block of a cache after `init()` is an initial one. -/
theorem mem_cacheInitial {cfg : Config} {g : Geometry} {ways : CacheSet}
    (h : ways ∈ Cache.initial cfg g) : ways = (List.range g.ways).map (CacheBlock.initial cfg) :=
  List.eq_of_mem_replicate h

theorem block_of_cacheInitial {cfg : Config} {g : Geometry} {ways : CacheSet} {b : CacheBlock}
    (h : ways ∈ Cache.initial cfg g) (hb : b ∈ ways) : ∃ w, b = CacheBlock.initial cfg w := by
  rw [mem_cacheInitial h] at hb
  obtain ⟨w, -, rfl⟩ := List.mem_map.1 hb
  exact ⟨w, rfl⟩

/-- Way `w` has rank `w`, and no block is valid (R42). -/
theorem setInv_initial (cfg : Config) (n : Nat) :
    SetInv n ((List.range n).map (CacheBlock.initial cfg)) := by
  refine ⟨by simp, ?_, ?_⟩
  · rw [List.map_map, show (CacheBlock.rank ∘ CacheBlock.initial cfg) = id from rfl, List.map_id]
  · rw [List.pairwise_map]
    exact List.pairwise_of_forall fun _ _ hv => nomatch hv

theorem cacheInv_initial (cfg : Config) (g : Geometry) : CacheInv cfg g (Cache.initial cfg g) := by
  refine ⟨List.length_replicate, fun ways hw => ⟨?_, fun b hb => ?_⟩⟩
  · rw [mem_cacheInitial hw]
    exact setInv_initial cfg g.ways
  · obtain ⟨w, rfl⟩ := block_of_cacheInitial hw hb
    exact ⟨List.length_replicate, Nat.two_pow_pos _⟩

/-- No block of a cache after `init()` is valid. -/
theorem cacheInitial_not_valid {cfg : Config} {g : Geometry} {set : Nat}
    (hs : set ∈ List.range (Cache.initial cfg g).length) {b : CacheBlock}
    (hb : b ∈ (Cache.initial cfg g).ways set) : b.valid ≠ true := by
  obtain ⟨w, rfl⟩ := block_of_cacheInitial (Cache.ways_mem (List.mem_range.1 hs)) hb
  exact fun h => nomatch h

theorem cachesInv_initial (cfg : Config) {store : Memory} (hs : store.wf = true) :
    CachesInv cfg (Hierarchy.initial cfg store) where
  l1i := cacheInv_initial cfg cfg.l1i
  l1d := cacheInv_initial cfg cfg.l1d
  l2 := cacheInv_initial cfg cfg.l2
  l1iClean := fun ways hw b hb => by
    obtain ⟨w, rfl⟩ := block_of_cacheInitial hw hb
    rfl
  mshrs := List.length_replicate
  store := hs

theorem cleanCopies_initial (cfg : Config) (store : Memory) :
    CleanCopies cfg (Hierarchy.initial cfg store) where
  l2 := fun _ hset _ hb hv => absurd hv (cacheInitial_not_valid hset hb)
  l1d := fun _ hset _ hb hv => absurd hv (cacheInitial_not_valid hset hb)

/-- A queue of free slots. -/
theorem queueInv_free (cfg : Config) (n : Nat) : QueueInv cfg (List.replicate n QueueEntry.free) := by
  have hv : ∀ e ∈ List.replicate n QueueEntry.free, e.valid ≠ true := fun e he => by
    rw [List.eq_of_mem_replicate he]
    exact Bool.false_ne_true
  exact ⟨List.pairwise_of_forall_mem_list fun a ha _ _ h => absurd h (hv a ha), fun e he h => absurd h (hv e he)⟩

theorem missInv_initial (cfg : Config) (store : Memory) : MissInv cfg (Hierarchy.initial cfg store) := by
  refine (missInv_iff .i).2 ⟨queueInv_free cfg _, queueInv_free cfg _, ?_⟩
  have hq : dramAddrs (List.replicate cfg.queueInitSize QueueEntry.free) = [] := by
    simp [dramAddrs, QueueEntry.free, QueueEntry.inDram]
  have ht : mshrAddrs (List.replicate cfg.l2Mshrs ⟨false, false, 0⟩) = [] := by simp [mshrAddrs]
  show MshrHeldBy (List.replicate cfg.l2Mshrs ⟨false, false, 0⟩)
    (dramAddrs (List.replicate cfg.queueInitSize QueueEntry.free) ++
      dramAddrs (List.replicate cfg.queueInitSize QueueEntry.free))
  rw [MshrHeldBy, hq, ht]
  exact ⟨.nil, .nil⟩

theorem inv_initial {cfg : Config} (run : Bool) {store : Memory} (hc : cfg.wf = true)
    (hs : store.wf = true) : (State.initial cfg run store).Inv where
  config := hc
  zeroReg := Table.get_fill 32 0 0
  noRecovery := rfl
  busy := Nat.zero_le _
  slots := ⟨forall_mem_none, forall_mem_none, forall_mem_none, forall_mem_none⟩
  path := ⟨forall_mem_none, forall_mem_none, forall_mem_none⟩
  caches := cachesInv_initial cfg hs
  clean := cleanCopies_initial cfg store
  miss := missInv_initial cfg store
  dataQueue := fun e he hv => by
    rw [List.eq_of_mem_replicate he] at hv
    cases hv

/-- Settles O53: after `init()` every slot is empty and no cache block, queue slot or miss-status entry is
valid. -/
theorem resetMeetsTheInvariants : Obligations.ResetMeetsTheInvariants :=
  ⟨fun _ run _ hc hs => inv_initial run hc hs, inv_initial true (by decide) Memory.wf_nil⟩

end Sys2Proof.Machine
end

section
/-! PROOFS. A cache over the level below it: what a block reads as, and what fills, evictions and
writebacks leave of that (47 R305, R308, R318, R345). -/

namespace Sys2Proof.Machine

section OneLevel
variable (cfg : Config) (g : Geometry)

/-- What the block of `a` reads as: its copy in the cache, else what lies below. -/
def Cache.dataOver (c : Cache) (below : Word → List Word) (a : Word) : List Word :=
  ((c.copy cfg g a).map Prod.fst).getD (below (blockAddr cfg a))

/-- A clean copy equals what lies below it (47 R345). -/
def Cache.CleanOver (c : Cache) (below : Word → List Word) : Prop :=
  ∀ a d, c.copy cfg g a = some (d, false) → d = below (blockAddr cfg a)

/-- `c'` over `below'` reads as `c` over `below`, but the block of `b` as `data`; its clean copies equal
what lies below. -/
structure Cache.Takes (c c' : Cache) (below below' : Word → List Word) (b : Word) (data : List Word) :
    Prop where
  data : ∀ a, c'.dataOver cfg g below' a =
    if blockAddr cfg a = blockAddr cfg b then data else c.dataOver cfg g below a
  clean : c'.CleanOver cfg g below'

/-- `below'` is `below` once the block in way `w` of the set of `b` is written back, if it is dirty
(47 R308). -/
def Cache.WritesBack (c : Cache) (b : Word) (w : Nat) (below below' : Word → List Word) : Prop :=
  ∀ a, below' (blockAddr cfg a) =
    if ((c.block cfg g b w).valid && (c.block cfg g b w).dirty) = true ∧
        blockAddr cfg a = c.residentAddr cfg g b w then
      (c.block cfg g b w).data
    else below (blockAddr cfg a)

end OneLevel

section OneLevel
variable {cfg : Config} {g : Geometry} {c : Cache} {below below' : Word → List Word}

theorem Cache.dataOver_of_copy {a : Word} {d : List Word} {x : Bool} (h : c.copy cfg g a = some (d, x)) :
    c.dataOver cfg g below a = d := by
  simp [Cache.dataOver, h]

theorem Cache.dataOver_of_absent {a : Word} (h : c.copy cfg g a = none) :
    c.dataOver cfg g below a = below (blockAddr cfg a) := by
  simp [Cache.dataOver, h]

/-- The copies and what lies below decide what is read. -/
theorem Cache.dataOver_congr {c' : Cache} {a : Word} (hc : c'.copy cfg g a = c.copy cfg g a)
    (hb : below' (blockAddr cfg a) = below (blockAddr cfg a)) :
    c'.dataOver cfg g below' a = c.dataOver cfg g below a := by
  rw [Cache.dataOver, Cache.dataOver, hc, hb]

theorem Cache.CleanOver.congr {c' : Cache} (h : c.CleanOver cfg g below)
    (hc : ∀ a, c'.copy cfg g a = c.copy cfg g a)
    (hb : ∀ a, below' (blockAddr cfg a) = below (blockAddr cfg a)) : c'.CleanOver cfg g below' := by
  intro a d hd
  rw [hc] at hd
  rw [hb]
  exact h a d hd

variable (hg : g.wf cfg.blockShift = true)
include hg

/-- Addresses of one block read the same block. -/
theorem Cache.dataOver_block {a b : Word} (h : blockAddr cfg a = blockAddr cfg b) :
    c.dataOver cfg g below a = c.dataOver cfg g below b := by
  rw [Cache.dataOver, Cache.dataOver, Cache.copy_congr hg h, h]

variable (hi : CacheInv cfg g c)
include hi

/-- The address of a resident block is a block address. -/
theorem CacheInv.blockAddr_residentAddr {b : Word} {w : Nat}
    (hw : w < (c.ways (setIndex cfg g b)).length) :
    blockAddr cfg (c.residentAddr cfg g b w) = c.residentAddr cfg g b w := by
  have ht : (c.block cfg g b w).tag.toNat < 2 ^ (32 - (2 + cfg.blockShift + g.setBits)) :=
    ((hi.waysAt hg b).2 _ (blockAt_mem hw)).2
  have hs := setIndex_lt hg b
  unfold Cache.residentAddr
  rw [← blockAddrOf_tagOf hg (blockAddrOf cfg g _ _), tagOf_blockAddrOf hg ht hs,
    setIndex_blockAddrOf hg ht hs]

/-- The copy of a resident block. -/
theorem CacheInv.copy_residentAddr {b : Word} {w : Nat} (hw : w < (c.ways (setIndex cfg g b)).length)
    (hv : (c.block cfg g b w).valid = true) :
    c.copy cfg g (c.residentAddr cfg g b w) =
      some ((c.block cfg g b w).data, (c.block cfg g b w).dirty) :=
  hi.copy_of_block hg (setIndex_lt hg b) (blockAt_mem hw) hv

/-- A fill over a written-back victim: the block filled reads as its data, the victim as what lies below
now, every other block as before (47 R305, R308). -/
theorem CacheInv.fill_takes {b : Word} {w : Nat} {data : List Word} {dirty : Bool}
    (hw : w < (c.ways (setIndex cfg g b)).length) (hf : c.find cfg g b = none)
    (hd : data.length = cfg.blockWords) (hcl : c.CleanOver cfg g below)
    (hb : c.WritesBack cfg g b w below below')
    (hdirty : dirty = false → data = below (blockAddr cfg b)) :
    c.Takes cfg g (c.fill cfg g b w data dirty) below below' b data := by
  have hcopy := Cache.copy_fill hg hi dirty hw hf hd
  have hvictim : ∀ a, (c.block cfg g b w).valid = true → blockAddr cfg a = c.residentAddr cfg g b w →
      c.copy cfg g a = some ((c.block cfg g b w).data, (c.block cfg g b w).dirty) := fun a hv ha => by
    rw [Cache.copy_congr hg (ha.trans (hi.blockAddr_residentAddr hg hw).symm)]
    exact hi.copy_residentAddr hg hw hv
  constructor
  · intro a
    split
    · next ha => exact Cache.dataOver_of_copy (by rw [hcopy, if_pos ha])
    · next ha =>
      by_cases hv : (c.block cfg g b w).valid = true ∧ blockAddr cfg a = c.residentAddr cfg g b w
      · have hold := hvictim a hv.1 hv.2
        rw [Cache.dataOver_of_absent (by rw [hcopy, if_neg ha, if_pos hv]), Cache.dataOver_of_copy hold,
          hb a]
        split
        · rfl
        · next hn =>
          have hx : (c.block cfg g b w).dirty = false := by simpa [hv.1, hv.2] using hn
          exact (hcl a _ (hx ▸ hold)).symm
      · refine Cache.dataOver_congr (by rw [hcopy, if_neg ha, if_neg hv]) ?_
        rw [hb a, if_neg fun hn => hv ⟨(Bool.and_eq_true_iff.1 hn.1).1, hn.2⟩]
  · intro a d hda
    rw [hcopy] at hda
    split at hda
    · next ha =>
      obtain ⟨rfl, rfl⟩ : data = d ∧ dirty = false := by simpa using hda
      have habsent : c.copy cfg g a = none := by
        rw [Cache.copy_congr hg ha]; exact Cache.copy_eq_none.2 hf
      rw [hb a, if_neg fun hn => ?_, ha]
      · exact hdirty rfl
      · have := hvictim a (Bool.and_eq_true_iff.1 hn.1).1 hn.2
        rw [habsent] at this
        cases this
    · split at hda
      · cases hda
      · next hv =>
        rw [hb a, if_neg fun hn => hv ⟨(Bool.and_eq_true_iff.1 hn.1).1, hn.2⟩]
        exact hcl a d hda

/-- The copies once a resident block has new data and is dirty (47 R318, R340). -/
theorem CacheInv.copy_setData_touch {b : Word} {w : Nat} {data : List Word}
    (hf : c.find cfg g b = some w) (hd : data.length = cfg.blockWords) (a : Word) :
    ((c.setBlock cfg g b w { c.block cfg g b w with data := data, dirty := true }).touch cfg g b w).copy
        cfg g a =
      if blockAddr cfg a = blockAddr cfg b then some (data, true) else c.copy cfg g a := by
  have hw := hi.find_lt hf
  rw [Cache.copy_touch hg (hi.setData hg hw true hd), Cache.copy_setData hg hi hf true hd]
  rw [Cache.ways_setBlock hg hi, if_pos rfl, List.length_set]
  exact hw

/-- New data in a resident block makes it dirty (47 R318). -/
theorem CacheInv.setData_takes {b : Word} {w : Nat} {data : List Word} (hf : c.find cfg g b = some w)
    (hd : data.length = cfg.blockWords) (hcl : c.CleanOver cfg g below) :
    c.Takes cfg g ((c.setBlock cfg g b w
      { c.block cfg g b w with data := data, dirty := true }).touch cfg g b w) below below b data := by
  have hcopy := hi.copy_setData_touch hg hf hd
  constructor
  · intro a
    split
    · next ha => exact Cache.dataOver_of_copy (by rw [hcopy, if_pos ha])
    · next ha => exact Cache.dataOver_congr (by rw [hcopy, if_neg ha]) rfl
  · intro a d hda
    rw [hcopy] at hda
    split at hda
    · cases hda
    · exact hcl a d hda

end OneLevel

end Sys2Proof.Machine
end

section
/-! PROOFS. DataView under a request of either side: fills, evictions and writebacks move blocks between the
levels and change no byte the data side reads (O23). -/

namespace Sys2Proof.Machine

/-! ### The two levels of the data side (20 R74, 47 R315) -/

/-- What lies below the L1s, as L2 over the flat store. -/
theorem blockBelowL1_eq (cfg : Config) (h : Hierarchy) (b : Word) :
    blockBelowL1 cfg h b =
      ((h.l2.copy cfg cfg.l2 b).map Prod.fst).getD (dramReadBlock cfg h.store b) := by
  unfold blockBelowL1 Cache.copy
  cases h.l2.find cfg cfg.l2 b <;> rfl

/-- The block of `a` as the data side reads it: L1D over what lies below the L1s. -/
def Hierarchy.dataBlock (h : Hierarchy) (cfg : Config) (a : Word) : List Word :=
  h.l1d.dataOver cfg cfg.l1d (blockBelowL1 cfg h) a

/-- `CleanCopies`, by the copies of the blocks. -/
structure Hierarchy.CleanData (h : Hierarchy) (cfg : Config) : Prop where
  l2 : h.l2.CleanOver cfg cfg.l2 (dramReadBlock cfg h.store)
  l1d : h.l1d.CleanOver cfg cfg.l1d (blockBelowL1 cfg h)

/-- From `h` to `h'` no block of the data side changes, and clean copies equal what lies below them. -/
structure Hierarchy.KeepsData (cfg : Config) (h h' : Hierarchy) : Prop where
  clean : h'.CleanData cfg
  data : ∀ a, h'.dataBlock cfg a = h.dataBlock cfg a

theorem Hierarchy.KeepsData.refl {cfg : Config} {h : Hierarchy} (hcl : h.CleanData cfg) :
    h.KeepsData cfg h := ⟨hcl, fun _ => rfl⟩

theorem Hierarchy.KeepsData.trans {cfg : Config} {h h' h'' : Hierarchy} (h₁ : h.KeepsData cfg h')
    (h₂ : h'.KeepsData cfg h'') : h.KeepsData cfg h'' :=
  ⟨h₂.clean, fun a => (h₂.data a).trans (h₁.data a)⟩

/-- A change under L1D that leaves what lies below the L1s. -/
theorem Hierarchy.KeepsData.of_below {cfg : Config} {h h' : Hierarchy} (hcl : h.CleanData cfg)
    (h1 : ∀ a, h'.l1d.copy cfg cfg.l1d a = h.l1d.copy cfg cfg.l1d a)
    (hb : ∀ a, blockBelowL1 cfg h' (blockAddr cfg a) = blockBelowL1 cfg h (blockAddr cfg a))
    (h2 : h'.l2.CleanOver cfg cfg.l2 (dramReadBlock cfg h'.store)) : h.KeepsData cfg h' :=
  ⟨⟨h2, hcl.l1d.congr h1 hb⟩, fun a => Cache.dataOver_congr (h1 a) (hb a)⟩

/-- A change that moves no copy of L1D or L2 and leaves the flat store. -/
theorem Hierarchy.KeepsData.of_copies {cfg : Config} {h h' : Hierarchy} (hcl : h.CleanData cfg)
    (h1 : ∀ a, h'.l1d.copy cfg cfg.l1d a = h.l1d.copy cfg cfg.l1d a)
    (h2 : ∀ a, h'.l2.copy cfg cfg.l2 a = h.l2.copy cfg cfg.l2 a) (hs : h'.store = h.store) :
    h.KeepsData cfg h' := by
  refine .of_below hcl h1 (fun a => ?_) ?_
  · rw [blockBelowL1_eq, blockBelowL1_eq, h2, hs]
  · rw [hs]
    exact hcl.l2.congr h2 fun _ => rfl

section Whole
variable {cfg : Config} (hc : cfg.wf = true)
include hc

theorem blockBelowL1_blockAddr (h : Hierarchy) (a : Word) :
    blockBelowL1 cfg h (blockAddr cfg a) = h.l2.dataOver cfg cfg.l2 (dramReadBlock cfg h.store) a := by
  rw [blockBelowL1_eq, Cache.copy_congr (l2Geometry_wf hc) (blockAddr_blockAddr a)]
  rfl

theorem l1dGeometry_wf : cfg.l1d.wf cfg.blockShift = true := l1Geometry_wf hc .d

/-- The parts of `Config.wf` the block arithmetic needs. -/
theorem blockShift_le : 2 + cfg.blockShift ≤ 32 := by
  have := (Geometry.wf_iff.1 (l2Geometry_wf hc)).2
  omega

/-- DataView is a word of the block the data side reads (20 R74). -/
theorem view_eq_dataBlock (h : Hierarchy) (a : Word) :
    h.view cfg .d a = (h.dataBlock cfg a).getD (wordOffset cfg a) 0 := by
  unfold Hierarchy.view Hierarchy.dataBlock
  cases h1 : h.l1d.find cfg cfg.l1d a with
  | some w =>
    rw [Cache.dataOver_of_copy (by rw [Cache.copy, h1]; rfl)]
    simp only [Hierarchy.l1, l1Geometry, h1, Cache.readHit]
  | none =>
    rw [Cache.dataOver_of_absent (Cache.copy_eq_none.2 h1), blockBelowL1_blockAddr hc]
    simp only [Hierarchy.l1, l1Geometry, h1, Hierarchy.wordBelowL1]
    cases h2 : h.l2.find cfg cfg.l2 a with
    | some w =>
      rw [Cache.dataOver_of_copy (by rw [Cache.copy, h2]; rfl)]
      rfl
    | none =>
      rw [Cache.dataOver_of_absent (Cache.copy_eq_none.2 h2)]
      exact (dramReadBlock_getD (blockShift_le hc) h.store a).symm

theorem dataBlock_length {h : Hierarchy} (hi : CachesInv cfg h) (a : Word) :
    (h.dataBlock cfg a).length = cfg.blockWords := by
  cases hcopy : h.l1d.copy cfg cfg.l1d a with
  | some p =>
    rw [Hierarchy.dataBlock, Cache.dataOver_of_copy hcopy]
    exact hi.l1d.copy_length (l1dGeometry_wf hc) hcopy
  | none =>
    rw [Hierarchy.dataBlock, Cache.dataOver_of_absent hcopy]
    exact blockBelowL1_length hi (l2Geometry_wf hc) _

/-- DataView is that of the aligned word. -/
theorem view_congr (h : Hierarchy) {a b : Word} (hw : wordAddr a = wordAddr b) :
    h.view cfg .d a = h.view cfg .d b := by
  obtain ⟨hb, ho⟩ := block_of_wordAddr_eq (blockShift_le hc) hw
  rw [view_eq_dataBlock hc, view_eq_dataBlock hc, ho, Hierarchy.dataBlock, Hierarchy.dataBlock,
    Cache.dataOver_block (l1dGeometry_wf hc) hb]

omit hc in
/-- Clean blocks of one cache, block by block and copy by copy. -/
theorem CacheInv.cleanOver_iff {g : Geometry} {c : Cache} (hg : g.wf cfg.blockShift = true)
    (hi : CacheInv cfg g c) (below : Word → List Word) :
    (∀ set ∈ List.range c.length, ∀ b ∈ c.ways set, b.valid = true → b.dirty = false →
      b.data = below (blockAddrOf cfg g b.tag set)) ↔ c.CleanOver cfg g below := by
  constructor
  · intro h a d hd
    obtain ⟨b, hb, hv, rfl, hx, ha⟩ := hi.block_of_copy hg hd
    rw [← ha]
    exact h _ (List.mem_range.2 (by rw [hi.1]; exact setIndex_lt hg a)) b hb hv hx
  · intro h set hset b hb hv hx
    have hset : set < g.sets := by rw [← hi.1]; exact List.mem_range.1 hset
    have ht := ((hi.waysInv hset).2 b hb).2
    have hcopy := hi.copy_of_block hg hset hb hv
    rw [hx] at hcopy
    rw [h _ _ hcopy, ← blockAddrOf_tagOf hg (blockAddrOf cfg g b.tag set), tagOf_blockAddrOf hg ht hset,
      setIndex_blockAddrOf hg ht hset]

theorem cleanCopies_iff {h : Hierarchy} (hi : CachesInv cfg h) : CleanCopies cfg h ↔ h.CleanData cfg := by
  have h2 := hi.l2.cleanOver_iff (l2Geometry_wf hc) (dramReadBlock cfg h.store)
  have h1 := hi.l1d.cleanOver_iff (l1dGeometry_wf hc) (blockBelowL1 cfg h)
  exact ⟨fun k => ⟨h2.1 k.l2, h1.1 k.l1d⟩, fun k => ⟨h2.2 k.l2, h1.2 k.l1d⟩⟩

/-! ### Fills (47 R305 to R308, R318) -/

variable {h : Hierarchy} (hi : CachesInv cfg h)
include hi

/-- A touch of a block of one side's first-level cache. -/
theorem touchL1_keepsData (hcl : h.CleanData cfg) (k : Side) {b : Word} {w : Nat}
    (hf : (h.l1 k).find cfg (l1Geometry cfg k) b = some w) :
    h.KeepsData cfg (h.setL1 k ((h.l1 k).touch cfg (l1Geometry cfg k) b w)) := by
  cases k with
  | i => exact .of_copies hcl (fun _ => rfl) (fun _ => rfl) rfl
  | d =>
    exact .of_copies hcl (Cache.copy_touch (l1dGeometry_wf hc) hi.l1d (hi.l1d.find_lt hf)) (fun _ => rfl)
      rfl

theorem touchL2_keepsData (hcl : h.CleanData cfg) {b : Word} {w : Nat}
    (hf : h.l2.find cfg cfg.l2 b = some w) :
    h.KeepsData cfg { h with l2 := h.l2.touch cfg cfg.l2 b w } :=
  .of_copies hcl (fun _ => rfl) (Cache.copy_touch (l2Geometry_wf hc) hi.l2 (hi.l2.find_lt hf)) rfl

/-- The flat store after the victim of an L2 fill has been written back (47 R317). -/
theorem writeWords_writesBack {b : Word} {w : Nat} (hw : w < (h.l2.ways (setIndex cfg cfg.l2 b)).length) :
    h.l2.WritesBack cfg cfg.l2 b w (dramReadBlock cfg h.store)
      (dramReadBlock cfg
        (if (h.l2.block cfg cfg.l2 b w).valid && (h.l2.block cfg cfg.l2 b w).dirty then
          writeWords h.store (h.l2.residentAddr cfg cfg.l2 b w) (h.l2.block cfg cfg.l2 b w).data
        else h.store)) := by
  have hg := l2Geometry_wf hc
  have hlen : (h.l2.block cfg cfg.l2 b w).data.length = cfg.blockWords :=
    ((hi.l2.waysAt hg b).2 _ (blockAt_mem hw)).1
  intro a
  split
  · next hv =>
    rw [← hi.l2.blockAddr_residentAddr hg hw,
      dramReadBlock_writeWords (blockShift_le hc) hi.store a _ hlen]
    simp only [hv, true_and]
  · next hv => rw [if_neg (fun hn => hv hn.1)]

/-- `Install_L2` of an absent block, over the flat store (47 R305, R308). -/
theorem installL2_takes {b : Word} {data : List Word} {dirty : Bool} {h' : Hierarchy}
    (hcl : h.l2.CleanOver cfg cfg.l2 (dramReadBlock cfg h.store)) (hf : h.l2.find cfg cfg.l2 b = none)
    (hd : data.length = cfg.blockWords)
    (hdirty : dirty = false → data = dramReadBlock cfg h.store (blockAddr cfg b))
    (he : installL2 cfg h b data dirty = .next h') :
    h.l2.Takes cfg cfg.l2 h'.l2 (dramReadBlock cfg h.store) (dramReadBlock cfg h'.store) b data := by
  have hg := l2Geometry_wf hc
  obtain ⟨w, hv, hw, -⟩ := victimWay_of_inv (hi.l2.waysAt hg b).1 (Geometry.wf_iff.1 hg).1
  simp only [installL2, hf, hv, andThen_next] at he
  cases he
  exact hi.l2.fill_takes hg hw hf hd hcl (writeWords_writesBack hc hi hw) hdirty

/-- The writeback of a block into L2, over the flat store (47 R318). -/
theorem writebackToL2_takes {b : Word} {data : List Word} {h' : Hierarchy}
    (hcl : h.l2.CleanOver cfg cfg.l2 (dramReadBlock cfg h.store)) (hd : data.length = cfg.blockWords)
    (he : writebackToL2 cfg h b data = .next h') :
    h.l2.Takes cfg cfg.l2 h'.l2 (dramReadBlock cfg h.store) (dramReadBlock cfg h'.store) b data := by
  unfold writebackToL2 at he
  split at he
  · next w hf =>
    cases he
    exact hi.l2.setData_takes (l2Geometry_wf hc) hf hd hcl
  · next hf => exact installL2_takes hc hi (dirty := true) hcl hf hd (fun hx => nomatch hx) he

/-- The fill of L2 with the flat store's block leaves what lies below the L1s (47 R332). -/
theorem installL2_keepsData {b : Word} {h' : Hierarchy} (hcl : h.CleanData cfg)
    (hb : blockAddr cfg b = b) (he : installL2 cfg h b (dramReadBlock cfg h.store b) false = .next h') :
    h.KeepsData cfg h' := by
  have hd := dramReadBlock_length cfg h.store b
  cases hf : h.l2.find cfg cfg.l2 b with
  | some w =>
    simp only [installL2, hf] at he
    cases he
    exact touchL2_keepsData hc hi hcl hf
  | none =>
    have ht := installL2_takes hc hi hcl.l2 hf hd (fun _ => by rw [hb]) he
    obtain ⟨l2, store, he', -, -⟩ := installL2_spec hc hi b false hd
    cases he.symm.trans he'
    refine .of_below hcl (fun _ => rfl) (fun a => ?_) ht.clean
    rw [blockBelowL1_blockAddr hc, blockBelowL1_blockAddr hc, ht.data]
    split
    · next ha =>
      rw [Cache.dataOver_block (l2Geometry_wf hc) ha, Cache.dataOver_of_absent (Cache.copy_eq_none.2 hf),
        hb]
    · rfl

/-- L1I has no dirty victim: its fill touches nothing else (10 R36). -/
theorem installL1_i_frame {b : Word} {data : List Word} {h' : Hierarchy}
    (he : installL1 cfg .i h b data = .next h') : h' = { h with l1i := h'.l1i } := by
  have hg := l1Geometry_wf hc .i
  unfold installL1 at he
  split at he
  · cases he; rfl
  · obtain ⟨w, hv, hw, -⟩ := victimWay_of_inv (hi.l1i.waysAt hg b).1 (Geometry.wf_iff.1 hg).1
    have hclean : ((h.l1 .i).block cfg (l1Geometry cfg .i) b w).dirty = false :=
      hi.l1iClean _ (Cache.ways_mem (by rw [hi.l1i.1]; exact setIndex_lt hg b)) _ (blockAt_mem hw)
    simp only [Hierarchy.l1, l1Geometry] at hv hclean he
    simp only [hv, andThen_next, hclean, Bool.and_false, Bool.false_eq_true, if_false] at he
    cases he
    rfl

/-- What lies below the L1s once the victim of an L1D fill has been written back (47 R308, R318). -/
theorem evict_writesBack {b : Word} {w : Nat} {h' : Hierarchy} (hcl : h.CleanData cfg)
    (hw : w < (h.l1d.ways (setIndex cfg cfg.l1d b)).length)
    (he : (if (h.l1d.block cfg cfg.l1d b w).valid && (h.l1d.block cfg cfg.l1d b w).dirty then
        writebackToL2 cfg h (h.l1d.residentAddr cfg cfg.l1d b w) (h.l1d.block cfg cfg.l1d b w).data
      else .next h) = .next h') :
    h'.l1d = h.l1d ∧ h'.l2.CleanOver cfg cfg.l2 (dramReadBlock cfg h'.store) ∧
      h.l1d.WritesBack cfg cfg.l1d b w (blockBelowL1 cfg h) (blockBelowL1 cfg h') := by
  have hg := l1dGeometry_wf hc
  have hlen : (h.l1d.block cfg cfg.l1d b w).data.length = cfg.blockWords :=
    ((hi.l1d.waysAt hg b).2 _ (blockAt_mem hw)).1
  split at he
  · next hv =>
    have ht := writebackToL2_takes hc hi hcl.l2 hlen he
    obtain ⟨l2, store, he', -, -⟩ := writebackToL2_spec hc hi (h.l1d.residentAddr cfg cfg.l1d b w) hlen
    cases he.symm.trans he'
    refine ⟨rfl, ht.clean, fun a => ?_⟩
    rw [blockBelowL1_blockAddr hc, blockBelowL1_blockAddr hc, ht.data,
      hi.l1d.blockAddr_residentAddr hg hw]
    simp only [hv, true_and]
  · next hv =>
    cases he
    exact ⟨rfl, hcl.l2, fun a => by rw [if_neg fun hn => hv hn.1]⟩

/-- A fill of either first-level cache with what lies below it (47 R305, R330). -/
theorem installL1_keepsData (k : Side) {b : Word} {h' : Hierarchy} (hcl : h.CleanData cfg)
    (hb : blockAddr cfg b = b) (he : installL1 cfg k h b (blockBelowL1 cfg h b) = .next h') :
    h.KeepsData cfg h' := by
  have hd := blockBelowL1_length hi (l2Geometry_wf hc) b
  have hg := l1dGeometry_wf hc
  cases k with
  | i =>
    rw [installL1_i_frame hc hi he]
    exact .of_copies hcl (fun _ => rfl) (fun _ => rfl) rfl
  | d =>
    cases hf : h.l1d.find cfg cfg.l1d b with
    | some w =>
      simp only [installL1, Hierarchy.l1, l1Geometry, hf] at he
      cases he
      exact touchL1_keepsData hc hi hcl .d hf
    | none =>
      obtain ⟨w, hv, hw, -⟩ := victimWay_of_inv (hi.l1d.waysAt hg b).1 (Geometry.wf_iff.1 hg).1
      simp only [installL1, Hierarchy.l1, l1Geometry, hf, hv, andThen_next] at he
      obtain ⟨h₁, hev, he⟩ := andThen_eq_next.1 he
      obtain ⟨hl1, h2, hwb⟩ := evict_writesBack hc hi hcl hw hev
      cases he
      have ht := hi.l1d.fill_takes hg hw hf hd hcl.l1d hwb (dirty := false) (fun _ => by rw [hb])
      rw [hl1]
      refine ⟨⟨h2, ht.clean⟩, fun a => (ht.data a).trans ?_⟩
      split
      · next ha =>
        rw [Hierarchy.dataBlock, Cache.dataOver_block hg ha,
          Cache.dataOver_of_absent (Cache.copy_eq_none.2 hf), hb]
      · rfl

/-! ### One entry, a scan, a request (47 R322 to R332) -/

theorem stepNotStalled_keepsData (k : Side) (e : QueueEntry) (hcl : h.CleanData cfg) :
    h.KeepsData cfg (stepNotStalled cfg k h e).hier := by
  unfold stepNotStalled
  split
  · next hf => exact touchL1_keepsData hc hi hcl k hf
  · split
    · next hf => exact touchL2_keepsData hc hi hcl hf
    · split
      · exact .refl hcl
      · split
        · exact .of_copies hcl (fun _ => rfl) (fun _ => rfl) rfl
        · exact .refl hcl

theorem stepDramResponse_keepsData (k : Side) {e : QueueEntry} {waited : Bool} {r : Stepped}
    (hcl : h.CleanData cfg) (hb : blockAddr cfg e.addr = e.addr)
    (he : stepDramResponse cfg k h e waited = .next r) : h.KeepsData cfg r.hier := by
  obtain ⟨h₁, hins, he⟩ := andThen_eq_next.1 he
  obtain ⟨h₃, hins', he⟩ := andThen_eq_next.1 he
  have hi₁ := (installL2_mshr hc hi (dramReadBlock_length _ _ _) hins).1
  have hi₂ := hi₁.setMshr (t := releaseMshr h₁.mshr e.addr) (by simp [releaseMshr])
  have hk₁ := installL2_keepsData hc hi hcl hb hins
  have hk₂ : h.KeepsData cfg { h₁ with mshr := releaseMshr h₁.mshr e.addr } :=
    hk₁.trans (.of_copies hk₁.clean (fun _ => rfl) (fun _ => rfl) rfl)
  cases he
  split at hins'
  · exact hk₂.trans (installL1_keepsData hc hi₂ k hk₂.clean hb hins')
  · cases hins'
    exact hk₂

theorem advanceEntry_keepsData (k : Side) {e : QueueEntry} {waited : Bool} {r : Stepped}
    (hcl : h.CleanData cfg) (hb : e.valid = true → blockAddr cfg e.addr = e.addr)
    (he : advanceEntry cfg k h e waited = .next r) : h.KeepsData cfg r.hier := by
  unfold advanceEntry at he
  split at he
  · cases he; exact .refl hcl
  next hv =>
  have hb := hb (by simpa using hv)
  split at he
  · cases he; exact .refl hcl
  unfold stepEntry at he
  split at he
  · cases he; exact stepNotStalled_keepsData hc hi k e hcl
  · obtain ⟨h', hins, he⟩ := andThen_eq_next.1 he
    cases he
    exact installL1_keepsData hc hi k hcl hb hins
  · cases he; exact .refl hcl
  · cases he; exact .of_copies hcl (fun _ => rfl) (fun _ => rfl) rfl
  · exact stepDramResponse_keepsData hc hi k hcl hb he

omit hi in
theorem scanQueue_keepsData (k : Side) {b : Word} {q : List QueueEntry} {h : Hierarchy}
    (hi : CachesInv cfg h) {t : Scanned} (hcl : h.CleanData cfg)
    (hq : ∀ e ∈ q, e.valid = true → blockAddr cfg e.addr = e.addr)
    (hs : scanQueue cfg k b h q = .next t) : h.KeepsData cfg t.hier := by
  induction q generalizing h t with
  | nil => cases hs; exact .refl hcl
  | cons e q ih =>
    obtain ⟨r, hr, hs⟩ := andThen_eq_next.1 hs
    obtain ⟨t', ht, hs⟩ := andThen_eq_next.1 hs
    cases hs
    obtain ⟨r', hr', hk, -⟩ := advanceEntry_spec hc hi k e (e.addr == b)
    cases hr.symm.trans hr'
    have hstep := advanceEntry_keepsData hc hi k hcl (hq e List.mem_cons_self) hr
    exact hstep.trans
      (ih (t := t') hk.inv hstep.clean (fun e' he' => hq e' (List.mem_cons_of_mem e he')) ht)

/-- A request of either side changes no block of the data side. -/
theorem load_keepsData {k : Side} {a : Word} {r : Loaded} (hcl : CleanCopies cfg h)
    (hq : QueueInv cfg (h.queue k)) (hl : load cfg k h a = .next r) : h.KeepsData cfg r.hier := by
  obtain ⟨t, hs, he⟩ := andThen_eq_next.1 hl
  have hk := scanQueue_keepsData hc k hi ((cleanCopies_iff hc hi).1 hcl) (hq.enqueue a).2 hs
  cases he
  exact hk.trans (.of_copies hk.clean (by cases k <;> exact fun _ => rfl)
    (by cases k <;> exact fun _ => rfl) (by cases k <;> rfl))

theorem load_cleanCopies {k : Side} {a : Word} {r : Loaded} (hcl : CleanCopies cfg h)
    (hq : QueueInv cfg (h.queue k)) (hl : load cfg k h a = .next r) : CleanCopies cfg r.hier :=
  (cleanCopies_iff hc (load_cachesInv hc hi hl)).2 (load_keepsData hc hi hcl hq hl).clean

/-- A request of either side changes no word of DataView. -/
theorem load_dataView {k : Side} {a : Word} {r : Loaded} (hcl : CleanCopies cfg h)
    (hq : QueueInv cfg (h.queue k)) (hl : load cfg k h a = .next r) (b : Word) :
    r.hier.view cfg .d b = h.view cfg .d b := by
  rw [view_eq_dataBlock hc, view_eq_dataBlock hc, (load_keepsData hc hi hcl hq hl).data]

end Whole

/-- The word answered is the side's view after the scan (R322). -/
theorem load_word {cfg : Config} {k : Side} {h : Hierarchy} {a w : Word} {r : Loaded}
    (hl : load cfg k h a = .next r) (hw : r.word = some w) : w = r.hier.view cfg k a := by
  obtain ⟨t, -, he⟩ := andThen_eq_next.1 hl
  cases he
  split at hw <;> cases hw
  rfl

/-- Settles O23: each entry's advance of the scan keeps what every block reads as on the data side, and the
word answered is DataView after the scan. -/
theorem dataRequestsReturnAndKeepTheDataView : Obligations.DataRequestsReturnAndKeepTheDataView := by
  intro cfg h a r hc hi hcl hq hl
  have hview := load_dataView hc hi hcl (k := .d) hq hl
  exact ⟨fun w hw => (load_word hl hw).trans (hview a), hview⟩

end Sys2Proof.Machine
end

section
/-! PROOFS. A store in memory: the word `Store` writes, the bytes `Merge` changes, and so the bytes the data
side reads once a store has completed in mem (O22). -/

namespace Sys2Proof.Machine

/-! ### `Store` (47 R340) -/

section Store
variable {cfg : Config} (hc : cfg.wf = true) {h : Hierarchy} (hi : CachesInv cfg h) {a v : Word}
  {h' : Hierarchy} (hs : storeWord cfg h a v = .next h')
include hc hi hs

/-- `Store` puts the word in the block of its address; every other block of the data side stays. -/
theorem storeWord_dataBlock (b : Word) :
    h'.dataBlock cfg b =
      if blockAddr cfg b = blockAddr cfg a then (h.dataBlock cfg a).set (wordOffset cfg a) v
      else h.dataBlock cfg b := by
  have hg := l1dGeometry_wf hc
  unfold storeWord at hs
  split at hs
  · cases hs
  next w hf =>
  have hold : h.l1d.copy cfg cfg.l1d a =
      some ((h.l1d.block cfg cfg.l1d a w).data, (h.l1d.block cfg cfg.l1d a w).dirty) := by
    rw [Cache.copy, hf]; rfl
  have hlen := hi.l1d.copy_length hg hold
  have hcopy := hi.l1d.copy_setData_touch hg hf
    (data := (h.l1d.block cfg cfg.l1d a w).data.set (wordOffset cfg a) v) (by simpa using hlen) b
  cases hs
  rw [show h.dataBlock cfg a = _ from Cache.dataOver_of_copy hold]
  split
  · next hb => exact Cache.dataOver_of_copy (by rw [hcopy, if_pos hb])
  · next hb => exact Cache.dataOver_congr (by rw [hcopy, if_neg hb]) rfl

/-- DataView after `Store`: the stored word, and every other word as before (47 R346). -/
theorem storeWord_dataView (b : Word) :
    h'.view cfg .d b = if wordAddr a = wordAddr b then v else h.view cfg .d b := by
  have hsh := blockShift_le hc
  rw [view_eq_dataBlock hc, view_eq_dataBlock hc, storeWord_dataBlock hc hi hs]
  by_cases hw : wordAddr a = wordAddr b
  · obtain ⟨hb, ho⟩ := block_of_wordAddr_eq hsh hw
    have hlen : wordOffset cfg b < (h.dataBlock cfg a).length := by
      rw [dataBlock_length hc hi]
      exact wordOffset_bound hsh b
    rw [if_pos hb.symm, if_pos hw, ho]
    simp [hlen]
  · rw [if_neg hw]
    split
    · next hb =>
      have ho : wordOffset cfg a ≠ wordOffset cfg b := fun ho => hw (wordAddr_eq_of_block hsh hb.symm ho)
      rw [show h.dataBlock cfg b = h.dataBlock cfg a from Cache.dataOver_block (l1dGeometry_wf hc) hb]
      simp [ho]
    · rfl

end Store

/-! ### `Merge` (20 R63, R64, R67) -/

theorem wordAddr_eq_iff {a b : Word} : wordAddr a = wordAddr b ↔ a.toNat / 4 = b.toNat / 4 := by
  rw [← BitVec.toNat_inj, wordAddr_toNat, wordAddr_toNat]
  omega

/-- An access lies in one aligned word: a byte of another word stays. -/
theorem storedByte_of_other_word (z : AccessSize) {ea a : Word} (v : Word) (old : Byte)
    (h : wordAddr ea ≠ wordAddr a) : storedByte z.bytes ea v a old = old := by
  have hne : ea.toNat / 4 ≠ a.toNat / 4 := fun e => h (wordAddr_eq_iff.2 e)
  rw [storedByte, if_neg]
  cases z <;> simp only [AccessSize.bytes] <;> omega

/-- A byte of the low halfword of a word. -/
theorem extractLsb'_half (v : Word) {k : Nat} (hk : k < 2) :
    (v.extractLsb' 0 16).extractLsb' (8 * k) 8 = byteOfWord v k := by
  apply BitVec.eq_of_getLsbD_eq
  intro i hi
  have h16 : 8 * k + i < 16 := by omega
  simp [byteOfWord, hi, h16]

/-- The bytes of a merged word are those of the store (42 R147). -/
theorem byteOfWord_mergeWord (opcode : BitVec 6) {ea a : Word} (w v : Word)
    (h : wordAddr ea = wordAddr a) :
    byteOfWord (mergeWord opcode ea w v) (byteIndex a) =
      storedByte (accessSize opcode).bytes ea v a (byteOfWord w (byteIndex a)) := by
  have h4 := wordAddr_eq_iff.1 h
  unfold mergeWord storedByte
  cases accessSize opcode with
  | byte =>
    simp only [AccessSize.bytes]
    rw [byteOfWord_replaceByte w (byteIndex_lt ea) (byteIndex_lt a), byteIndex_eq, byteIndex_eq,
      Nat.mod_one]
    exact if_congr (by omega) rfl rfl
  | half =>
    simp only [AccessSize.bytes]
    rw [byteOfWord_replaceHalf w (halfIndex_lt ea) (byteIndex_lt a),
      extractLsb'_half v (Nat.mod_lt _ (by decide)), byteIndex_eq, halfIndex_eq,
      Nat.mod_mod_of_dvd _ (by decide)]
    exact if_congr (by omega) rfl rfl
  | word =>
    rw [byteIndex_eq]
    exact (if_pos h4).symm

/-! ### A store in mem (42 R140, R147) -/

/-- The store that completes in mem changes its bytes and no other (20 R71). -/
theorem memStage_store_dataByte {u t : State} {m : Op} (hc : u.cfg.wf = true)
    (hi : CachesInv u.cfg u.hier) (hcl : CleanCopies u.cfg u.hier) (hq : QueueInv u.cfg u.hier.dq)
    (hme : u.me = some m) (hm : m.isMem = true) (hw : m.memWrite = true) (hst : memStage u = .next t)
    (ht : t.me = none) (a : Word) :
    t.dataByte a = storedByte (accessSize m.opcode).bytes m.memAddr m.memValue a (u.dataByte a) := by
  cases memStage_outcome hst with
  | empty | held => rw [hme] at ht; cases ht
  | wait => rw [State.setHier_me, hme] at ht; cases ht
  | pass op ho _ hn =>
    cases hme.symm.trans ho
    rw [hm] at hn
    cases hn
  | load op _ _ ho _ _ _ _ hn =>
    cases hme.symm.trans ho
    rw [hw] at hn
    cases hn
  | store op r w hier ho _ _ hl hword _ hs =>
    cases hme.symm.trans ho
    have hkeep := load_dataView hc hi hcl (k := .d) hq hl
    have hview := storeWord_dataView hc (load_cachesInv hc hi hl) hs a
    show byteOfWord (hier.view u.cfg .d a) (byteIndex a) = _
    rw [hview, hkeep, State.dataByte]
    by_cases ha : wordAddr m.memAddr = wordAddr a
    · rw [if_pos ha, byteOfWord_mergeWord m.opcode w m.memValue ha, load_word hl hword, hkeep,
        view_congr hc u.hier ha]
    · rw [if_neg ha, storedByte_of_other_word _ _ _ ha]

/-! ### The Op a store moves to ME (49 R467 to R469, 43 R174) -/

/-- The Op of a store of `v` at `ea`, with the access size of its instruction. -/
structure Op.StoresBytes (m : Op) (n : Nat) (ea v : Word) : Prop where
  isMem : m.isMem = true
  memWrite : m.memWrite = true
  size : (accessSize m.opcode).bytes = n
  memAddr : m.memAddr = ea
  memValue : m.memValue = v

/-- Execute of a store writes address and value into the Op it moves. -/
theorem executeAs_storesBytes {i : Instr} {s : State} {op m : Op} {rs rt : Reg} {off : BitVec 16} {n : Nat}
    (hx : s.Executes op) (hi : classOf i = storeClass rs rt) (hr : readsHiLo i = false)
    (hn : (accessSize (opField (encode i))).bytes = n)
    (he : executeAs i (inOp fun op => op.storeAt (effectiveAddress op.src1Val off) op.src2Val) s =
      .next (s.tickMdu.moveToMem m)) :
    m.StoresBytes n (effectiveAddress (s.operand rs) off) (s.operand rt) := by
  have hread : op.readAs i =
      { op with opcode := opField (encode i), subop := subopOf (encode i) }.classify (storeClass rs rt) := by
    rw [Op.readAs, hi]
  have hb : (s.withOperands (op.readAs i)).isBranch = false := by rw [hread]; rfl
  rw [executeAs_inOp hx hr hb, hread] at he
  have hm := congrArg State.me (Host.Outcome.next.inj he)
  cases hm
  exact ⟨rfl, rfl, hn, rfl, rfl⟩

/-- Settles O22: `Load` keeps the bytes and answers DataView, `Merge` changes those of the access, `Store`
writes the word. -/
theorem storesChangeExactlyTheirBytes : Obligations.StoresChangeExactlyTheirBytes := by
  intro s op m rt off rs u t hx hinv hme _ hst ht
  have hbytes : ∀ {n : Nat}, m.StoresBytes n (effectiveAddress (s.operand rs) off) (s.operand rt) →
      ∀ a, t.dataByte a =
        storedByte n (effectiveAddress (s.operand rs) off) (s.operand rt) a (u.dataByte a) := by
    rintro n ⟨hmem, hwrite, rfl, haddr, hval⟩ a
    rw [← haddr, ← hval]
    exact memStage_store_dataByte hinv.config hinv.caches hinv.clean hinv.miss.dq hme hmem hwrite hst ht a
  refine ⟨fun he => hbytes (executeAs_storesBytes hx rfl rfl ?_ he),
    fun he => hbytes (executeAs_storesBytes hx rfl rfl ?_ he),
    fun he => hbytes (executeAs_storesBytes hx rfl rfl ?_ he)⟩
  all_goals simp [encode, accessSize, AccessSize.bytes]

end Sys2Proof.Machine
end

section
/-! PROOFS. The decoder against the opcode table and the encoder: the row a word matches decides what it
decodes to, and the bits an instruction uses decide its operands (30 R92 to R98). -/

namespace Sys2Proof

/-! ### The fields of a masked word, and words with equal fields (30 R92, R93) -/

/-- The bits a field keeps under a mask. -/
theorem extract_and_ofNat (w : Word) {i n : Nat} (h : i + n ≤ 32) (m : Nat) :
    (w &&& BitVec.ofNat 32 m).extractLsb' i n = w.extractLsb' i n &&& BitVec.ofNat n (m / 2 ^ i) := by
  rw [BitVec.extractLsb'_and]
  congr 1
  apply BitVec.eq_of_getLsbD_eq
  intro k hk
  rw [BitVec.getLsbD_extractLsb', BitVec.getLsbD_ofNat, BitVec.getLsbD_ofNat, Nat.testBit_div_two_pow]
  simp [hk, Nat.add_comm i k, show k + i < 32 by omega]

/-! A register field, an immediate and a jump target under a mask that keeps all of it. -/

@[simp] theorem and_mask5 (x : BitVec 5) : x &&& 31#5 = x := BitVec.and_allOnes

@[simp] theorem and_mask16 (x : BitVec 16) : x &&& 65535#16 = x := BitVec.and_allOnes

@[simp] theorem and_mask26 (x : BitVec 26) : x &&& 67108863#26 = x := BitVec.and_allOnes

section Fields
variable (w : Word) (m : Nat)

@[simp] theorem opField_and_ofNat :
    opField (w &&& BitVec.ofNat 32 m) = opField w &&& BitVec.ofNat 6 (m / 2 ^ 26) :=
  extract_and_ofNat w (by decide) m

@[simp] theorem rsField_and_ofNat :
    rsField (w &&& BitVec.ofNat 32 m) = rsField w &&& BitVec.ofNat 5 (m / 2 ^ 21) :=
  extract_and_ofNat w (by decide) m

@[simp] theorem rtField_and_ofNat :
    rtField (w &&& BitVec.ofNat 32 m) = rtField w &&& BitVec.ofNat 5 (m / 2 ^ 16) :=
  extract_and_ofNat w (by decide) m

@[simp] theorem rdField_and_ofNat :
    rdField (w &&& BitVec.ofNat 32 m) = rdField w &&& BitVec.ofNat 5 (m / 2 ^ 11) :=
  extract_and_ofNat w (by decide) m

@[simp] theorem shamtField_and_ofNat :
    shamtField (w &&& BitVec.ofNat 32 m) = shamtField w &&& BitVec.ofNat 5 (m / 2 ^ 6) :=
  extract_and_ofNat w (by decide) m

@[simp] theorem functField_and_ofNat :
    functField (w &&& BitVec.ofNat 32 m) = functField w &&& BitVec.ofNat 6 (m / 2 ^ 0) :=
  extract_and_ofNat w (by decide) m

@[simp] theorem immField_and_ofNat :
    immField (w &&& BitVec.ofNat 32 m) = immField w &&& BitVec.ofNat 16 (m / 2 ^ 0) :=
  extract_and_ofNat w (by decide) m

@[simp] theorem targetField_and_ofNat :
    targetField (w &&& BitVec.ofNat 32 m) = targetField w &&& BitVec.ofNat 26 (m / 2 ^ 0) :=
  extract_and_ofNat w (by decide) m

end Fields

/-- Format R: the six fields make the word. -/
theorem eq_rWord {w : Word} {rs rt rd : Reg} {shamt : BitVec 5} {funct : BitVec 6} (ho : opField w = 0)
    (hs : rsField w = rs) (ht : rtField w = rt) (hd : rdField w = rd) (hh : shamtField w = shamt)
    (hf : functField w = funct) : w = rWord rs rt rd shamt funct := by
  subst hs ht hd hh hf
  have ho' : w.toNat / 2 ^ 26 % 2 ^ 6 = 0 := by rw [← extract_toNat]; exact congrArg BitVec.toNat ho
  apply BitVec.eq_of_toNat_eq
  simp only [rWord_toNat, rsField, rtField, rdField, shamtField, functField, extract_toNat]
  omega

/-- Formats I and RI. -/
theorem eq_iWord {w : Word} {op : BitVec 6} {rs rt : Reg} {imm : BitVec 16} (ho : opField w = op)
    (hs : rsField w = rs) (ht : rtField w = rt) (hi : immField w = imm) : w = iWord op rs rt imm := by
  subst ho hs ht hi
  apply BitVec.eq_of_toNat_eq
  simp only [iWord_toNat, opField, rsField, rtField, immField, extract_toNat]
  omega

/-- Format J. -/
theorem eq_jWord {w : Word} {op : BitVec 6} {target : BitVec 26} (ho : opField w = op)
    (ht : targetField w = target) : w = jWord op target := by
  subst ho ht
  apply BitVec.eq_of_toNat_eq
  simp only [jWord_toNat, opField, targetField, extract_toNat]
  omega

/-! ### The decoder on an encoded instruction -/

theorem decodeWord_rWord (rs rt rd : Reg) (shamt : BitVec 5) (funct : BitVec 6) :
    decodeWord (rWord rs rt rd shamt funct) = decodeSpecial (rWord rs rt rd shamt funct) := by
  simp [decodeWord]

theorem decodeWord_regimmWord (rs rtsel : Reg) (off : BitVec 16) :
    decodeWord (iWord 0x01 rs rtsel off) = decodeRegimm (iWord 0x01 rs rtsel off) := by
  simp [decodeWord]

/-- Format by format: the map is chosen by `op`, the instruction by `funct` or `rtsel`, and every operand
comes back from its field. -/
theorem decodeWord_encode (i : Instr) : decodeWord (encode i) = .ok i := by
  cases i
  case sll | srl | sra | sllv | srlv | srav | jr | jalr | syscall | mfhi | mthi | mflo | mtlo | mult
      | multu | div | divu | add | addu | sub | subu | and | or | xor | nor | slt | sltu =>
    rw [encode, decodeWord_rWord]
    simp [decodeSpecial]
  case bltz | bgez | bltzal | bgezal =>
    rw [encode, decodeWord_regimmWord]
    simp [decodeRegimm]
  all_goals simp [encode, decodeWord]

theorem encode_injective : Function.Injective encode := by
  intro i j h
  have hij := decodeWord_encode i
  rw [h, decodeWord_encode j] at hij
  exact (Except.ok.inj hij).symm

/-- Settles O1: the four bytes are the word's, and the word decodes to its instruction. -/
theorem decodingAnEncodedInstructionGivesItBack :
    Obligations.DecodingAnEncodedInstructionGivesItBack := by
  intro i rest
  simp only [decodeBytes, Machine.wordOfBytes_byteOfWord, decodeWord_encode]

/-! ### The row a word matches (30 R95 to R97) -/

/-- The row's selector is what the decoder branched on. -/
theorem matchedBy_of_decodeWord {w : Word} {i : Instr} (h : decodeWord w = .ok i) :
    i.matchedBy w = true := by
  unfold decodeWord at h
  split at h
  case h_1 ho =>
    unfold decodeSpecial at h
    split at h <;> cases h
    all_goals exact (admits_specialRow _ (by decide) _).2 ⟨ho, ‹(functField w).toNat = _›⟩
  case h_2 ho =>
    unfold decodeRegimm at h
    split at h <;> cases h
    all_goals exact (admits_regimmRow _ (by decide) _).2 ⟨ho, ‹(rtField w).toNat = _›⟩
  all_goals cases h
  all_goals exact (admits_primaryRow _ (by decide) _).2 ‹(opField w).toNat = _›

/-- A word of `i`'s row decodes, to the instruction of that row with the word's own operands. -/
theorem decodeWord_of_matchedBy {w : Word} {i : Instr} (h : i.matchedBy w = true) :
    ∃ j, decodeWord w = .ok j ∧ j.row = i.row ∧ j.usedBits = i.usedBits := by
  cases i
  case sll | srl | sra | sllv | srlv | srav | jr | jalr | syscall | mfhi | mthi | mflo | mtlo | mult
      | multu | div | divu | add | addu | sub | subu | and | or | xor | nor | slt | sltu =>
    obtain ⟨ho, hf⟩ := (admits_specialRow _ (by decide) _).1 h
    simp only [decodeWord, ho, decodeSpecial, hf]
    exact ⟨_, rfl, rfl, rfl⟩
  case bltz | bgez | bltzal | bgezal =>
    obtain ⟨ho, ht⟩ := (admits_regimmRow _ (by decide) _).1 h
    simp only [decodeWord, ho, decodeRegimm, ht]
    exact ⟨_, rfl, rfl, rfl⟩
  all_goals
    have ho := (admits_primaryRow _ (by decide) _).1 h
    simp only [decodeWord, ho]
    exact ⟨_, rfl, rfl, rfl⟩

theorem row_eq_of_matchedBy {w : Word} {i j : Instr} (hi : i.matchedBy w = true)
    (hj : j.matchedBy w = true) : i.row = j.row := by
  obtain ⟨k, hk, hki, -⟩ := decodeWord_of_matchedBy hi
  obtain ⟨l, hl, hlj, -⟩ := decodeWord_of_matchedBy hj
  cases hk.symm.trans hl
  exact hki.symm.trans hlj

/-- Settles O4: a word decodes to an instruction whose row it matches, and to only one instruction. -/
theorem rowsDecideDecodingWithoutOverlap : Obligations.RowsDecideDecodingWithoutOverlap := by
  refine ⟨fun w => ⟨fun ⟨i, hi⟩ => ⟨i, matchedBy_of_decodeWord hi⟩, fun ⟨i, hi⟩ => ?_⟩,
    fun w i j => row_eq_of_matchedBy⟩
  obtain ⟨j, hj, -⟩ := decodeWord_of_matchedBy hi
  exact ⟨j, hj⟩

/-! ### The bits an instruction uses (30 R93, R96) -/

/-- The encoder puts back every field the decoder read, and zero elsewhere. -/
theorem and_usedBits_of_decodeWord {w : Word} {i : Instr} (h : decodeWord w = .ok i) :
    w &&& i.usedBits = encode i := by
  unfold decodeWord at h
  split at h
  case h_1 ho =>
    have ho' := Machine.eq_ofNat_of_toNat ho
    unfold decodeSpecial at h
    split at h <;> cases h
    all_goals
      have hf := Machine.eq_ofNat_of_toNat ‹(functField w).toNat = _›
      apply eq_rWord <;> simp [ho', hf, Instr.usedBits]
  case h_2 ho =>
    have ho' := Machine.eq_ofNat_of_toNat ho
    unfold decodeRegimm at h
    split at h <;> cases h
    all_goals
      have ht := Machine.eq_ofNat_of_toNat ‹(rtField w).toNat = _›
      apply eq_iWord <;> simp [ho', ht, Instr.usedBits]
  all_goals cases h
  all_goals have ho := Machine.eq_ofNat_of_toNat ‹(opField w).toNat = _›
  -- J and JAL, then the rows of format I
  case h_3 | h_4 => apply eq_jWord <;> simp [ho, Instr.usedBits]
  all_goals apply eq_iWord <;> simp [ho, Instr.usedBits]

/-- The selector bits of a row are among the bits its instructions use. -/
theorem usedBits_and_mask (i : Instr) : i.usedBits &&& i.row.mask = i.row.mask := by
  cases i <;> dsimp only [Instr.usedBits, Instr.row, specialRow, regimmRow, primaryRow] <;> decide

/-- The ignored bits do not decide the row. -/
theorem matchedBy_congr {v w : Word} {i : Instr} (h : v &&& i.usedBits = w &&& i.usedBits) :
    i.matchedBy v = i.matchedBy w := by
  unfold Instr.matchedBy OpcodeRow.admits
  rw [← usedBits_and_mask, ← BitVec.and_assoc, ← BitVec.and_assoc, h]

/-- Settles O2: the row by its selector, the used bits field by field. -/
theorem decodedWordIsItsEncodingOnTheUsedBits : Obligations.DecodedWordIsItsEncodingOnTheUsedBits :=
  fun _ _ h => ⟨matchedBy_of_decodeWord h, and_usedBits_of_decodeWord h⟩

/-- Settles O3: `v` decodes to some `j` of the row of `i`, whose encoding is `v` on the bits both use, and
that is the encoding of `i`. -/
theorem ignoredFieldsDoNotAffectDecoding : Obligations.IgnoredFieldsDoNotAffectDecoding := by
  intro w v i hw hvw
  have hv : i.matchedBy v = true := (matchedBy_congr hvw).trans (matchedBy_of_decodeWord hw)
  obtain ⟨j, hj, -, hused⟩ := decodeWord_of_matchedBy hv
  have henc : encode j = encode i :=
    calc encode j = v &&& j.usedBits := (and_usedBits_of_decodeWord hj).symm
      _ = v &&& i.usedBits := by rw [hused]
      _ = w &&& i.usedBits := hvw
      _ = encode i := and_usedBits_of_decodeWord hw
  rw [hj, encode_injective henc]

/-! ### A word of no row (30 R98) -/

/-- The selector of SYSCALL is a whole row. -/
theorem decodeWord_of_syscall_selector {w : Word} (ho : opField w = 0)
    (hs : Machine.subopOf w = 0x0C#6) : decodeWord w = .ok .syscall := by
  have hf : functField w = 0x0C#6 := by simpa [Machine.subopOf, ho] using hs
  simp [decodeWord, decodeSpecial, ho, hf]

end Sys2Proof

namespace Sys2Proof.Machine

/-- A decoded Op whose word the decoder refuses is no SYSCALL, so it does not halt (41 R133). -/
theorem Op.notHalt_of_decode_error {op : Op} {e : DecodeError} (hd : op.DecodedInv)
    (he : decodeWord op.instr = .error e) {m : Op} (hop : m.opcode = op.opcode)
    (hsub : m.subop = op.subop) : m.isHaltSyscall = false := by
  obtain ⟨ho, hs, -⟩ := op.decodedInv_iff.1 hd
  by_cases h0 : opField op.instr = 0
  · refine Op.notHalt_of_subop fun hc => ?_
    rw [hsub, hs] at hc
    cases he.symm.trans (decodeWord_of_syscall_selector h0 hc)
  · exact Op.notHalt_of_opcode (by rwa [hop, ho])

/-- The Op of a word of no row moves on with its operands resolved: it has no source, and its class is
no branch. -/
theorem executeStage_of_decode_error {s : State} {op : Op} {e : DecodeError} (hx : s.Executes op)
    (he : decodeWord op.instr = .error e) :
    executeStage s =
      .next (s.tickMdu.moveToMem (s.withOperands (op.classify unrecognisedClass))) := by
  have hb : (s.withOperands (op.classify unrecognisedClass)).isBranch = false := rfl
  have hw : false = true → s.mduBusy = 0 := fun h => absurd h (by decide)
  rw [executeStage, hx.1]
  simp only [he, executeUnrecognised, executeWith_consumes hx hw, inOp, id,
    State.resolveBranch_of_not_branch _ hb]

/-- Settles O29: the class of a word of no row gives it no destination, no memory access and no branch, and
its selector is not SYSCALL's. -/
theorem unrecognisedWordHasNoEffect : Obligations.UnrecognisedWordHasNoEffect := by
  intro s op e hx hd he
  exact ⟨_, executeStage_of_decode_error hx he,
    Op.deliversNothing rfl rfl (Op.notHalt_of_decode_error hd he rfl rfl)⟩

end Sys2Proof.Machine
end

section
/-! PROOFS. One step, handler by handler: the instruction it runs (O6), the move from DE to EX (O8), the
pending recovery (O34) and the flush of a mispredicted branch (O35). -/

namespace Sys2Proof.Machine

/-! ### The instruction a step runs (40 R110, 43 R160) -/

/-- The dispatch of `Execute()` on a word that decodes. -/
theorem executeStage_of_decode {s : State} {op : Op} {i : Instr} (hx : s.ex = some op)
    (hi : decodeWord op.instr = .ok i) : executeStage s = exec i s := by
  simp only [executeStage, hx, hi]

/-- Settles O6: writeback and mem are done, and execute dispatches on the word in EX. -/
theorem stepRunsTheDecodedInstruction : Obligations.StepRunsTheDecodedInstruction := by
  intro s m op i hstop hcfg hm hx hi
  simp only [step, hstop, hcfg, cycle, hm, andThen_next, executeStage_of_decode hx hi,
    Bool.false_eq_true, if_false, if_true]

/-! ### `Recover` and `ApplyRecovery` (40 R118, R120) -/

theorem State.recover_of_inactive {s : State} (h : s.recov.active = false) (n : Nat) (d : Word) :
    s.recover n d = { s with recov := ⟨true, n, d⟩ } := by
  simp [State.recover, h]

theorem State.recover_of_active {s : State} (h : s.recov.active = true) (n : Nat) (d : Word) :
    s.recover n d = s := if_pos h

theorem State.applyRecovery_of_active {s : State} (h : s.recov.active = true) :
    s.applyRecovery =
      { s with
        pc := s.recov.dest
        de := flushSlot s.recov.depth 2 s.de
        ex := flushSlot s.recov.depth 3 s.ex
        me := flushSlot s.recov.depth 4 s.me
        wb := flushSlot s.recov.depth 5 s.wb
        recov := Recovery.inactive
        statSquash := s.statSquash + 1 } := if_pos h

/-- A recovery that is applied shows in the squash counter. -/
theorem State.applyRecovery_of_statSquash_eq {s : State}
    (h : s.applyRecovery.statSquash = s.statSquash) : s.applyRecovery = s := by
  cases ha : s.recov.active with
  | false => exact State.applyRecovery_inactive ha
  | true =>
    rw [State.applyRecovery_of_active ha] at h
    exact absurd h (Nat.succ_ne_self _)

/-- Settles O34: the second call finds a recovery recorded, and the first one's is applied. -/
theorem recoveryIsRecordedOnceAndAppliedAtTheEnd :
    Obligations.RecoveryIsRecordedOnceAndAppliedAtTheEnd := by
  intro s d1 d2 a1 a2 h
  have hrec : (s.recover d1 a1).recover d2 a2 = { s with recov := ⟨true, d1, a1⟩ } := by
    rw [State.recover_of_inactive h]
    exact State.recover_of_active rfl d2 a2
  refine ⟨hrec, ?_, State.applyRecovery_inactive h⟩
  rw [hrec, State.applyRecovery_of_active rfl]
  rfl

/-! ### The move from DE to EX (44 R200, R201) -/

/-- An Op in EX stays; else the Op in DE takes its place, decoded. -/
theorem decodeStage_ex (s : State) : (decodeStage s).ex = s.ex.or (s.de.map Op.decode) := by
  rcases decodeStage_cases s with ⟨h, hde | hex⟩ | ⟨op, hde, hex, h⟩
  · rw [h, hde, Option.map_none, Option.or_none]
  · rw [h, Option.or_of_isSome hex]
  · rw [h, hde, hex]; rfl

theorem decodeStage_of_occupied {s : State} (h : s.ex.isSome = true) : decodeStage s = s := by
  rcases decodeStage_cases s with ⟨he, -⟩ | ⟨op, -, hex, -⟩
  · exact he
  · rw [hex] at h; cases h

/-- Fetch leaves an occupied DE alone (45 R226). -/
theorem FetchOutcome.de_of_occupied {s t : State} (h : FetchOutcome s t) (hd : s.de.isSome = true) :
    t.de = s.de := by
  cases h with
  | halted | wait | full => rfl
  | deliver _ _ _ _ _ hde => rw [hde] at hd; cases hd

/-- What decode writes, field by field, for the class of the Op's word (44 R202, R203). -/
theorem Op.decode_eq {op : Op} {c : OperandClass} (hc : classOfWord op.instr = c) :
    op.decode =
      { op with
        opcode := opField op.instr, subop := subopOf op.instr, imm16 := immField op.instr
        seImm := sext16 (immField op.instr), shamt := shamtField op.instr
        jtarget := targetField op.instr
        src1 := c.src1, src2 := c.src2, dst := c.dst
        isMem := c.isMem, memWrite := c.memWrite
        isBranch := c.isBranch, branchCond := c.branchCond } := by
  rw [← hc]; rfl

/-! ### What execute and the step leave of the slots and the squash counter -/

theorem ExecuteOutcome.de_eq {s t : State} (h : ExecuteOutcome s t) : t.de = s.de := by
  cases h with
  | tick => rfl
  | moves => simp

/-- Execute records a recovery and leaves it to the end of the cycle to count it. -/
theorem ExecuteOutcome.statSquash_eq {s t : State} (h : ExecuteOutcome s t) :
    t.statSquash = s.statSquash := by
  cases h with
  | tick => rfl
  | moves => simp

/-- A step passes through the states its first three handlers are known to leave. -/
theorem stepStages_of_execute {s m e t : State} (hm : memStage (writebackStage s) = .next m)
    (he : executeStage m = .next e) (hstep : step s = .next t) : ∃ f, StepStages s m e f t := by
  obtain ⟨-, -, m', e', f, hm', he', hf, ht⟩ := step_eq_next.1 hstep
  cases hm.symm.trans hm'
  cases he.symm.trans he'
  exact ⟨f, hm, executeStage_outcome he, hf, ht⟩

section Stages
variable {s m e f t : State} (h : StepStages s m e f t)
include h

theorem StepStages.execute_de : e.de = s.de := by
  rw [h.execute.de_eq, memStage_frame h.mem]
  exact writebackStage_de s

theorem StepStages.fetch_ex : f.ex = e.ex.or (s.de.map Op.decode) := by
  rw [fetchStage_frame h.fetch, ← h.execute_de]
  exact decodeStage_ex e

theorem StepStages.fetch_me : f.me = e.me := by
  rw [fetchStage_frame h.fetch]
  exact decodeStage_me e

theorem StepStages.fetch_wb : f.wb = e.wb := by
  rw [fetchStage_frame h.fetch]
  exact decodeStage_wb e

theorem StepStages.fetch_recov : f.recov = e.recov :=
  (fetchStage_recov h.fetch).trans (decodeStage_recov e)

/-- No handler counts a squash: only `ApplyRecovery` does. -/
theorem StepStages.fetch_statSquash : f.statSquash = s.statSquash := by
  rw [fetchStage_frame h.fetch, decodeStage_frame]
  refine h.execute.statSquash_eq.trans ?_
  rw [memStage_frame h.mem, writebackStage_frame]

/-- An Op in DE stays there behind an occupied EX. -/
theorem StepStages.fetch_de_of_held (hx : e.ex.isSome = true) (hd : s.de.isSome = true) :
    f.de = s.de := by
  have hf := fetchStage_outcome h.fetch
  rw [decodeStage_of_occupied hx] at hf
  rw [← h.execute_de] at hd ⊢
  exact hf.de_of_occupied hd

/-- A step that counts no squash ends in the state fetch leaves. -/
theorem StepStages.eq_fetch (hq : t.statSquash = s.statSquash) : t = f := by
  rw [h.recovery, ← h.fetch_statSquash] at hq
  rw [h.recovery, State.applyRecovery_of_statSquash_eq hq]

end Stages

/-- Settles O8: without a squash the step ends as fetch leaves it, EX as decode left it; decode writes the
fields of the word and the marks of its class. -/
theorem decodeMovesTheOpOrStalls : Obligations.DecodeMovesTheOpOrStalls := by
  constructor
  · intro s m e t hm he hstep hq
    obtain ⟨f, h⟩ := stepStages_of_execute hm he hstep
    obtain rfl := h.eq_fetch hq
    refine ⟨fun hx => ?_, fun op hx => ?_, fun op d hx hd => ?_⟩
    · rw [h.fetch_ex, hx, Option.none_or]
    · rw [h.fetch_ex, hx, Option.some_or]
    · rw [h.fetch_de_of_held (by rw [hx]; rfl) (by rw [hd]; rfl), hd]
  · intro op c hc
    have hclass : classOfWord op.instr = c := by
      rcases hc with ⟨i, hi, rfl⟩ | ⟨⟨r, hr⟩, rfl⟩
      · rw [classOfWord, hi]
      · rw [classOfWord, hr]; rfl
    exact Op.decode_eq hclass

/-! ### The flush of a mispredicted branch (43 R180 to R183, 40 R120 to R125) -/

/-- The Op is not held, so ME is free for it (43 R190). -/
theorem State.me_of_exHold {s : State} {op : Op} (h : s.exHold op = false) : s.me = none := by
  simp only [State.exHold, Bool.or_eq_false_iff] at h
  obtain ⟨⟨hme, -⟩, -⟩ := h
  simpa using hme

/-- Only a word of a row decodes to a branch (30 R98, R100). -/
theorem Op.decodeWord_of_isBranch {op : Op} (hd : op.DecodedInv) (hb : op.isBranch = true) :
    ∃ i, decodeWord op.instr = .ok i ∧ (classOf i).isBranch = true := by
  obtain ⟨-, -, -, -, -, -, c⟩ := op.decodedInv_iff.1 hd
  rw [c.isBranch, classOfWord] at hb
  cases hi : decodeWord op.instr with
  | ok i => exact ⟨i, rfl, by simpa only [hi] using hb⟩
  | error r =>
    rw [hi] at hb
    exact absurd hb Bool.false_ne_true

/-- What execute leaves when it has consumed the branch `op` as `b`. -/
structure BranchConsumed (op b : Op) (e : State) : Prop where
  pc : b.pc = op.pc
  ex : e.ex = none
  recov : e.recov =
    if b.mismatch then ⟨true, branchFlushDepth, b.correctNextPc⟩ else Recovery.inactive

/-- With no recovery pending, a consumed branch asks for one exactly on a mismatch. -/
theorem executeStage_branchConsumed {s e : State} {op b : Op} (hx : s.Executes op)
    (hd : op.DecodedInv) (hb : op.isBranch = true) (hr : s.recov = Recovery.inactive)
    (he : executeStage s = .next e) (hme : e.me = some b) : BranchConsumed op b e := by
  obtain ⟨i, hi, hbr⟩ := Op.decodeWord_of_isBranch hd hb
  rw [executeStage_of_decode hx.1 hi] at he
  rcases exec_cases i s with ⟨ht, -⟩ | ⟨held, m, x, y, n, hx', -, hm, -, hmoves⟩
  · cases he.symm.trans ht
    cases hx.2.symm.trans hme
  · cases he.symm.trans hmoves
    cases hx.1.symm.trans hx'.1
    cases hme
    refine ⟨hm.pc, rfl, ?_⟩
    rw [State.moveToMem_recov, State.resolveBranch_of_branch _ (hm.isBranch.trans hbr),
      State.refreshBtb_recov, State.updateIfCond_recov, State.recoverIfMismatch_recov,
      State.writeHiLo_recov, State.tickMdu_recov, hr]
    rfl

/-- Settles O35: the recovery execute records on a mismatch has the depth that empties DE and EX and keeps
ME and WB; without a mismatch none is pending. -/
theorem mispredictionFlushesExactlyTheYoungerOps :
    Obligations.MispredictionFlushesExactlyTheYoungerOps := by
  intro s m e t op b hs hm hop hhold hbr he hme hstep
  obtain ⟨f, h⟩ := stepStages_of_execute hm he hstep
  have hframe := memStage_frame hm
  have hmex : m.ex = s.ex := by rw [hframe]; exact writebackStage_ex s
  have hmrec : m.recov = Recovery.inactive := by
    rw [hframe]; exact (writebackStage_recov s).trans hs.noRecovery
  obtain ⟨-, hdec, -⟩ := hs.slots.ex op (hmex.symm.trans hop)
  have hc := executeStage_branchConsumed ⟨hop, State.me_of_exHold hhold⟩ hdec hbr hmrec he hme
  have hfrec := h.fetch_recov.trans hc.recov
  have hfme := h.fetch_me.trans hme
  constructor
  · intro hmis
    rw [hmis, if_pos rfl] at hfrec
    rw [h.recovery, State.applyRecovery_of_active (by rw [hfrec]), hfrec]
    refine ⟨rfl, rfl, hfme, h.fetch_wb, ?_, congrArg (· + 1) h.fetch_statSquash⟩
    rw [← hc.pc]
    rfl
  · intro hmis
    rw [hmis, if_neg Bool.false_ne_true] at hfrec
    rw [h.recovery, State.applyRecovery_inactive (by rw [hfrec]; rfl)]
    refine ⟨hfme, ?_, h.fetch_statSquash⟩
    rw [h.fetch_ex, hc.ex, Option.none_or]

end Sys2Proof.Machine
end

section
/-! PROOFS. What `Writeback()` does with the Op in WB (O36), and that no other handler writes the register
file, `run` or the retirement counter (O37). -/

namespace Sys2Proof.Machine

/-! ### The evaluation of `Writeback()` (41 R130 to R134) -/

/-- The halting syscall by its fields (41 R133, 49 R495). -/
theorem Op.isHaltSyscall_iff {op : Op} :
    op.isHaltSyscall = true ↔ op.opcode = 0x00 ∧ op.subop = 0x0C ∧ op.src1Val = 10 := by
  simp [Op.isHaltSyscall, haltSelector, and_assoc]

/-- A commit touches the register file only. -/
theorem State.commit_frame (s : State) (op : Op) :
    s.commit op = { s with regs := (s.commit op).regs } := by
  unfold State.commit State.writeReg
  cases op.dst with
  | none => rfl
  | some d => by_cases hd : d = 0#5 <;> simp [hd]

/-- With an Op in WB, writeback commits, halts and retires it. -/
theorem writebackStage_of_some {s : State} {op : Op} (h : s.wb = some op) :
    writebackStage s =
      { s with
        wb := none
        regs := (s.commit op).regs
        run := if op.isHaltSyscall then false else s.run
        statRetired := s.statRetired + 1 } := by
  simp only [writebackStage, h]
  rw [State.haltIf_eq, State.commit_frame]
  rfl

theorem writebackStage_of_none {s : State} (h : s.wb = none) : writebackStage s = s := by
  simp only [writebackStage, h]

/-- Settles O36: the three parts of the handler, each by what it writes. -/
theorem writebackCommitsHaltsAndRetires : Obligations.WritebackCommitsHaltsAndRetires := by
  intro s
  refine ⟨writebackStage_of_none, fun op h => ?_⟩
  rw [writebackStage_of_some h, State.commit_regs]
  cases op.dst with
  | none => simp only [Op.isHaltSyscall_iff]
  | some d => simp only [Op.isHaltSyscall_iff, ne_eq, ite_not]

/-! ### What the other handlers leave of `run` and the retirement counter (41 R131, R133, R134) -/

theorem ExecuteOutcome.run_eq {s t : State} (h : ExecuteOutcome s t) : t.run = s.run := by
  cases h with
  | tick => rfl
  | moves => simp

theorem ExecuteOutcome.statRetired_eq {s t : State} (h : ExecuteOutcome s t) :
    t.statRetired = s.statRetired := by
  cases h with
  | tick => rfl
  | moves => simp

section Stages
variable {s m e f t : State} (h : StepStages s m e f t)
include h

theorem StepStages.run : t.run = (writebackStage s).run := by
  rw [h.recovery, State.applyRecovery_run, fetchStage_frame h.fetch, decodeStage_frame]
  refine h.execute.run_eq.trans ?_
  rw [memStage_frame h.mem]

theorem StepStages.statRetired : t.statRetired = (writebackStage s).statRetired := by
  rw [h.recovery, State.applyRecovery_statRetired, fetchStage_frame h.fetch, decodeStage_frame]
  refine h.execute.statRetired_eq.trans ?_
  rw [memStage_frame h.mem]

end Stages

/-- Settles O37: the handlers after writeback leave the three alone, and writeback itself neither writes
register 0's entry nor sets `run`. -/
theorem onlyWritebackWritesRegistersAndRun : Obligations.OnlyWritebackWritesRegistersAndRun := by
  intro s t hstep
  obtain ⟨m, e, f, h⟩ := step_stages hstep
  refine ⟨h.regs, h.run, h.statRetired, ?_, t.reg_zero, fun hr => ?_⟩
  · rw [h.regs, writebackStage_regs_zero]
  · rw [h.run] at hr
    exact run_of_writebackStage hr

end Sys2Proof.Machine
end

section
/-! PROOFS. Execute: the operand bypass (O32), the operands once mem has run (O33), when the Op in EX is held
(O31), the wait for HI or LO (O18), and what each instruction leaves alone (O30). -/

namespace Sys2Proof.Machine

/-! ### The operand bypass (43 R166 to R169) -/

theorem State.resolveOperand_of_zero (s : State) : s.resolveOperand 0#5 = (0, false) := if_pos rfl

/-- The Op in ME is bound for the register: its value, or a stall. -/
theorem State.resolveOperand_of_me {s : State} {r : Reg} {m : Op} (hr : r ≠ 0#5) (hm : s.me = some m)
    (hd : m.dst = some r) :
    s.resolveOperand r = if m.dstReady then (m.dstVal, false) else (0, true) := by
  rw [State.resolveOperand, if_neg hr, hm]
  exact if_pos hd

/-- The Op in ME, if any, is not bound for the register. -/
theorem State.resolveOperand_of_not_me {s : State} {r : Reg} (hr : r ≠ 0#5)
    (hm : ∀ m, s.me = some m → m.dst ≠ some r) : s.resolveOperand r = (s.bypassWb r, false) := by
  rw [State.resolveOperand, if_neg hr]
  cases hme : s.me with
  | none => rfl
  | some m => exact if_neg (hm m hme)

theorem State.bypassWb_of_wb {s : State} {r : Reg} {w : Op} (hw : s.wb = some w) (hd : w.dst = some r) :
    s.bypassWb r = w.dstVal := by
  rw [State.bypassWb, hw]
  exact if_pos hd

theorem State.bypassWb_of_not_wb {s : State} {r : Reg} (hw : ∀ w, s.wb = some w → w.dst ≠ some r) :
    s.bypassWb r = s.reg r := by
  rw [State.bypassWb]
  cases hwb : s.wb with
  | none => rfl
  | some w => exact if_neg (hw w hwb)

/-- Settles O32: the branches of the bypass, in the order in which it takes them. -/
theorem bypassTakesTheYoungestProducer : Obligations.BypassTakesTheYoungestProducer := by
  intro s r
  refine ⟨?_, fun m hr hm hd hready => ?_, fun m hr hm hd hready => ?_, fun w hr hm hw hd => ?_,
    fun hr hm hw => ?_⟩
  · rintro rfl
    exact s.resolveOperand_of_zero
  · rw [State.resolveOperand_of_me hr hm hd, hready, if_pos rfl]
  · rw [State.resolveOperand_of_me hr hm hd, hready, if_neg Bool.false_ne_true]
  · rw [State.resolveOperand_of_not_me hr hm, State.bypassWb_of_wb hw hd]
  · rw [State.resolveOperand_of_not_me hr hm, State.bypassWb_of_not_wb hw, State.reg_of_ne _ hr]

/-! ### The operands once mem has run (43 R171) -/

theorem State.operand_zero (s : State) : s.operand 0#5 = 0 := if_pos rfl

/-- With WB empty the operand is the register. -/
theorem State.operand_of_wb_none {s : State} (h : s.wb = none) (r : Reg) : s.operand r = s.reg r := by
  rw [State.operand, State.reg, h]

/-- With an Op in WB the operand is its value where it is bound for the register, else the register. -/
theorem State.operand_of_wb {s : State} {w : Op} (h : s.wb = some w) {r : Reg} (hr : r ≠ 0#5) :
    s.operand r = if w.dst = some r then w.dstVal else s.reg r := by
  rw [State.operand, if_neg hr, h, State.reg_of_ne _ hr]

/-- Writeback puts into the register file what the bypass took from WB (41 R131, R132). -/
theorem reg_writebackStage (s : State) (r : Reg) : (writebackStage s).reg r = s.operand r := by
  by_cases hr : r = 0#5
  · rw [hr, State.reg_zero, State.operand_zero]
  cases hw : s.wb with
  | none => rw [writebackStage_of_none hw, State.operand_of_wb_none hw]
  | some w =>
    have hregs : (writebackStage s).regs = (s.commit w).regs := by rw [writebackStage_of_some hw]
    rw [State.reg_congr hregs, State.operand_of_wb hw hr, State.commit]
    cases hd : w.dst with
    | none => rfl
    | some d => simp only [State.reg_writeReg, Option.some.injEq, hr, ne_eq, not_false_eq_true, and_true]

/-- The program-order value of a register, with an Op in ME (70 R540). -/
theorem State.archReg_of_me {s : State} {m : Op} (h : s.me = some m) {r : Reg} (hr : r ≠ 0#5) :
    s.archReg r =
      if m.dst = some r then
        (if m.isMem then extractWord m.opcode m.memAddr (s.hier.view s.cfg .d m.memAddr) else m.dstVal)
      else s.operand r := by
  rw [State.archReg, if_neg hr, h]

theorem State.archReg_of_me_none {s : State} (h : s.me = none) (r : Reg) : s.archReg r = s.operand r := by
  by_cases hr : r = 0#5
  · rw [hr, State.operand_zero]; exact if_pos rfl
  · rw [State.archReg, if_neg hr, h]

/-- The operand once mem has moved an Op to WB after writeback. -/
theorem operand_of_moveToWb {s u : State} (hu : u.regs = (writebackStage s).regs) (w : Op) {r : Reg}
    (hr : r ≠ 0#5) :
    (u.moveToWb w).operand r = if w.dst = some r then w.dstVal else s.operand r := by
  rw [State.operand_of_wb (State.moveToWb_wb _ _) hr,
    State.reg_congr ((State.moveToWb_regs _ _).trans hu), reg_writebackStage]

/-- Once mem has emptied ME, the operand is the program-order value before the cycle: an Op that has moved to
WB holds its result there, the load's word being that of DataView (42 R146). -/
theorem operand_of_memOutcome {s m : State} (hs : s.Inv) (h : MemOutcome (writebackStage s) m)
    (hme : m.me = none) {r : Reg} (hr : r ≠ 0#5) : m.operand r = s.archReg r := by
  cases h with
  | empty he =>
    rw [State.operand_of_wb_none (writebackStage_wb s), reg_writebackStage,
      State.archReg_of_me_none (by rwa [writebackStage_me] at he)]
  | held op ho => rw [ho] at hme; cases hme
  | wait op _ ho => rw [State.setHier_me, ho] at hme; cases hme
  | pass op ho _ hmem =>
    rw [writebackStage_me] at ho
    rw [operand_of_moveToWb rfl op hr, State.archReg_of_me ho hr, hmem]
    rfl
  | load op l w ho _ hmem hl hw =>
    rw [writebackStage_me] at ho
    rw [writebackStage_cfg, writebackStage_hier] at hl
    have hword : w = s.hier.view s.cfg .d op.memAddr :=
      (load_word hl hw).trans (load_dataView hs.config hs.caches hs.clean (k := .d) hs.miss.dq hl _)
    rw [operand_of_moveToWb (State.setHier_regs _ _) _ hr, State.archReg_of_me ho hr, hmem, hword]
    rfl
  | store op _ _ _ ho _ _ _ _ hw =>
    rw [writebackStage_me] at ho
    obtain ⟨-, hdec, -⟩ := hs.slots.me op ho
    have hdst : op.dst ≠ some r := by
      rw [Op.dst_of_memWrite hdec hw]; exact fun h => nomatch h
    rw [operand_of_moveToWb (State.setHier_regs _ _) op hr, State.archReg_of_me ho hr, if_neg hdst,
      if_neg hdst]

/-- Settles O33: with ME free the bypass asks for no stall, and what it reads is what mem and writeback have
just made of the Ops in ME and WB. -/
theorem noLoadUseBubbleOnAHit : Obligations.NoLoadUseBubbleOnAHit := by
  intro s m r hs hm hme
  rw [State.resolveOperand_of_free hme]
  by_cases hr : r = 0#5
  · rw [hr, State.operand_zero]; rfl
  · rw [operand_of_memOutcome hs (memStage_outcome hm) hme hr]

/-! ### The hold (43 R163, R170, R176, R190) -/

/-- With ME free no source asks for a stall (R171). -/
theorem State.resolveSource_of_free {s : State} (h : s.me = none) (src : Option Reg) (held : Word) :
    (s.resolveSource src held).2 = false := by
  cases src with
  | none => rfl
  | some r => rw [State.resolveSource, State.resolveOperand_of_free h]

theorem State.bypassStall_of_free {s : State} (h : s.me = none) (op : Op) : s.bypassStall op = false := by
  rw [State.bypassStall, State.resolveSource_of_free h, State.resolveSource_of_free h, Bool.or_false]

/-- With ME free an Op is held for HI or LO only. -/
theorem State.exHold_of_free {s : State} (h : s.me = none) (op : Op) :
    s.exHold op = s.hiLoWait op := by
  simp [State.exHold, h, State.bypassStall_of_free h op]

theorem State.hiLoWait_of_decode {s : State} {op : Op} {i : Instr} (hi : decodeWord op.instr = .ok i) :
    s.hiLoWait op = (readsHiLo i && decide (0 < s.mduBusy)) := by
  simp only [State.hiLoWait, hi]

theorem State.hiLoWait_of_decode_error {s : State} {op : Op} {e : DecodeError}
    (he : decodeWord op.instr = .error e) : s.hiLoWait op = false := by
  simp only [State.hiLoWait, he]

/-- An occupied ME, or a wait for HI or LO, holds every instruction (R163, R176). -/
theorem exec_of_held {i : Instr} {s : State}
    (h : s.me.isSome = true ∨ (readsHiLo i = true ∧ 0 < s.mduBusy)) : exec i s = .next s.tickMdu := by
  rcases exec_cases i s with ⟨he, -⟩ | ⟨held, m, a, b, n, hx, hw, -⟩
  · exact he
  · rcases h with hme | ⟨hr, hb⟩
    · rw [hx.2] at hme; cases hme
    · rw [hw hr] at hb; cases hb

/-- An occupied ME holds a word of no row (R163). -/
theorem executeUnrecognised_of_held {s : State} (h : s.me.isSome = true) :
    executeUnrecognised s = .next s.tickMdu := by
  rcases executeWith_cases (·.classify unrecognisedClass) false (inOp id) s with ⟨he, -⟩ | ⟨_, hx, -⟩
  · exact he
  · rw [hx.2] at h; cases h

theorem executeStage_of_exHold {s : State} {op : Op} (hx : s.ex = some op) (h : s.exHold op = true) :
    executeStage s = .next s.tickMdu := by
  have hcause : s.me.isSome = true ∨ s.hiLoWait op = true := by
    cases hme : s.me with
    | some m => exact .inl rfl
    | none => exact .inr ((State.exHold_of_free hme op).symm.trans h)
  cases hi : decodeWord op.instr with
  | ok i =>
    rw [State.hiLoWait_of_decode hi, Bool.and_eq_true, decide_eq_true_eq] at hcause
    rw [executeStage_of_decode hx hi, exec_of_held hcause]
  | error e =>
    rw [State.hiLoWait_of_decode_error hi] at hcause
    simp only [executeStage, hx, hi, executeUnrecognised_of_held (hcause.resolve_right Bool.false_ne_true)]

/-- `Compute` leaves the word and the fields decode wrote. -/
theorem ComputeFrame.decodedFields {i : Instr} {compute : Op → State → Op × State}
    (hf : ComputeFrame i compute) (s t : State) (held : Op) :
    (compute (s.withOperands held) t).1.decodedFields = held.decodedFields := by
  simp only [Op.decodedFields, hf.instr, hf.opcode, hf.subop, hf.imm16, hf.seImm, hf.shamt, hf.jtarget,
    hf.src1, hf.src2, hf.dst, hf.isMem, hf.memWrite, hf.isBranch, hf.branchCond, State.withOperands]

/-- What execute moves to ME when it does not hold the Op in EX: an Op of the same address and word, still
decoded (R186). -/
structure ConsumedAs (op : Op) (t : State) (m : Op) : Prop where
  ex : t.ex = none
  me : t.me = some m
  pc : m.pc = op.pc
  instr : m.instr = op.instr
  decoded : m.DecodedInv

theorem exec_consumes {i : Instr} {s : State} {op : Op} (hx : s.Executes op) (hd : op.DecodedInv)
    (hi : decodeWord op.instr = .ok i) (hw : readsHiLo i = true → s.mduBusy = 0) :
    ∃ t m, exec i s = .next t ∧ ConsumedAs op t m := by
  obtain ⟨c, hc, hf⟩ := exec_shape i
  have he := executeAs_consumes (compute := c) hx hw
  rw [← hc, Op.readAs_of_decoded hd hi] at he
  exact ⟨_, _, he, rfl, rfl, hf.pc _ _, hf.instr _ _, Op.decodedInv_congr (hf.decodedFields s _ op) hd⟩

/-- A decoded Op of a word of no row already has the class of such a word. -/
theorem Op.classify_of_decode_error {op : Op} {e : DecodeError} (hd : op.DecodedInv)
    (he : decodeWord op.instr = .error e) : op.classify unrecognisedClass = op := by
  obtain ⟨-, -, -, -, -, -, k⟩ := op.decodedInv_iff.1 hd
  have hc : classOfWord op.instr = unrecognisedClass := by rw [classOfWord, he]
  rw [hc] at k
  rw [Op.classify, ← k.src1, ← k.src2, ← k.dst, ← k.isMem, ← k.memWrite, ← k.isBranch,
    ← k.branchCond]

theorem executeStage_consumes {s : State} {op : Op} (hx : s.ex = some op) (hd : op.DecodedInv)
    (h : s.exHold op = false) : ∃ t m, executeStage s = .next t ∧ ConsumedAs op t m := by
  have hme := State.me_of_exHold h
  rw [State.exHold_of_free hme] at h
  cases hi : decodeWord op.instr with
  | ok i =>
    rw [State.hiLoWait_of_decode hi] at h
    rw [executeStage_of_decode hx hi]
    exact exec_consumes ⟨hx, hme⟩ hd hi (fun hr => by simpa [hr] using h)
  | error e =>
    have he := executeStage_of_decode_error ⟨hx, hme⟩ hi
    rw [Op.classify_of_decode_error hd hi] at he
    exact ⟨_, _, he, rfl, rfl, rfl, rfl, Op.decodedInv_congr (op := op) rfl hd⟩

/-- Settles O31: an evaluation ticks when EX is empty or the Op is held, and consumes the Op otherwise. -/
theorem executeHoldsExactlyOnExHold : Obligations.ExecuteHoldsExactlyOnExHold := by
  intro s
  refine ⟨fun hx => ?_, fun op hx hd => ⟨executeStage_of_exHold hx, fun h => ?_⟩⟩
  · simp only [executeStage, hx]
  · obtain ⟨t, m, he, hc⟩ := executeStage_consumes hx hd h
    exact ⟨t, m, he, hc.ex, hc.me, hc.pc, hc.instr, hc.decoded⟩

/-! ### The wait for HI or LO (43 R161, R176) -/

/-- The last of `n + 1` evaluations. -/
theorem executeTimes_succ_last (n : Nat) (s : State) :
    executeTimes (n + 1) s = andThen (executeTimes n s) executeStage := by
  induction n generalizing s with
  | zero =>
    show andThen (executeStage s) Host.Outcome.next = executeStage s
    cases executeStage s <;> rfl
  | succ n ih =>
    show andThen (executeStage s) (executeTimes (n + 1)) =
      andThen (andThen (executeStage s) (executeTimes n)) executeStage
    cases executeStage s with
    | next t => exact ih t
    | fault | refused => rfl

/-- Behind a countdown of at least `n`, `n` evaluations only count down. -/
theorem executeTimes_of_wait {op : Op} {i : Instr} (hi : decodeWord op.instr = .ok i)
    (hr : readsHiLo i = true) {n : Nat} {s : State} (hx : s.ex = some op) (hn : n ≤ s.mduBusy) :
    executeTimes n s = .next { s with mduBusy := s.mduBusy - n } := by
  induction n generalizing s with
  | zero => rfl
  | succ n ih =>
    have hstage : executeStage s = .next s.tickMdu := by
      rw [executeStage_of_decode hx hi]
      exact exec_of_held (.inr ⟨hr, by omega⟩)
    have hrest := ih (s := s.tickMdu) hx (by rw [State.tickMdu_mduBusy]; omega)
    rw [executeTimes, hstage, andThen_next, hrest, State.tickMdu_mduBusy, Nat.sub_sub, Nat.add_comm 1 n]
    rfl

/-- A move of `v` from HI or LO to `rd`: once the countdown is 0 it delivers the value. -/
theorem executeAs_moveFrom {i : Instr} {rd : Reg} {v : State → Word} {s : State} {op : Op}
    (hx : s.Executes op) (hb : s.mduBusy = 0) (hc : classOf i = aluClass none none (some rd))
    (hsub : subopOf (encode i) ≠ 0x0C#6) :
    ∃ m, executeAs i (fun op s => (op.result (v s), s)) s = .next (s.moveToMem m) ∧
      m.Delivers rd (v s) := by
  have htick : s.tickMdu = s := by rw [State.tickMdu, hb, Nat.zero_sub, ← hb]
  have hread : op.readAs i = { op with opcode := opField (encode i), subop := subopOf (encode i) }.classify
      (aluClass none none (some rd)) := by rw [Op.readAs, hc]
  refine ⟨(s.withOperands (op.readAs i)).result (v s), ?_, ?_⟩
  · rw [executeAs_consumes hx (fun _ => hb), htick, State.resolveBranch_of_not_branch]
    rw [hread]; rfl
  · refine Op.delivers ?_ rfl rfl ?_ (Op.notHalt_of_subop hsub) <;> rw [hread] <;> rfl

/-- A move from HI or LO behind a countdown waits it out, then delivers the value, which the wait has not
changed. -/
theorem executeTimes_moveFrom {i : Instr} {rd : Reg} {v : State → Word} {s : State} {op : Op}
    (hx : s.Executes op) (hi : decodeWord op.instr = .ok i) (hr : readsHiLo i = true)
    (he : ∀ s, exec i s = executeAs i (fun op s => (op.result (v s), s)) s)
    (hc : classOf i = aluClass none none (some rd)) (hsub : subopOf (encode i) ≠ 0x0C#6) :
    (∀ n ≤ s.mduBusy, executeTimes n s = .next { s with mduBusy := s.mduBusy - n }) ∧
    ∃ m, executeTimes (s.mduBusy + 1) s = .next ({ s with mduBusy := 0 }.moveToMem m) ∧
      m.Delivers rd (v { s with mduBusy := 0 }) := by
  have hwait : ∀ n ≤ s.mduBusy, executeTimes n s = .next { s with mduBusy := s.mduBusy - n } :=
    fun n hn => executeTimes_of_wait hi hr hx.1 hn
  have hx0 : State.Executes { s with mduBusy := 0 } op := ⟨hx.1, hx.2⟩
  obtain ⟨m, hm, hdel⟩ := executeAs_moveFrom (v := v) hx0 rfl hc hsub
  refine ⟨hwait, m, ?_, hdel⟩
  rw [executeTimes_succ_last, hwait s.mduBusy le_rfl, Nat.sub_self, andThen_next,
    executeStage_of_decode hx0.1 hi, he, hm]

/-- Settles O18: by induction on the evaluations a move waits, for HI and for LO. -/
theorem moveFromHiLoIsHeldExactlyTheCountdown : Obligations.MoveFromHiLoIsHeldExactlyTheCountdown := by
  intro s op rd hx _
  constructor
  · intro hi
    have hsub : subopOf (encode (.mfhi rd)) ≠ 0x0C#6 := by simp [encode, subopOf]
    exact executeTimes_moveFrom (v := State.hi) hx hi rfl (fun _ => rfl) rfl hsub
  · intro hi
    have hsub : subopOf (encode (.mflo rd)) ≠ 0x0C#6 := by simp [encode, subopOf]
    exact executeTimes_moveFrom (v := State.lo) hx hi rfl (fun _ => rfl) rfl hsub

/-! ### What each instruction leaves alone (43 R172 to R187) -/

/-- Everything an evaluation leaves: the countdown ticked, or what `Compute` made of that, with the branch
resolved and the Op moved. -/
theorem executeAs_eq_next {i : Instr} {compute : Op → State → Op × State} {s t : State}
    (h : executeAs i compute s = .next t) :
    t = s.tickMdu ∨ ∃ op m, t = ((compute op s.tickMdu).2.resolveBranch m).moveToMem m := by
  rcases executeWith_cases (·.readAs i) (readsHiLo i) compute s with ⟨he, -⟩ | ⟨held, -, -, he⟩
  · cases h.symm.trans he
    exact .inl rfl
  · cases h.symm.trans he
    exact .inr ⟨_, _, rfl⟩

/-- MTHI writes neither LO nor the countdown (R178). -/
theorem execMthi_frame {rs : Reg} {s t : State} (h : execMthi rs s = .next t) :
    t.lo = s.lo ∧ t.mduBusy = s.mduBusy - 1 := by
  rcases executeAs_eq_next h with rfl | ⟨op, m, rfl⟩ <;> simp

/-- MTLO writes neither HI nor the countdown (R178). -/
theorem execMtlo_frame {rs : Reg} {s t : State} (h : execMtlo rs s = .next t) :
    t.hi = s.hi ∧ t.mduBusy = s.mduBusy - 1 := by
  rcases executeAs_eq_next h with rfl | ⟨op, m, rfl⟩ <;> simp

/-- An instruction that writes neither HI nor LO leaves both, and the countdown only ticks. -/
theorem exec_hiLo_of_not_writes {i : Instr} {s t : State} (hw : writesHiLo i = false)
    (h : exec i s = .next t) : t.hi = s.hi ∧ t.lo = s.lo ∧ t.mduBusy = s.mduBusy - 1 := by
  rcases exec_cases i s with ⟨he, -⟩ | ⟨held, m, a, b, n, -, -, -, hsame, he⟩
  · cases h.symm.trans he
    exact ⟨rfl, rfl, rfl⟩
  · rw [hsame hw] at he
    cases h.symm.trans he
    simp

/-- Of the six instructions that write HI or LO, the multiplies and divides write all three; MTHI and MTLO
write one. -/
theorem exec_hiLo_frame {i : Instr} {s t : State} (h : exec i s = .next t) :
    (setsHi i = false → t.hi = s.hi) ∧ (setsLo i = false → t.lo = s.lo) ∧
      (loadsCountdown i = false → t.mduBusy = s.mduBusy - 1) := by
  cases hw : writesHiLo i with
  | false =>
    obtain ⟨hhi, hlo, hbusy⟩ := exec_hiLo_of_not_writes hw h
    exact ⟨fun _ => hhi, fun _ => hlo, fun _ => hbusy⟩
  | true =>
    cases i with
    | mthi rs =>
      obtain ⟨hlo, hbusy⟩ := execMthi_frame h
      exact ⟨nofun, fun _ => hlo, fun _ => hbusy⟩
    | mtlo rs =>
      obtain ⟨hhi, hbusy⟩ := execMtlo_frame h
      exact ⟨fun _ => hhi, nofun, fun _ => hbusy⟩
    | mult | multu | div | divu => exact ⟨nofun, nofun, nofun⟩
    | _ => cases hw

/-- The branches and jumps by their class (30 R100). -/
theorem classOf_isBranch (i : Instr) : (classOf i).isBranch = isControl i := by cases i <;> rfl

theorem classOf_branchCond (i : Instr) : (classOf i).branchCond = isCondBranch i := by cases i <;> rfl

/-- Only a conditional branch updates the direction predictor (R182). -/
theorem State.resolveBranch_direction {s : State} {op : Op} (h : op.branchCond = false) :
    (s.resolveBranch op).ghr = s.ghr ∧ (s.resolveBranch op).pht = s.pht := by
  have hcond : ∀ u : State, u.updateIfCond op = u := fun u => by
    rw [State.updateIfCond, h]; exact if_neg Bool.false_ne_true
  cases hb : op.isBranch with
  | false => rw [State.resolveBranch_of_not_branch _ hb]; exact ⟨rfl, rfl⟩
  | true =>
    rw [State.resolveBranch_of_branch _ hb, hcond]
    simp

theorem exec_predictor_frame {i : Instr} {s t : State} (h : exec i s = .next t) :
    (isCondBranch i = false → t.ghr = s.ghr ∧ t.pht = s.pht) ∧
      (isControl i = false → t.btb = s.btb ∧ t.recov = s.recov) := by
  rcases exec_cases i s with ⟨he, -⟩ | ⟨held, m, a, b, n, -, -, hm, -, he⟩
  · cases h.symm.trans he
    exact ⟨fun _ => ⟨rfl, rfl⟩, fun _ => ⟨rfl, rfl⟩⟩
  · cases h.symm.trans he
    refine ⟨fun hc => ?_, fun hc => ?_⟩
    · exact State.resolveBranch_direction (hm.branchCond.trans ((classOf_branchCond i).trans hc))
    · rw [State.resolveBranch_of_not_branch _ (hm.isBranch.trans ((classOf_isBranch i).trans hc))]
      exact ⟨rfl, rfl⟩

/-- Settles O30: what no instruction writes, by the two things an evaluation can do; HI, LO and the countdown
by `Compute`, the predictor and the recovery record by the class. -/
theorem executeFrame : Obligations.ExecuteFrame := by
  intro i s t h
  obtain ⟨hhi, hlo, hbusy⟩ := exec_hiLo_frame h
  obtain ⟨hdir, hbtb⟩ := exec_predictor_frame h
  rcases exec_cases i s with ⟨he, -⟩ | ⟨held, m, a, b, n, -, -, -, -, he⟩
  · cases h.symm.trans he
    exact ⟨rfl, rfl, rfl, rfl, rfl, rfl, rfl, rfl, rfl, rfl, rfl, hhi, hlo, hbusy, hdir, hbtb⟩
  · cases h.symm.trans he
    refine ⟨?_, ?_, ?_, ?_, ?_, ?_, ?_, ?_, ?_, ?_, ?_, hhi, hlo, hbusy, hdir, hbtb⟩
    all_goals simp

end Sys2Proof.Machine
end

section
/-! PROOFS. The fetch handler (O39) and the word that `withFetchWord` places (O7). -/

namespace Sys2Proof.Machine

/-! ### The fetch handler (45 R220, R243) -/

/-- Halted, fetch steps PC by 4 and makes no request (R222). -/
theorem fetchStage_of_halted {s : State} (h : s.run = false) :
    fetchStage s = .next { s with pc := s.pc + 4 } := by
  simp only [fetchStage, h, Bool.false_eq_true, if_false, nextSeq]

section Running
variable {s : State} {r : Loaded} (hrun : s.run = true)
  (hl : load s.cfg .i s.hier s.pc = .next r)
include hrun hl

/-- The request is made before its answer or DE is looked at (R223, R225). -/
theorem fetchStage_of_pending (hw : r.word = none) : fetchStage s = .next (s.setHier r.hier) := by
  simp only [fetchStage, hrun, if_true, fetchRunning, hl, andThen_next, hw]

/-- An available word goes to `deliver` behind the request's effect (R224, R226). -/
theorem fetchStage_of_available {w : Word} (hw : r.word = some w) :
    fetchStage s = .next ((s.setHier r.hier).deliver w) := by
  simp only [fetchStage, hrun, if_true, fetchRunning, hl, andThen_next, hw]

end Running

/-- Settles O39: halted; pending; available with DE occupied; available with DE free, where the Op is
`newOp` with the prediction for PC. -/
theorem fetchDecisionTable : Obligations.FetchDecisionTable := by
  refine fun s => ⟨fetchStage_of_halted, fun r hrun hl => ⟨fetchStage_of_pending hrun hl, fun w hw => ?_⟩⟩
  rw [fetchStage_of_available hrun hl hw]
  constructor
  · intro d hd
    rw [State.deliver_of_occupied _ _ (by rw [State.setHier_de, hd]; rfl)]
    rfl
  · intro hd
    rw [State.deliver_of_free _ _ (by rwa [State.setHier_de])]
    exact ⟨newOp s.pc w (s.predict s.pc), rfl, rfl, rfl, rfl, rfl, rfl, rfl, rfl, rfl, rfl, rfl, rfl⟩

/-! ### The placed word (notes/assumptions/1.md) -/

/-- With ME empty `Mem()` does nothing (42 R140). -/
theorem memStage_of_empty {s : State} (h : s.me = none) : memStage s = .next s := by
  simp only [memStage, h]

/-- A word, numbered by its value, is placed as it is. -/
theorem State.withFetchWord_toNat (s : State) (w : Word) :
    s.withFetchWord 32 w.toNat = placeInExecute s w := by
  rw [State.withFetchWord, Nat.mod_eq_of_lt w.isLt, BitVec.ofNat_toNat, BitVec.setWidth_eq]

/-- Writeback leaves the placed Op in EX, with ME empty. -/
theorem writebackStage_placeInExecute_executes (s : State) (w : Word) :
    (writebackStage (placeInExecute s w)).Executes (newOp s.pc w (s.predict s.pc)).decode :=
  ⟨writebackStage_ex _, writebackStage_me _⟩

/-- Settles O7: writeback keeps EX and ME, mem has nothing to do, so the step is that of O6. -/
theorem placedWordRunsInTheNextStep : Obligations.PlacedWordRunsInTheNextStep := by
  intro s w i hstop hcfg hi
  rw [State.withFetchWord_toNat]
  have hx := writebackStage_placeInExecute_executes s w
  exact ⟨_, _, rfl, hx, Op.decodedInv_decode _, rfl, rfl, writebackStage_mduBusy _,
    stepRunsTheDecodedInstruction _ _ _ i hstop hcfg (memStage_of_empty hx.2) hx.1 hi⟩

end Sys2Proof.Machine
end

section
/-! PROOFS. The branch predictor: prediction (O40), the pattern counters (O41), the branch target buffer
(O42, O43) and the source's scenario (O44). -/

namespace Sys2Proof.Machine

/-! ### Prediction (46 R262 to R266) -/

theorem BtbEntry.hits_iff (e : BtbEntry) (pc : Word) :
    e.hits pc = true ↔ e.valid = true ∧ e.addr = pc := by
  rw [BtbEntry.hits, Bool.and_eq_true, beq_iff_eq]

/-- An invalid entry holds no branch (R262). -/
theorem BtbEntry.not_hits_of_invalid {e : BtbEntry} (h : e.valid = false) (pc : Word) :
    ¬ e.hits pc = true := by
  rw [BtbEntry.hits_iff, h]
  exact fun hv => Bool.false_ne_true hv.1

/-- The counter values that predict taken (R266). -/
theorem one_lt_counter_iff : ∀ c : BitVec 2, 1 < c.toNat ↔ c = 2 ∨ c = 3 := by decide

section Predict
variable {s : State} {pc : Word}

theorem State.predict_of_miss (h : ¬ (s.btbEntry pc).hits pc = true) :
    s.predict pc = ⟨nextSeq pc, false, false⟩ := by
  rw [State.predict, if_neg h]

variable (h : (s.btbEntry pc).hits pc = true)
include h

theorem State.predict_of_hit :
    s.predict pc =
      if (s.btbEntry pc).uncond = true ∨ 1 < (s.counter (patternIndex s.ghr pc)).toNat then
        ⟨(s.btbEntry pc).target, true, true⟩
      else ⟨nextSeq pc, true, false⟩ := by
  rw [State.predict, if_pos h]
  simp only [Bool.or_eq_true, decide_eq_true_eq]

theorem State.predict_of_uncond (hu : (s.btbEntry pc).uncond = true) :
    s.predict pc = ⟨(s.btbEntry pc).target, true, true⟩ := by
  rw [State.predict_of_hit h, if_pos (.inl hu)]

end Predict

/-- Settles O40: with the entry of `pc` the counter decides, without it the prediction is `pc + 4`. -/
theorem predictFollowsTheBtbAndTheCounter : Obligations.PredictFollowsTheBtbAndTheCounter := by
  intro s pc e c he hc
  have hentry : s.btbEntry pc = e := he
  have hcounter : s.counter (patternIndex s.ghr pc) = c := hc
  by_cases hhit : e.hits pc = true
  · rw [if_pos ((e.hits_iff pc).1 hhit), State.predict_of_hit (hentry ▸ hhit), hentry, hcounter]
    simp only [one_lt_counter_iff, nextSeq]
  · rw [if_neg (fun h => hhit ((e.hits_iff pc).2 h)), State.predict_of_miss (hentry ▸ hhit)]
    rfl

/-! ### The pattern counters (46 R263, R268, R270) -/

/-- The counter as a number: up to 3, down to 0 (R270). -/
theorem saturate_toNat :
    ∀ (c : BitVec 2) (taken : Bool),
      (saturate c taken).toNat = if taken then min (c.toNat + 1) 3 else c.toNat - 1 := by decide

/-- Settles O41: the counter of the branch saturates, the others stay. -/
theorem countersSaturate : Obligations.CountersSaturate := by
  intro s pc taken i c c'
  have hc : c < 4 := (s.counter i).isLt
  by_cases hi : patternIndex s.ghr pc = i
  · have hc' : c' = if taken then min (c + 1) 3 else c - 1 := by
      simp only [c', c, State.updateDirection_counter, if_pos hi, saturate_toNat]
    cases taken with
    | false =>
      have hdown : c' = c - 1 := hc'
      exact ⟨by omega, by omega, fun _ => ⟨rfl, by omega⟩, fun _ => hdown, fun hne => absurd hi.symm hne⟩
    | true =>
      have hup : c' = min (c + 1) 3 := hc'
      exact ⟨by omega, fun _ => ⟨rfl, by omega⟩, by omega, fun _ => hup, fun hne => absurd hi.symm hne⟩
  · have hc' : c' = c := by simp only [c', c, State.updateDirection_counter, if_neg hi]
    exact ⟨by omega, by omega, by omega, fun he => absurd he.symm hi, fun _ => hc'⟩

/-! ### The branch target buffer (46 R262, R272, R275) -/

/-- Settles O42: the slot of `pc` is `pc / 4 mod 1024`, and a write to a table keeps the other slots. -/
theorem btbRefreshOverwritesOneEntry : Obligations.BtbRefreshOverwritesOneEntry := by
  intro s pc target uncond i
  simp only [State.refreshBtb_get, btbIndex_eq_iff]

/-- A branch refreshes its own entry; nothing else writes the BTB in execute (43 R185). -/
theorem State.resolveBranch_btb (s : State) (op : Op) :
    (s.resolveBranch op).btb =
      if op.isBranch then (s.refreshBtb op.pc op.branchDest (!op.branchCond)).btb else s.btb := by
  cases hb : op.isBranch with
  | false => rw [State.resolveBranch_of_not_branch _ hb]; rfl
  | true =>
    rw [State.resolveBranch_of_branch _ hb, State.refreshBtb_btb, State.updateIfCond_btb,
      State.recoverIfMismatch_btb]
    rfl

/-- A refresh writes a valid entry, so it invalidates none. -/
theorem State.refreshBtb_keeps_valid {s : State} {i : Fin 1024} (h : (s.btb.get i).valid = true)
    (pc target : Word) (uncond : Bool) : ((s.refreshBtb pc target uncond).btb.get i).valid = true := by
  rw [State.refreshBtb_get]
  split
  · rfl
  · exact h

theorem ExecuteOutcome.keeps_valid {s t : State} (he : ExecuteOutcome s t) {i : Fin 1024}
    (h : (s.btb.get i).valid = true) : (t.btb.get i).valid = true := by
  cases he with
  | tick => exact h
  | moves held m a b n =>
    rw [State.moveToMem_btb, State.resolveBranch_btb]
    split
    · exact State.refreshBtb_keeps_valid (s := s.tickMdu.writeHiLo a b n) h _ _ _
    · exact h

/-- Settles O43: only execute writes the BTB in a step. -/
theorem validBtbEntriesStayValid : Obligations.ValidBtbEntriesStayValid := by
  refine ⟨fun s t i hstep hvalid => ?_, State.applyRecovery_btb⟩
  obtain ⟨m, e, f, h⟩ := step_stages hstep
  have hmem : m.btb = s.btb := by rw [memStage_frame h.mem, writebackStage_frame]
  have hfront : t.btb = e.btb := by
    rw [h.recovery, State.applyRecovery_btb, fetchStage_frame h.fetch, decodeStage_frame]
  rw [hfront]
  exact h.execute.keeps_valid (hmem ▸ hvalid)

/-! ### The source's scenario (46 R277) -/

/-- Behind a refresh with an unconditional branch the next prediction goes to its target. -/
theorem State.predict_of_refreshed {s t : State} {pc target : Word}
    (h : t.btb = (s.refreshBtb pc target true).btb) : t.predict pc = ⟨target, true, true⟩ := by
  have hentry : t.btbEntry pc = ⟨true, pc, target, true⟩ := by
    rw [State.btbEntry, h, State.refreshBtb_get, if_pos rfl]
  rw [State.predict_of_uncond ((BtbEntry.hits_iff _ _).2 (by simp [hentry])) (by rw [hentry]), hentry]

/-- A jump, once consumed, refreshes its entry with the destination it computes, as unconditional
(43 R185). -/
theorem executeAs_jump_btb {i : Instr} {f : Op → Op} {s : State} {op m : Op} {dest : Word}
    (hx : s.Executes op) (hw : readsHiLo i = false) (hm : f (s.withOperands (op.readAs i)) = m)
    (hb : m.isBranch = true) (hc : m.branchCond = false) (hp : m.pc = op.pc)
    (hd : m.branchDest = dest) :
    ∃ t, executeAs i (inOp f) s = .next t ∧ t.btb = (s.refreshBtb op.pc dest true).btb := by
  refine ⟨_, executeAs_consumes hx (fun e => absurd (hw.symm.trans e) Bool.false_ne_true), ?_⟩
  rw [State.moveToMem_btb, State.resolveBranch_btb]
  simp only [inOp, hm, hb, hc, hp, hd, if_true]
  rfl

/-- Settles O44: an invalid entry predicts `pc + 4`, a refreshed one its target, and each of the four jumps
refreshes. -/
theorem predictorScenarioOfTheSource : Obligations.PredictorScenarioOfTheSource := by
  refine ⟨by decide, by decide, ?_⟩
  rintro s pc target i rfl hinvalid
  refine ⟨State.predict_of_miss (BtbEntry.not_hits_of_invalid hinvalid pc), ?_,
    fun t => State.predict_of_refreshed, ?_⟩
  · rw [State.refreshBtb_get]
    exact if_pos rfl
  · rintro op rd rs dest hx rfl
    simp only [exec, execJ, execJal, execJr, execJalr]
    exact ⟨fun htarget => ⟨executeAs_jump_btb hx rfl rfl rfl rfl rfl htarget.symm,
        executeAs_jump_btb hx rfl rfl rfl rfl rfl htarget.symm⟩,
      fun htarget => ⟨executeAs_jump_btb hx rfl rfl rfl rfl rfl htarget.symm,
        executeAs_jump_btb hx rfl rfl rfl rfl rfl htarget.symm⟩⟩

end Sys2Proof.Machine
end

section
/-! PROOFS. Clean copies under a store and a step (O56), and the word a store leaves (O49). -/

namespace Sys2Proof.Machine

/-! ### `Store` (47 R340, R345) -/

/-- `Store` makes the one block it writes dirty; L2 and the flat store stay as they are. -/
theorem storeWord_cleanCopies {cfg : Config} (hc : cfg.wf = true) {h h' : Hierarchy}
    (hi : CachesInv cfg h) (hcl : CleanCopies cfg h) {a v : Word} (hs : storeWord cfg h a v = .next h') :
    CleanCopies cfg h' := by
  have hg := l1dGeometry_wf hc
  have hd := (cleanCopies_iff hc hi).1 hcl
  rw [cleanCopies_iff hc (storeWord_cachesInv hc hi hs)]
  unfold storeWord at hs
  split at hs
  · cases hs
  next w hf =>
  have hlen : (h.l1d.block cfg cfg.l1d a w).data.length = cfg.blockWords :=
    ((hi.l1d.waysAt hg a).2 _ (blockAt_mem (hi.l1d.find_lt hf))).1
  cases hs
  exact ⟨hd.l2, (hi.l1d.setData_takes hg hf (by simpa using hlen) hd.l1d).clean⟩

/-! ### The handlers (40 R110) -/

theorem MemOutcome.cleanCopies {s t : State} (h : MemOutcome s t) (hc : s.cfg.wf = true)
    (hi : CachesInv s.cfg s.hier) (hq : QueueInv s.cfg s.hier.dq) (hcl : CleanCopies s.cfg s.hier) :
    CleanCopies t.cfg t.hier := by
  cases h with
  | empty | held | pass => exact hcl
  | wait _ _ _ _ _ hl | load _ _ _ _ _ _ hl => exact load_cleanCopies hc hi (k := .d) hcl hq hl
  | store _ _ _ _ _ _ _ hl _ _ hs =>
    exact storeWord_cleanCopies hc (load_cachesInv hc hi hl)
      (load_cleanCopies hc hi (k := .d) hcl hq hl) hs

theorem FetchOutcome.cleanCopies {s t : State} (h : FetchOutcome s t) (hc : s.cfg.wf = true)
    (hi : CachesInv s.cfg s.hier) (hq : QueueInv s.cfg s.hier.iq) (hcl : CleanCopies s.cfg s.hier) :
    CleanCopies t.cfg t.hier := by
  cases h with
  | halted => exact hcl
  | wait _ _ hl | full _ _ _ hl | deliver _ _ _ hl => exact load_cleanCopies hc hi (k := .i) hcl hq hl

section Stages
variable {s m e f t : State} (h : StepStages s m e f t) (hs : s.Inv)
include h hs

/-- The requests of fetch stand in a queue that mem has left in order. -/
theorem StepStages.mem_requests : RequestsInv m := by
  have hwb : RequestsInv (writebackStage s) :=
    ⟨by simpa using hs.miss,
      DataQueueInv.congr (s := s) hs.dataQueue (by simp) (by simp) (by simp)⟩
  exact hwb.mem (by simpa using hs.config) (by simpa using hs.caches) (memStage_outcome h.mem)

theorem StepStages.mem_cleanCopies : CleanCopies m.cfg m.hier :=
  (memStage_outcome h.mem).cleanCopies (by simpa using hs.config) (by simpa using hs.caches)
    (by simpa using hs.miss.dq) (by simpa using hs.clean)

theorem StepStages.cleanCopies : CleanCopies t.cfg t.hier := by
  have hcfg : (decodeStage e).cfg = m.cfg := (decodeStage_cfg e).trans h.execute.keeps.cfg
  have hhier : (decodeStage e).hier = m.hier := (decodeStage_hier e).trans h.execute.keeps.hier
  rw [h.recovery, State.applyRecovery_cfg, State.applyRecovery_hier]
  refine (fetchStage_outcome h.fetch).cleanCopies ?_ (h.fetch_cachesInv hs.config hs.caches) ?_ ?_
  · rw [hcfg, h.mem_cfg]; exact hs.config
  · rw [hcfg, hhier]; exact (h.mem_requests hs).miss.iq
  · rw [hcfg, hhier]; exact h.mem_cleanCopies hs

end Stages

/-- Settles O56: only mem and fetch write the hierarchy; `Load` keeps what every block reads as over clean
copies, and `Store` makes its block dirty. -/
theorem stepKeepsCleanCopies : Obligations.StepKeepsCleanCopies := by
  intro s t hs hstep
  obtain ⟨m, e, f, h⟩ := step_stages hstep
  exact h.cleanCopies hs

/-- Settles O49: `Store` writes the word into the block the data side reads at its address. -/
theorem storedWordIsReadBack : Obligations.StoredWordIsReadBack :=
  fun _ _ _ _ _ hc hi hs => storeWord_dataView hc hi hs

end Sys2Proof.Machine
end

section
/-! PROOFS. One set and one install (O45), and the stall counts of a queue entry (O46, O47). -/

namespace Sys2Proof.Machine

/-! ### `Touch` and `Victim` (47 R297, R298) -/

/-- `Touch` as it moves the rank of one way. -/
theorem blockAt_touchWay {ways : CacheSet} {w v : Nat} (hw : w < ways.length) (hv : v < ways.length) :
    blockAt (touchWay ways w) v =
      { blockAt ways v with
        rank :=
          if v = w then 0
          else if (blockAt ways v).rank < (blockAt ways w).rank then (blockAt ways v).rank + 1
          else (blockAt ways v).rank } := by
  rw [blockAt_eq hv, blockAt_eq hw]
  exact (blockAt_eq (by simpa using hv)).trans (touchWay_getElem hw v hv)

/-- The victim of a set with an invalid way is the lowest such (R298, 92 D25). -/
theorem victimWay_of_invalid {ways : CacheSet} (n : Nat) (h : ∃ b ∈ ways, b.valid = false) :
    ∃ w < ways.length, victimWay ways n = .next w ∧ (blockAt ways w).valid = false ∧
      ∀ v < w, (blockAt ways v).valid = true := by
  cases hf : ways.findIdx? (fun b => !b.valid) with
  | none =>
    obtain ⟨b, hb, hv⟩ := h
    have := List.findIdx?_eq_none_iff.1 hf b hb
    simp [hv] at this
  | some w =>
    obtain ⟨hw, hinvalid, hlower⟩ := List.findIdx?_eq_some_iff_getElem.1 hf
    refine ⟨w, hw, by simp only [victimWay, hf], ?_, fun v hv => ?_⟩
    · rw [blockAt_eq hw]; simpa using hinvalid
    · rw [blockAt_eq (hv.trans hw)]; simpa using hlower v hv

/-- The ranks of a set are distinct numbers below the number of ways (R296). -/
theorem SetInv.rank_lt {n : Nat} {ways : CacheSet} (h : SetInv n ways) {v : Nat} (hv : v < n) :
    (blockAt ways v).rank < n := by
  obtain ⟨hl, hr, -⟩ := h
  exact (ranks_range hr).2 _ (List.mem_map_of_mem (blockAt_mem (hl ▸ hv)))

theorem SetInv.rank_injective {n : Nat} {ways : CacheSet} (h : SetInv n ways) {v w : Nat} (hv : v < n)
    (hw : w < n) (he : (blockAt ways v).rank = (blockAt ways w).rank) : v = w := by
  obtain ⟨hl, hr, -⟩ := h
  subst hl
  rw [blockAt_eq hv, blockAt_eq hw] at he
  refine ((ranks_range hr).1.getElem_inj_iff (hi := ?_) (hj := ?_)).1 ?_ <;> simpa

/-- The victim of a full set is the one way of the highest rank (R298). -/
theorem SetInv.victimWay_of_full {n : Nat} {ways : CacheSet} (h : SetInv n ways) (hn : 0 < n)
    (hfull : ∀ b ∈ ways, b.valid = true) :
    ∃ w < n, victimWay ways n = .next w ∧ (blockAt ways w).rank = n - 1 ∧
      ∀ v < n, v ≠ w → (blockAt ways v).rank < n - 1 := by
  obtain ⟨w, hv, hw, hcase⟩ := victimWay_of_inv h hn
  have hwn : w < n := h.1 ▸ hw
  have hrank : (blockAt ways w).rank = n - 1 := by
    rcases hcase with hinvalid | ⟨-, hr⟩
    · rw [hfull _ (blockAt_mem hw)] at hinvalid
      cases hinvalid
    · exact hr
  refine ⟨w, hwn, hv, hrank, fun v hvn hne => ?_⟩
  have hlt := h.rank_lt hvn
  have hother : (blockAt ways v).rank ≠ n - 1 := fun he =>
    hne (h.rank_injective hvn hwn (he.trans hrank.symm))
  omega

/-! ### `Install` of an absent block (47 R305, R308) -/

section Install
variable {cfg : Config} (hc : cfg.wf = true) {h : Hierarchy} (hi : CachesInv cfg h) {b : Word}
include hc hi

/-- L2 fills the victim's way; the flat store takes a dirty victim. -/
theorem installL2_of_absent (hf : h.l2.find cfg cfg.l2 b = none) (data : List Word) (dirty : Bool) :
    ∃ w store, victimWay (h.l2.ways (setIndex cfg cfg.l2 b)) cfg.l2.ways = .next w ∧
      w < (h.l2.ways (setIndex cfg cfg.l2 b)).length ∧
      installL2 cfg h b data dirty =
        .next { h with l2 := h.l2.fill cfg cfg.l2 b w data dirty, store := store } := by
  have hg := l2Geometry_wf hc
  obtain ⟨w, hv, hw, -⟩ := victimWay_of_inv (hi.l2.waysAt hg b).1 (Geometry.wf_iff.1 hg).1
  exact ⟨w, _, hv, hw, by simp only [installL2, hf, hv, andThen_next]; rfl⟩

/-- The first-level cache of a side fills the victim's way, once L2 has taken a dirty victim. -/
theorem installL1_of_absent {k : Side} (hf : (h.l1 k).find cfg (l1Geometry cfg k) b = none)
    (data : List Word) :
    ∃ w h', victimWay ((h.l1 k).ways (setIndex cfg (l1Geometry cfg k) b)) (l1Geometry cfg k).ways =
        .next w ∧
      w < ((h.l1 k).ways (setIndex cfg (l1Geometry cfg k) b)).length ∧
      installL1 cfg k h b data = .next h' ∧
      h'.l1 k = (h.l1 k).fill cfg (l1Geometry cfg k) b w data false := by
  have hg := l1Geometry_wf hc k
  obtain ⟨w, hv, hw, -⟩ := victimWay_of_inv ((hi.l1 k).waysAt hg b).1 (Geometry.wf_iff.1 hg).1
  have hlen : ((h.l1 k).block cfg (l1Geometry cfg k) b w).data.length = cfg.blockWords :=
    (((hi.l1 k).waysAt hg b).2 _ (blockAt_mem hw)).1
  obtain ⟨l2, store, hwb, -, -⟩ :=
    writebackToL2_spec hc hi ((h.l1 k).residentAddr cfg (l1Geometry cfg k) b w) hlen
  have hl1 : ({ h with l2 := l2, store := store } : Hierarchy).l1 k = h.l1 k := by cases k <;> rfl
  simp only [installL1, hf, hv, andThen_next]
  split
  · rw [hwb, andThen_next, hl1]
    exact ⟨w, _, rfl, hw, rfl, Hierarchy.l1_setL1 _ _ _⟩
  · exact ⟨w, _, rfl, hw, rfl, Hierarchy.l1_setL1 _ _ _⟩

end Install

/-- Settles O45: the rank each way gets, the two kinds of victim, and the fill of the victim's way. -/
theorem touchMovesOneWayToTheFront : Obligations.TouchMovesOneWayToTheFront := by
  refine ⟨fun ways w v hw hv => blockAt_touchWay hw hv, fun ways n h => victimWay_of_invalid n h,
    fun ways n hs hn hfull => hs.victimWay_of_full hn hfull, ?_, ?_⟩
  · intro cfg h b data dirty hc hi hf
    obtain ⟨w, store, hv, hw, he⟩ := installL2_of_absent hc hi hf data dirty
    exact ⟨w, _, hv, he, Cache.fill_replaces (l2Geometry_wf hc) hi.l2 b hw data dirty⟩
  · intro cfg k h b data hc hi hf
    obtain ⟨w, h', hv, hw, he, hl1⟩ := installL1_of_absent hc hi hf data
    refine ⟨w, h', hv, he, ?_⟩
    rw [hl1]
    exact Cache.fill_replaces (l1Geometry_wf hc k) (hi.l1 k) b hw data false

/-! ### One entry's advance (47 R325, R329, R331) -/

/-- An invalid slot is passed over. -/
theorem advanceEntry_of_invalid {cfg : Config} {k : Side} {h : Hierarchy} {e : QueueEntry} {waited : Bool}
    (hv : e.valid = false) : advanceEntry cfg k h e waited = .next ⟨h, e, false⟩ := by
  simp [advanceEntry, hv]

section Advance
variable {cfg : Config} {k : Side} {h : Hierarchy} {e : QueueEntry} {waited : Bool} (hv : e.valid = true)
include hv

theorem advanceEntry_of_stalled (hs : 0 < e.stall) :
    advanceEntry cfg k h e waited = .next ⟨h, { e with stall := e.stall - 1 }, false⟩ := by
  simp [advanceEntry, hv, hs]

theorem advanceEntry_of_ready (hs : e.stall = 0) :
    advanceEntry cfg k h e waited = stepEntry cfg k h e waited := by
  simp [advanceEntry, hv, hs]

theorem advanceEntry_of_dramRequest (hs : e.stall = 0) (hst : e.state = .stalledOnDramRequest) :
    advanceEntry cfg k h e waited =
      .next ⟨h, { e with state := .stalledOnDram, stall := cfg.dramAccessLatency }, false⟩ := by
  rw [advanceEntry_of_ready hv hs]
  simp only [stepEntry, hst]

theorem advanceEntry_of_dramAccess (hs : e.stall = 0) (hst : e.state = .stalledOnDram) :
    advanceEntry cfg k h e waited =
      .next ⟨{ h with mshr := markMshrDone h.mshr e.addr },
        { e with state := .stalledOnDramResponse, stall := cfg.dramToL2cLatency }, false⟩ := by
  rw [advanceEntry_of_ready hv hs]
  simp only [stepEntry, hst]

end Advance

/-- Settles O46: a stalled entry, and an entry that waits for a DRAM request. -/
theorem stalledEntriesCountDownAndDramRequestAdvances :
    Obligations.StalledEntriesCountDownAndDramRequestAdvances :=
  fun _ _ _ _ _ hv => ⟨advanceEntry_of_stalled hv, advanceEntry_of_dramRequest hv⟩

/-- The valid entries for the block get `done`, and no other (R331). -/
theorem markMshrDone_getElem? {table : List MshrEntry} {b : Word} {i : Nat} {x y : MshrEntry}
    (hx : table[i]? = some x) (hy : (markMshrDone table b)[i]? = some y) :
    y = if x.valid = true ∧ x.addr = b then { x with done := true } else x := by
  rw [markMshrDone, List.getElem?_map, hx, Option.map_some] at hy
  rw [← Option.some.inj hy]
  simp only [MshrEntry.holds, Bool.and_eq_true, beq_iff_eq]

/-- Settles O47: the table after `markMshrDone`, entry by entry. -/
theorem dramAccessMarksItsMshrDone : Obligations.DramAccessMarksItsMshrDone :=
  fun _ _ h e _ hv hs hst => ⟨markMshrDone h.mshr e.addr, advanceEntry_of_dramAccess hv hs hst,
    List.length_map _, fun _ _ _ => markMshrDone_getElem?⟩

end Sys2Proof.Machine
end

section
/-! PROOFS. A request that its queue holds alone, call by call: when it is answered, and with which word
(O48). -/

namespace Sys2Proof.Machine

/-! ### The word a request will answer (20 R74, 47 R315) -/

section View
variable {cfg : Config} (hc : cfg.wf = true) {h : Hierarchy} {k : Side} {a : Word}

/-- The view of a block the side's first-level cache holds. -/
theorem view_of_copy {d : List Word} {x : Bool}
    (hcopy : (h.l1 k).copy cfg (l1Geometry cfg k) a = some (d, x)) :
    h.view cfg k a = d.getD (wordOffset cfg a) 0 := by
  obtain ⟨w, hf, he⟩ := Option.map_eq_some_iff.1 hcopy
  cases he
  simp only [Hierarchy.view, hf, Cache.readHit]

/-- The view of a block the side's first-level cache does not hold. -/
theorem view_of_absent (hf : (h.l1 k).find cfg (l1Geometry cfg k) a = none) :
    h.view cfg k a = h.wordBelowL1 cfg a := by
  simp only [Hierarchy.view, hf]

theorem view_setQueue (q : List QueueEntry) : (h.setQueue k q).view cfg k a = h.view cfg k a := by
  cases k <;> rfl

include hc

/-- What lies below the L1s, word by word. -/
theorem wordBelowL1_eq (h : Hierarchy) (a : Word) :
    h.wordBelowL1 cfg a = (blockBelowL1 cfg h (blockAddr cfg a)).getD (wordOffset cfg a) 0 := by
  rw [blockBelowL1_blockAddr hc]
  unfold Hierarchy.wordBelowL1
  cases hf : h.l2.find cfg cfg.l2 a with
  | some w =>
    rw [Cache.dataOver_of_copy (by rw [Cache.copy, hf]; rfl)]
    rfl
  | none =>
    rw [Cache.dataOver_of_absent (Cache.copy_eq_none.2 hf)]
    exact (dramReadBlock_getD (blockShift_le hc) h.store a).symm

/-- L2's copy of the block and the flat store decide what lies below the L1s. -/
theorem wordBelowL1_congr {h' : Hierarchy} (h2 : h'.l2.copy cfg cfg.l2 a = h.l2.copy cfg cfg.l2 a)
    (hs : h'.store = h.store) : h'.wordBelowL1 cfg a = h.wordBelowL1 cfg a := by
  rw [wordBelowL1_eq hc, wordBelowL1_eq hc, blockBelowL1_blockAddr hc, blockBelowL1_blockAddr hc,
    Cache.dataOver_congr h2 (by rw [hs])]

variable (hi : CachesInv cfg h)
include hi

/-- An absent block filled from below: the side reads the word that lay there (47 R330). -/
theorem installL1_view (hf : (h.l1 k).find cfg (l1Geometry cfg k) a = none) :
    ∃ h', installL1 cfg k h (blockAddr cfg a) (blockBelowL1 cfg h (blockAddr cfg a)) = .next h' ∧
      h'.view cfg k a = h.wordBelowL1 cfg a := by
  have hg := l1Geometry_wf hc k
  have hf' : (h.l1 k).find cfg (l1Geometry cfg k) (blockAddr cfg a) = none := by
    rw [Cache.find_blockAddr hg, hf]
  obtain ⟨w, h', -, hw, he, hl1⟩ := installL1_of_absent hc hi hf' (blockBelowL1 cfg h (blockAddr cfg a))
  refine ⟨h', he, ?_⟩
  have hlen := blockBelowL1_length hi (l2Geometry_wf hc) (blockAddr cfg a)
  have hcopy := Cache.copy_fill hg (hi.l1 k) false hw hf' hlen a
  rw [if_pos (blockAddr_blockAddr a).symm, ← hl1] at hcopy
  rw [view_of_copy hcopy, wordBelowL1_eq hc]

/-- An absent block filled into L2 from the flat store is what lies below the L1s (47 R332). -/
theorem installL2_wordBelowL1 (hf : h.l2.find cfg cfg.l2 a = none) :
    ∃ l2 store, installL2 cfg h (blockAddr cfg a) (dramReadBlock cfg h.store (blockAddr cfg a)) false =
        .next { h with l2 := l2, store := store } ∧
      ({ h with l2 := l2, store := store } : Hierarchy).wordBelowL1 cfg a = h.wordBelowL1 cfg a := by
  have hg := l2Geometry_wf hc
  have hf' : h.l2.find cfg cfg.l2 (blockAddr cfg a) = none := by rw [Cache.find_blockAddr hg, hf]
  obtain ⟨w, store, -, hw, he⟩ :=
    installL2_of_absent hc hi hf' (dramReadBlock cfg h.store (blockAddr cfg a)) false
  refine ⟨_, store, he, ?_⟩
  have hcopy := Cache.copy_fill hg hi.l2 false hw hf' (dramReadBlock_length cfg h.store (blockAddr cfg a)) a
  rw [if_pos (blockAddr_blockAddr a).symm] at hcopy
  rw [wordBelowL1_eq hc, wordBelowL1_eq hc, blockBelowL1_blockAddr hc, blockBelowL1_blockAddr hc,
    Cache.dataOver_of_copy hcopy, Cache.dataOver_of_absent (Cache.copy_eq_none.2 hf)]

end View

/-! ### A queue with one valid entry (47 R321 to R323, R333) -/

/-- Coalescing onto a valid entry for the block leaves the queue. -/
theorem enqueue_of_serves {q : List QueueEntry} {e : QueueEntry} {b : Word} (he : e ∈ q)
    (hs : e.serves b = true) : enqueue q b = q :=
  if_pos (List.any_eq_true.2 ⟨e, he, hs⟩)

/-- A new request stands alone in a queue without a valid entry. -/
theorem enqueue_of_none_valid {q : List QueueEntry} (b : Word) (hq : ∀ e ∈ q, e.valid = false) :
    ∃ l r, enqueue q b = l ++ QueueEntry.request b :: r ∧ ∀ e ∈ l ++ r, e.valid = false := by
  have hany : q.any (·.serves b) = false :=
    List.any_eq_false.2 fun e he => by simp [QueueEntry.serves, hq e he]
  unfold enqueue
  rw [hany, if_neg Bool.false_ne_true]
  split
  · next q' hcl =>
    obtain ⟨l, e, r, rfl, -, rfl⟩ := claimSlot_eq_some hcl
    refine ⟨l, r, rfl, fun x hx => hq x ?_⟩
    rw [List.mem_append] at hx ⊢
    exact hx.imp_right (List.mem_cons_of_mem e)
  · refine ⟨q, _, rfl, fun x hx => ?_⟩
    rcases List.mem_append.1 hx with hx | hx
    · exact hq x hx
    · rw [List.eq_of_mem_replicate hx]; rfl

theorem scanQueue_of_none_valid (cfg : Config) (k : Side) (b : Word) (h : Hierarchy)
    {q : List QueueEntry} (hq : ∀ e ∈ q, e.valid = false) :
    scanQueue cfg k b h q = .next ⟨h, q, false⟩ := by
  induction q with
  | nil => rfl
  | cons e q ih =>
    simp only [scanQueue, advanceEntry_of_invalid (hq e List.mem_cons_self), andThen_next,
      ih fun e' he' => hq e' (List.mem_cons_of_mem e he'), Bool.and_false, Bool.or_false]

/-- The scan of a queue with one valid entry is that entry's advance. -/
theorem scanQueue_of_alone {cfg : Config} {k : Side} {h : Hierarchy} {l r : List QueueEntry}
    {e : QueueEntry} {s : Stepped} (hlr : ∀ x ∈ l ++ r, x.valid = false)
    (hadv : advanceEntry cfg k h e true = .next s) :
    scanQueue cfg k e.addr h (l ++ e :: r) = .next ⟨s.hier, l ++ s.entry :: r, s.finished⟩ := by
  induction l with
  | nil =>
    simp only [List.nil_append, scanQueue, beq_self_eq_true, hadv, andThen_next,
      scanQueue_of_none_valid cfg k e.addr s.hier (q := r) hlr, Bool.true_and, Bool.or_false]
  | cons x l ih =>
    simp only [List.cons_append, scanQueue, advanceEntry_of_invalid (hlr x List.mem_cons_self),
      andThen_next, ih fun y hy => hlr y (List.mem_cons_of_mem x hy), Bool.and_false, Bool.false_or]

/-! ### A request that waits (47 R322, R334) -/

/-- The next call of the request for `a` finds its entry in state `st` with `stall` = `n`, alone valid in
its queue; since `h₀` the side's first-level cache, L2's copy of the block and the flat store stand. -/
structure Waits (cfg : Config) (k : Side) (a : Word) (h₀ : Hierarchy) (st : QueueState) (n : Nat)
    (h : Hierarchy) : Prop where
  inv : CachesInv cfg h
  l1 : h.l1 k = h₀.l1 k
  l2 : h.l2.copy cfg cfg.l2 a = h₀.l2.copy cfg cfg.l2 a
  store : h.store = h₀.store
  alone : ∃ l r, enqueue (h.queue k) (blockAddr cfg a) = l ++ ⟨true, blockAddr cfg a, st, n⟩ :: r ∧
    ∀ e ∈ l ++ r, e.valid = false

/-- The first call with the answer `w` is call `n` (counted from 0); the calls before it answer Pending. -/
def AnswersAt (cfg : Config) (k : Side) (a w : Word) (n : Nat) (h : Hierarchy) : Prop :=
  ∀ i ≤ n, ∃ r, loadAgain cfg k a i h = .next r ∧ r.word = if i = n then some w else none

section Answers
variable {cfg : Config} {k : Side} {a w : Word} {h : Hierarchy}

theorem AnswersAt.zero {r : Loaded} (hl : load cfg k h a = .next r) (hw : r.word = some w) :
    AnswersAt cfg k a w 0 h := by
  intro i hi
  obtain rfl := Nat.le_zero.1 hi
  exact ⟨r, hl, by rw [hw, if_pos rfl]⟩

/-- A Pending call in front. -/
theorem AnswersAt.succ {r : Loaded} {n : Nat} (hl : load cfg k h a = .next r) (hw : r.word = none)
    (hn : AnswersAt cfg k a w n r.hier) : AnswersAt cfg k a w (n + 1) h := by
  intro i hi
  cases i with
  | zero => exact ⟨r, hl, by rw [hw, if_neg (Nat.succ_ne_zero n).symm]⟩
  | succ i =>
    obtain ⟨r', hr', hw'⟩ := hn i (Nat.le_of_succ_le_succ hi)
    refine ⟨r', ?_, by rw [hw']; exact if_congr Nat.succ_inj.symm rfl rfl⟩
    simp only [loadAgain, hl, andThen_next, hr']

end Answers

section Calls
variable {cfg : Config} {k : Side} {a w : Word} {h₀ h h' : Hierarchy} {st st' : QueueState} {n n' m : Nat}

theorem waits_of_none_valid (hi : CachesInv cfg h) (hq : ∀ e ∈ h.queue k, e.valid = false) :
    Waits cfg k a h .notStalled 0 h :=
  ⟨hi, rfl, rfl, rfl, enqueue_of_none_valid _ hq⟩

/-- A call in which the waiting entry finishes answers the word its side reads then. -/
theorem Waits.answers (hw : Waits cfg k a h₀ st n h)
    (hadv : advanceEntry cfg k h ⟨true, blockAddr cfg a, st, n⟩ true =
      .next ⟨h', ⟨false, blockAddr cfg a, st, n⟩, true⟩)
    (hv : h'.view cfg k a = w) : AnswersAt cfg k a w 0 h := by
  obtain ⟨l, r, henq, hlr⟩ := hw.alone
  have hscan := scanQueue_of_alone hlr hadv
  refine AnswersAt.zero (r := ⟨h'.setQueue k (l ++ ⟨false, blockAddr cfg a, st, n⟩ :: r), some w⟩) ?_ rfl
  simp only [load, henq, hscan, andThen_next, if_true, view_setQueue, hv]

/-- A call in which the entry goes on waiting, and what its side will read stands. -/
theorem Waits.pending (hw : Waits cfg k a h₀ st n h)
    (hadv : advanceEntry cfg k h ⟨true, blockAddr cfg a, st, n⟩ true =
      .next ⟨h', ⟨true, blockAddr cfg a, st', n'⟩, false⟩)
    (hi : CachesInv cfg h') (h1 : h'.l1 k = h.l1 k)
    (h2 : h'.l2.copy cfg cfg.l2 a = h.l2.copy cfg cfg.l2 a) (hs : h'.store = h.store)
    (hnext : ∀ h, Waits cfg k a h₀ st' n' h → AnswersAt cfg k a w m h) :
    AnswersAt cfg k a w (m + 1) h := by
  obtain ⟨l, r, henq, hlr⟩ := hw.alone
  have hscan := scanQueue_of_alone hlr hadv
  have hserves : enqueue (l ++ ⟨true, blockAddr cfg a, st', n'⟩ :: r) (blockAddr cfg a) =
      l ++ ⟨true, blockAddr cfg a, st', n'⟩ :: r :=
    enqueue_of_serves (List.mem_append_right l List.mem_cons_self) (by simp [QueueEntry.serves])
  have hwaits : Waits cfg k a h₀ st' n' (h'.setQueue k (l ++ ⟨true, blockAddr cfg a, st', n'⟩ :: r)) := by
    cases k <;>
      exact ⟨⟨hi.l1i, hi.l1d, hi.l2, hi.l1iClean, hi.mshrs, hi.store⟩, h1.trans hw.l1, h2.trans hw.l2,
        hs.trans hw.store, l, r, hserves, hlr⟩
  refine AnswersAt.succ (r := ⟨h'.setQueue k _, none⟩) ?_ rfl (hnext _ hwaits)
  simp only [load, henq, hscan, andThen_next, Bool.false_eq_true, if_false]

/-- A stall count of `n` puts `n` calls in front (47 R325). -/
theorem Waits.countdown (hzero : ∀ h, Waits cfg k a h₀ st 0 h → AnswersAt cfg k a w m h) (n : Nat) :
    ∀ h, Waits cfg k a h₀ st n h → AnswersAt cfg k a w (n + m) h := by
  induction n with
  | zero => rwa [Nat.zero_add]
  | succ n ih =>
    intro h hw
    rw [Nat.add_right_comm]
    exact hw.pending (advanceEntry_of_stalled rfl n.succ_pos) hw.inv rfl rfl rfl ih

end Calls

/-! ### The three kinds of request (47 R326 to R332) -/

theorem allocateMshr_of_free {t : List MshrEntry} (b : Word) (h : ∃ m ∈ t, m.valid = false) :
    ∃ t', allocateMshr t b = some t' := by
  induction t with
  | nil => obtain ⟨m, hm, -⟩ := h; cases hm
  | cons e t ih =>
    cases hv : e.valid with
    | false => exact ⟨⟨true, false, b⟩ :: t, by simp [allocateMshr, hv]⟩
    | true =>
      obtain ⟨m, hm, hmv⟩ := h
      have hmem : m ∈ t := by
        rcases List.mem_cons.1 hm with rfl | hm
        · rw [hv] at hmv; cases hmv
        · exact hm
      obtain ⟨t', ht'⟩ := ih ⟨m, hmem, hmv⟩
      exact ⟨e :: t', by simp [allocateMshr, hv, ht']⟩

section Kinds
variable {cfg : Config} (hc : cfg.wf = true) {k : Side} {a : Word} {h₀ h : Hierarchy}
include hc

/-- A block the side's first-level cache holds is answered at once (R326). -/
theorem Waits.of_l1Hit (hw : Waits cfg k a h₀ .notStalled 0 h)
    (hf : (h.l1 k).find cfg (l1Geometry cfg k) a ≠ none) : AnswersAt cfg k a (h.view cfg k a) 0 h := by
  have hg := l1Geometry_wf hc k
  obtain ⟨v, hf⟩ := Option.ne_none_iff_exists'.1 hf
  have hfb : (h.l1 k).find cfg (l1Geometry cfg k) (blockAddr cfg a) = some v := by
    rw [Cache.find_blockAddr hg, hf]
  refine hw.answers (h' := h.setL1 k ((h.l1 k).touch cfg (l1Geometry cfg k) (blockAddr cfg a) v)) ?_ ?_
  · rw [advanceEntry_of_ready rfl rfl]
    simp only [stepEntry, stepNotStalled, hfb]
  · have hcopy : (h.l1 k).copy cfg (l1Geometry cfg k) a =
        some (((h.l1 k).block cfg (l1Geometry cfg k) a v).data,
          ((h.l1 k).block cfg (l1Geometry cfg k) a v).dirty) := by rw [Cache.copy, hf, Option.map_some]
    have htouch := Cache.copy_touch hg (hw.inv.l1 k) (CacheInv.find_lt (hw.inv.l1 k) hfb) a
    rw [view_of_copy hcopy]
    exact view_of_copy (by rw [Hierarchy.l1_setL1, htouch, hcopy])

variable (hf : (h₀.l1 k).find cfg (l1Geometry cfg k) a = none)
include hf

omit hc in
theorem Waits.l1_absent {st : QueueState} {n : Nat} (hw : Waits cfg k a h₀ st n h) :
    (h.l1 k).find cfg (l1Geometry cfg k) a = none := by
  rw [hw.l1, hf]

/-- What lies below the L1s is the word the side read at the start. -/
theorem Waits.wordBelowL1 {st : QueueState} {n : Nat} (hw : Waits cfg k a h₀ st n h) :
    h.wordBelowL1 cfg a = h₀.view cfg k a := by
  rw [view_of_absent hf, wordBelowL1_congr hc hw.l2 hw.store]

/-- The L1 fill from L2 answers (R330). -/
theorem Waits.of_l2cHit (hw : Waits cfg k a h₀ .stalledOnL2cHit 0 h) :
    AnswersAt cfg k a (h₀.view cfg k a) 0 h := by
  obtain ⟨h', hins, hview⟩ := installL1_view hc hw.inv (hw.l1_absent hf)
  refine hw.answers (h' := h') ?_ (hview.trans (hw.wordBelowL1 hc hf))
  rw [advanceEntry_of_ready rfl rfl]
  simp only [stepEntry, stepL2cHit, hins, andThen_next]

/-- A block L2 holds is answered `L2_HIT_LATENCY` + 1 calls later (R327). -/
theorem Waits.of_l2Hit (hw : Waits cfg k a h₀ .notStalled 0 h) (hf2 : h.l2.find cfg cfg.l2 a ≠ none) :
    AnswersAt cfg k a (h₀.view cfg k a) (cfg.l2HitLatency + 1) h := by
  have hg2 := l2Geometry_wf hc
  obtain ⟨v, hf2⟩ := Option.ne_none_iff_exists'.1 hf2
  have hf1b : (h.l1 k).find cfg (l1Geometry cfg k) (blockAddr cfg a) = none := by
    rw [Cache.find_blockAddr (l1Geometry_wf hc k), hw.l1_absent hf]
  have hf2b : h.l2.find cfg cfg.l2 (blockAddr cfg a) = some v := by rw [Cache.find_blockAddr hg2, hf2]
  have hv := hw.inv.l2.find_lt hf2b
  refine hw.pending (h' := { h with l2 := h.l2.touch cfg cfg.l2 (blockAddr cfg a) v })
    (st' := .stalledOnL2cHit) (n' := cfg.l2HitLatency) ?_ (hw.inv.setL2 (hw.inv.l2.touch hg2 hv) hw.inv.store)
    (by cases k <;> rfl) (Cache.copy_touch hg2 hw.inv.l2 hv a) rfl ?_
  · rw [advanceEntry_of_ready rfl rfl]
    simp only [stepEntry, stepNotStalled, hf1b, hf2b]
  · exact Waits.countdown (fun _ hw => hw.of_l2cHit hc hf) _

variable (hf2 : h₀.l2.find cfg cfg.l2 a = none)
include hf2

omit hc hf in
theorem Waits.l2_absent {st : QueueState} {n : Nat} (hw : Waits cfg k a h₀ st n h) :
    h.l2.find cfg cfg.l2 a = none :=
  Cache.copy_eq_none.1 (hw.l2.trans (Cache.copy_eq_none.2 hf2))

/-- The L2 fill from the flat store and the L1 fill from L2 answer (R332). -/
theorem Waits.of_dramResponse (hw : Waits cfg k a h₀ .stalledOnDramResponse 0 h) :
    AnswersAt cfg k a (h₀.view cfg k a) 0 h := by
  obtain ⟨l2, store, hins2, hbelow⟩ := installL2_wordBelowL1 hc hw.inv (hw.l2_absent hf2)
  have hi2 := (installL2_mshr hc hw.inv (dramReadBlock_length _ _ _) hins2).1.setMshr
    (t := releaseMshr h.mshr (blockAddr cfg a)) (by simp [releaseMshr])
  have hf1 := hw.l1_absent hf
  obtain ⟨h', hins1, hview⟩ := installL1_view hc hi2 (k := k) (a := a) (by cases k <;> exact hf1)
  refine hw.answers (h' := h') ?_ ((hview.trans hbelow).trans (hw.wordBelowL1 hc hf))
  rw [advanceEntry_of_ready rfl rfl]
  simp only [stepEntry, stepDramResponse, hins2, hins1, andThen_next, if_true]

/-- An entry that accesses DRAM goes on to wait for the response (R331). -/
theorem Waits.of_dramAccess (hw : Waits cfg k a h₀ .stalledOnDram 0 h) :
    AnswersAt cfg k a (h₀.view cfg k a) (cfg.dramToL2cLatency + 1) h := by
  refine hw.pending (advanceEntry_of_dramAccess rfl rfl rfl) (hw.inv.setMshr (by simp [markMshrDone]))
    (by cases k <;> rfl) rfl rfl (Waits.countdown (fun _ hw => hw.of_dramResponse hc hf hf2) _)

/-- An entry that waits to reach DRAM goes on to access it (R329). -/
theorem Waits.of_dramRequest (hw : Waits cfg k a h₀ .stalledOnDramRequest 0 h) :
    AnswersAt cfg k a (h₀.view cfg k a) (cfg.dramAccessLatency + (cfg.dramToL2cLatency + 1) + 1) h :=
  hw.pending (advanceEntry_of_dramRequest rfl rfl rfl) hw.inv rfl rfl rfl
    (Waits.countdown (fun _ hw => hw.of_dramAccess hc hf hf2) _)

/-- A block no cache holds is fetched from DRAM once a miss-status entry is taken (R328). -/
theorem Waits.of_miss (hw : Waits cfg k a h₀ .notStalled 0 h)
    (hnone : ∀ m ∈ h.mshr, m.holds (blockAddr cfg a) = false) (hfree : ∃ m ∈ h.mshr, m.valid = false) :
    AnswersAt cfg k a (h₀.view cfg k a)
      (cfg.l2ToDramLatency + (cfg.dramAccessLatency + (cfg.dramToL2cLatency + 1) + 1) + 1) h := by
  have hf1b : (h.l1 k).find cfg (l1Geometry cfg k) (blockAddr cfg a) = none := by
    rw [Cache.find_blockAddr (l1Geometry_wf hc k), hw.l1_absent hf]
  have hf2b : h.l2.find cfg cfg.l2 (blockAddr cfg a) = none := by
    rw [Cache.find_blockAddr (l2Geometry_wf hc), hw.l2_absent hf2]
  have hany : h.mshr.any (·.holds (blockAddr cfg a)) = false := by simpa using hnone
  obtain ⟨t, ht⟩ := allocateMshr_of_free (blockAddr cfg a) hfree
  refine hw.pending (h' := { h with mshr := t }) (st' := .stalledOnDramRequest)
    (n' := cfg.l2ToDramLatency) ?_ (hw.inv.setMshr (allocateMshr_length ht)) (by cases k <;> rfl) rfl rfl
    (Waits.countdown (fun _ hw => hw.of_dramRequest hc hf hf2) _)
  rw [advanceEntry_of_ready rfl rfl]
  simp only [stepEntry, stepNotStalled, hf1b, hf2b, hany, ht, Bool.false_eq_true, if_false]

end Kinds

/-- Settles O48: the entry's states one after the other, each with its stall count; the first-level cache, the
block's copy in L2 and the flat store stand until the fill. -/
theorem requestLatenciesAreExact : Obligations.RequestLatenciesAreExact := by
  intro cfg k h a hc hi hq
  have hw := waits_of_none_valid (a := a) hi hq
  refine ⟨fun hf => hw.of_l1Hit hc hf 0 le_rfl, fun hf hf2 => hw.of_l2Hit hc hf hf2,
    fun hf hf2 hnone hfree => ?_⟩
  have hsum : cfg.l2ToDramLatency + cfg.dramAccessLatency + cfg.dramToL2cLatency + 3 =
      cfg.l2ToDramLatency + (cfg.dramAccessLatency + (cfg.dramToL2cLatency + 1) + 1) + 1 := by omega
  rw [hsum]
  exact hw.of_miss hc hf hf2 hnone hfree

end Sys2Proof.Machine
end

section
/-! PROOFS. Arithmetic, logic, shifts, comparisons, multiply, divide and the HI/LO moves (48 R402 to R438): what
execute computes of the operands, and what becomes of the Op it moves to ME (O9 to O17, O19). -/

namespace Sys2Proof.Machine

/-! ### What an Op of a plain register operation comes to (43 R172 to R178) -/

/-- Only SYSCALL's word carries SYSCALL's sub-opcode (30 R96, R97). -/
theorem subopOf_encode_of_ne_syscall {i : Instr} (h : i ≠ .syscall) : subopOf (encode i) ≠ 0x0C#6 := by
  cases i with
  | syscall => exact absurd rfl h
  | _ => simp [encode, subopOf]

/-- A plain register operation is no branch: with ME free, execute moves what `Compute` makes of the Op and of
the ticked state (43 R186). -/
theorem executeAs_of_aluClass {i : Instr} {compute : Op → State → Op × State} {s t : State} {op m : Op}
    {a b d : Option Reg} (hx : s.Executes op) (hc : classOf i = aluClass a b d)
    (hr : readsHiLo i = true → s.mduBusy = 0)
    (hm : compute (s.withOperands (op.readAs i)) s.tickMdu = (m, t))
    (hb : m.isBranch = (classOf i).isBranch) :
    executeAs i compute s = .next (t.moveToMem m) := by
  rw [executeAs_consumes hx hr, hm, State.resolveBranch_of_not_branch _ (by rw [hb, hc]; rfl)]

/-- A plain register operation whose `Compute` is a function of the two source values delivers it (43 R172). -/
theorem exec_delivers {i : Instr} {f : Word → Word → Word} {s : State} {op : Op} {a b : Option Reg} {rd : Reg}
    {v : Word} (hx : s.Executes op) (hc : classOf i = aluClass a b (some rd)) (hr : readsHiLo i = false)
    (he : exec i s = executeAs i (inOp fun op => op.result (f op.src1Val op.src2Val)) s)
    (hv : f (s.withOperands (op.readAs i)).src1Val (s.withOperands (op.readAs i)).src2Val = v) :
    ∃ m, exec i s = .next (s.tickMdu.moveToMem m) ∧ m.Delivers rd v := by
  have hsub : i ≠ .syscall := by rintro rfl; cases hc
  refine ⟨(s.withOperands (op.readAs i)).result v, ?_, Op.delivers ?_ rfl rfl ?_
    (Op.notHalt_of_subop (subopOf_encode_of_ne_syscall hsub))⟩
  · rw [he]
    exact executeAs_of_aluClass hx hc (fun h => by rw [hr] at h; cases h) (by rw [inOp, hv]) rfl
  · exact congrArg OperandClass.dst hc
  · exact congrArg OperandClass.isMem hc

/-- A plain register operation without destination, whose `Compute` leaves the Op and makes `t` of the state,
delivers nothing (43 R173, R178). -/
theorem exec_deliversNothing {i : Instr} {g : Word → Word → State → State} {s t : State} {op : Op}
    {a b : Option Reg} (hx : s.Executes op) (hc : classOf i = aluClass a b none) (hr : readsHiLo i = false)
    (hi : i ≠ .syscall) (he : exec i s = executeAs i (fun op s => (op, g op.src1Val op.src2Val s)) s)
    (ht : g (s.withOperands (op.readAs i)).src1Val (s.withOperands (op.readAs i)).src2Val s.tickMdu = t) :
    ∃ m, exec i s = .next (t.moveToMem m) ∧ m.DeliversNothing := by
  refine ⟨s.withOperands (op.readAs i), ?_, Op.deliversNothing ?_ ?_
    (Op.notHalt_of_subop (subopOf_encode_of_ne_syscall hi))⟩
  · rw [he]
    exact executeAs_of_aluClass hx hc (fun h => by rw [hr] at h; cases h) (by rw [ht]) rfl
  · exact congrArg OperandClass.dst hc
  · exact congrArg OperandClass.isMem hc

/-! ### Shifts (48 R402 to R407) -/

/-- The low five bits as a number (48 R405). -/
theorem shiftAmount_eq (v : Word) : shiftAmount v = v.toNat % 32 := by
  simp [shiftAmount]

/-- Settles O9: each shift as a function of rt. -/
theorem shiftsByAConstantComplete : Obligations.ShiftsByAConstantComplete := by
  intro s op rd rt shamt hx
  exact ⟨exec_delivers (f := fun _ w => shiftLeft w shamt.toNat) hx rfl rfl rfl rfl,
    exec_delivers (f := fun _ w => shiftRight w shamt.toNat) hx rfl rfl rfl rfl,
    exec_delivers (f := fun _ w => shiftRightArith w shamt.toNat) hx rfl rfl rfl rfl⟩

/-- Settles O10: the amount is that of rs modulo 32. -/
theorem shiftsByARegisterComplete : Obligations.ShiftsByARegisterComplete := by
  intro s op rd rt rs hx
  rw [← shiftAmount_eq]
  exact ⟨exec_delivers (f := fun v w => shiftLeft w (shiftAmount v)) hx rfl rfl rfl rfl,
    exec_delivers (f := fun v w => shiftRight w (shiftAmount v)) hx rfl rfl rfl rfl,
    exec_delivers (f := fun v w => shiftRightArith w (shiftAmount v)) hx rfl rfl rfl rfl⟩

/-! ### Arithmetic and logic (48 R410 to R417, R420 to R427) -/

/-- Settles O11: the sum and the difference of words wrap. -/
theorem addAndSubtractComplete : Obligations.AddAndSubtractComplete := by
  intro s op rd rs rt hx
  exact ⟨exec_delivers (f := (· + ·)) hx rfl rfl rfl rfl, exec_delivers (f := (· + ·)) hx rfl rfl rfl rfl,
    exec_delivers (f := (· - ·)) hx rfl rfl rfl rfl, exec_delivers (f := (· - ·)) hx rfl rfl rfl rfl⟩

/-- Settles O12: each bitwise operation as a function of rs and rt. -/
theorem logicComplete : Obligations.LogicComplete := by
  intro s op rd rs rt hx
  exact ⟨exec_delivers (f := (· &&& ·)) hx rfl rfl rfl rfl, exec_delivers (f := (· ||| ·)) hx rfl rfl rfl rfl,
    exec_delivers (f := (· ^^^ ·)) hx rfl rfl rfl rfl,
    exec_delivers (f := fun v w => ~~~(v ||| w)) hx rfl rfl rfl rfl⟩

/-- Settles O14: each operation as a function of rs, its immediate extended; LUI ignores rs. -/
theorem immediateArithmeticAndLogicComplete : Obligations.ImmediateArithmeticAndLogicComplete := by
  intro s op rt rs imm hx
  exact ⟨exec_delivers (f := fun v _ => v + sext16 imm) hx rfl rfl rfl rfl,
    exec_delivers (f := fun v _ => v + sext16 imm) hx rfl rfl rfl rfl,
    exec_delivers (f := fun v _ => v &&& zext16 imm) hx rfl rfl rfl rfl,
    exec_delivers (f := fun v _ => v ||| zext16 imm) hx rfl rfl rfl rfl,
    exec_delivers (f := fun v _ => v ^^^ zext16 imm) hx rfl rfl rfl rfl,
    exec_delivers (f := fun _ _ => upperImmediate imm) hx rfl rfl rfl rfl⟩

/-! ### Comparisons (48 R418, R419, R422, R423) -/

theorem wordOfBool_lessSigned (v w : Word) :
    wordOfBool (lessSigned v w) = if v.toInt < w.toInt then 1 else 0 := by
  simp [wordOfBool, lessSigned]

theorem wordOfBool_lessUnsigned (v w : Word) :
    wordOfBool (lessUnsigned v w) = if v.toNat < w.toNat then 1 else 0 := by
  simp [wordOfBool, lessUnsigned]

/-- Sign extension keeps the signed value of the immediate (00 R9). -/
theorem toInt_sext16 (imm : BitVec 16) : (sext16 imm).toInt = imm.toInt :=
  BitVec.toInt_signExtend_of_le (by decide)

/-- Settles O13: the comparisons as functions of rs and rt, or of rs and the extended immediate. -/
theorem setOnLessThanComplete : Obligations.SetOnLessThanComplete := by
  intro s op rd rs rt imm hx
  have hsigned : wordOfBool (lessSigned (s.operand rs) (sext16 imm)) =
      if (s.operand rs).toInt < imm.toInt then 1 else 0 := by
    rw [wordOfBool_lessSigned, toInt_sext16]
  exact ⟨exec_delivers (f := fun v w => wordOfBool (lessSigned v w)) hx rfl rfl rfl
      (wordOfBool_lessSigned _ _),
    exec_delivers (f := fun v w => wordOfBool (lessUnsigned v w)) hx rfl rfl rfl
      (wordOfBool_lessUnsigned _ _),
    exec_delivers (f := fun v _ => wordOfBool (lessSigned v (sext16 imm))) hx rfl rfl rfl hsigned,
    exec_delivers (f := fun v _ => wordOfBool (lessUnsigned v (sext16 imm))) hx rfl rfl rfl
      (wordOfBool_lessUnsigned _ _)⟩

/-! ### Multiply and divide (48 R431 to R434) -/

/-- Settles O15: HI and LO are the two words of the product. -/
theorem multiplyCompletes : Obligations.MultiplyCompletes := by
  intro s op rs rt hx
  exact ⟨exec_deliversNothing (g := fun v w s =>
      s.writeHiLo (highWord (signedProduct v w)) (lowWord (signedProduct v w)) multLatency)
      hx rfl rfl nofun rfl rfl,
    exec_deliversNothing (g := fun v w s =>
      s.writeHiLo (highWord (unsignedProduct v w)) (lowWord (unsignedProduct v w)) multLatency)
      hx rfl rfl nofun rfl rfl⟩

theorem signedQuotient_zero (v : Word) : signedQuotient v 0 = 0 := by
  simp [signedQuotient]

theorem signedRemainder_zero (v : Word) : signedRemainder v 0 = 0 := if_pos rfl

/-- The remainder that truncated division leaves. -/
theorem signedRemainder_of_ne {w : Word} (h : w ≠ 0) (v : Word) :
    signedRemainder v w = BitVec.ofInt 32 (v.toInt.tmod w.toInt) := by
  rw [signedRemainder, if_neg h, Int.tmod_def, Int.mul_comm]

theorem unsignedQuotient_zero (v : Word) : unsignedQuotient v 0 = 0 := by
  simp [unsignedQuotient]

theorem unsignedRemainder_zero (v : Word) : unsignedRemainder v 0 = 0 := if_pos rfl

theorem unsignedQuotient_eq_div (v w : Word) : unsignedQuotient v w = v / w :=
  (BitVec.udiv_def ..).symm

theorem unsignedRemainder_of_ne {w : Word} (h : w ≠ 0) (v : Word) : unsignedRemainder v w = v % w := by
  rw [unsignedRemainder, if_neg h, BitVec.umod_def]

/-- What DIV makes of HI and LO, by its divisor (48 R433, 43 R175). -/
theorem writeHiLo_signed (s : State) (v w : Word) :
    s.tickMdu.writeHiLo (signedRemainder v w) (signedQuotient v w) divLatency =
      if w = 0 then { s with hi := 0, lo := 0, mduBusy := 32 }
      else
        { s with
          hi := BitVec.ofInt 32 (v.toInt.tmod w.toInt)
          lo := BitVec.ofInt 32 (v.toInt.tdiv w.toInt)
          mduBusy := 32 } := by
  by_cases hw : w = 0
  · rw [if_pos hw, hw, signedRemainder_zero, signedQuotient_zero]; rfl
  · rw [if_neg hw, signedRemainder_of_ne hw]; rfl

/-- What DIVU makes of HI and LO, by its divisor (48 R434, 43 R175). -/
theorem writeHiLo_unsigned (s : State) (v w : Word) :
    s.tickMdu.writeHiLo (unsignedRemainder v w) (unsignedQuotient v w) divLatency =
      if w = 0 then { s with hi := 0, lo := 0, mduBusy := 32 }
      else { s with hi := v % w, lo := v / w, mduBusy := 32 } := by
  by_cases hw : w = 0
  · rw [if_pos hw, hw, unsignedRemainder_zero, unsignedQuotient_zero]; rfl
  · rw [if_neg hw, unsignedRemainder_of_ne hw, unsignedQuotient_eq_div]; rfl

/-- Settles O16: HI and LO are remainder and quotient, which the model makes 0 for a zero divisor. -/
theorem divideCompletesAlsoByZero : Obligations.DivideCompletesAlsoByZero := by
  intro s op rs rt hx
  exact ⟨exec_deliversNothing (g := fun v w s =>
      s.writeHiLo (signedRemainder v w) (signedQuotient v w) divLatency)
      hx rfl rfl nofun rfl (writeHiLo_signed s _ _),
    exec_deliversNothing (g := fun v w s =>
      s.writeHiLo (unsignedRemainder v w) (unsignedQuotient v w) divLatency)
      hx rfl rfl nofun rfl (writeHiLo_unsigned s _ _)⟩

/-! ### The HI/LO moves (48 R435 to R438) -/

/-- Settles O17: with the countdown at 0 neither move waits. -/
theorem moveFromHiLoCompletesWhenNotBusy : Obligations.MoveFromHiLoCompletesWhenNotBusy := by
  intro s op rd hx hb
  exact ⟨executeAs_moveFrom (i := .mfhi rd) (v := State.hi) hx hb rfl (subopOf_encode_of_ne_syscall nofun),
    executeAs_moveFrom (i := .mflo rd) (v := State.lo) hx hb rfl (subopOf_encode_of_ne_syscall nofun)⟩

/-- Settles O19: each move writes its one register over the ticked state. -/
theorem moveToHiLoCompletes : Obligations.MoveToHiLoCompletes := by
  intro s op rs hx
  exact ⟨exec_deliversNothing (g := fun v _ s => s.writeHi v) hx rfl rfl nofun rfl rfl,
    exec_deliversNothing (g := fun v _ s => s.writeLo v) hx rfl rfl nofun rfl rfl⟩

end Sys2Proof.Machine
end

section
/-! PROOFS. Loads, stores, branches, jumps and SYSCALL (49 R460 to R495): what execute writes into the Op it
moves to ME, and what becomes of that Op (O20, O21, O25 to O28). -/

namespace Sys2Proof.Machine

/-! ### The operands of an Op read as an instruction (43 R165) -/

theorem State.withOperands_src1Val {s : State} {op : Op} {i : Instr} {r : Reg}
    (h : (classOf i).src1 = some r) :
    (s.withOperands (op.readAs i)).src1Val = s.operand r := by
  simp only [State.withOperands, Op.readAs, Op.classify, h]

theorem State.withOperands_src2Val {s : State} {op : Op} {i : Instr} {r : Reg}
    (h : (classOf i).src2 = some r) :
    (s.withOperands (op.readAs i)).src2Val = s.operand r := by
  simp only [State.withOperands, Op.readAs, Op.classify, h]

/-- Neither MFHI and MFLO nor SYSCALL is a memory access or a branch (30 R100). -/
theorem readsHiLo_subopOf_of_class {i : Instr} (h : (classOf i).isMem = true ∨ (classOf i).isBranch = true) :
    readsHiLo i = false ∧ subopOf (encode i) ≠ 0x0C#6 := by
  constructor
  · cases i with
    | mfhi | mflo => simp [classOf, aluClass] at h
    | _ => rfl
  · apply subopOf_encode_of_ne_syscall
    rintro rfl
    simp [classOf, aluClass] at h

/-! ### Loads (49 R461 to R465, 42 R145, R146) -/

section Extract
variable (a w : Word)

theorem extractWord_lb :
    extractWord 0x20 a w = (w.extractLsb' (8 * (a.toNat % 4)) 8).signExtend 32 := by
  rw [← byteIndex_eq]; rfl

theorem extractWord_lbu :
    extractWord 0x24 a w = (w.extractLsb' (8 * (a.toNat % 4)) 8).zeroExtend 32 := by
  rw [← byteIndex_eq]; rfl

theorem extractWord_lh :
    extractWord 0x21 a w = (w.extractLsb' (16 * (a.toNat / 2 % 2)) 16).signExtend 32 := by
  rw [← halfIndex_eq]; rfl

theorem extractWord_lhu :
    extractWord 0x25 a w = (w.extractLsb' (16 * (a.toNat / 2 % 2)) 16).zeroExtend 32 := by
  rw [← halfIndex_eq]; rfl

theorem extractWord_lw : extractWord 0x23 a w = w := rfl

end Extract

/-- Execute of a load writes the effective address into the Op it moves, which mem completes with the slice
that the opcode selects (43 R174, 42 R146). -/
theorem exec_loadsInto {i : Instr} {s : State} {op : Op} {rt rs : Reg} {off : BitVec 16} {o : BitVec 6}
    {f : Word → Word} (hx : s.Executes op) (hc : classOf i = loadClass rs rt) (ho : opField (encode i) = o)
    (he : exec i s = executeAs i (inOp fun op => op.address (effectiveAddress op.src1Val off)) s)
    (hf : ∀ w, extractWord o (effectiveAddress (s.operand rs) off) w = f w) :
    ∃ m, exec i s = .next (s.tickMdu.moveToMem m) ∧
      m.LoadsInto rt (effectiveAddress (s.operand rs) off) f := by
  have hmem : (classOf i).isMem = true := congrArg OperandClass.isMem hc
  obtain ⟨hr, hsub⟩ := readsHiLo_subopOf_of_class (.inl hmem)
  have hsrc : (s.withOperands (op.readAs i)).src1Val = s.operand rs :=
    State.withOperands_src1Val (by rw [hc]; rfl)
  refine ⟨_, he.trans (executeAs_inOp hx hr (congrArg OperandClass.isBranch hc)), ?_⟩
  exact Op.loadsInto (congrArg OperandClass.dst hc) (by rw [← hsrc]; rfl) hmem
    (congrArg OperandClass.memWrite hc) (by rw [← ho] at hf; exact hf)
    (Op.notHalt_of_subop hsub)

/-- Settles O20: each load's slice by its opcode. -/
theorem loadsComplete : Obligations.LoadsComplete := by
  intro s op rt off rs hx
  exact ⟨exec_loadsInto hx rfl (opField_iWord ..) rfl (extractWord_lb _),
    exec_loadsInto hx rfl (opField_iWord ..) rfl (extractWord_lbu _),
    exec_loadsInto hx rfl (opField_iWord ..) rfl (extractWord_lh _),
    exec_loadsInto hx rfl (opField_iWord ..) rfl (extractWord_lhu _),
    exec_loadsInto hx rfl (opField_iWord ..) rfl (extractWord_lw _)⟩

/-! ### Stores (49 R467 to R469, 42 R145, R147) -/

section Merge
variable (a w v : Word)

theorem mergeWord_sb : mergeWord 0x28 a w v = replaceByte w (a.toNat % 4) (v.extractLsb' 0 8) := by
  rw [← byteIndex_eq]; rfl

theorem mergeWord_sh : mergeWord 0x29 a w v = replaceHalf w (a.toNat / 2 % 2) (v.extractLsb' 0 16) := by
  rw [← halfIndex_eq]; rfl

theorem mergeWord_sw : mergeWord 0x2B a w v = v := rfl

end Merge

/-- Execute of a store writes the effective address and the value into the Op it moves, whose merge mem stores
(43 R174, 42 R147). -/
theorem exec_storesTo {i : Instr} {s : State} {op : Op} {rt rs : Reg} {off : BitVec 16} {o : BitVec 6}
    {f : Word → Word} (hx : s.Executes op) (hc : classOf i = storeClass rs rt) (ho : opField (encode i) = o)
    (he : exec i s =
      executeAs i (inOp fun op => op.storeAt (effectiveAddress op.src1Val off) op.src2Val) s)
    (hf : ∀ w, mergeWord o (effectiveAddress (s.operand rs) off) w (s.operand rt) = f w) :
    ∃ m, exec i s = .next (s.tickMdu.moveToMem m) ∧
      m.StoresTo (effectiveAddress (s.operand rs) off) f := by
  have hmem : (classOf i).isMem = true := congrArg OperandClass.isMem hc
  obtain ⟨hr, hsub⟩ := readsHiLo_subopOf_of_class (.inl hmem)
  have hsrc1 : (s.withOperands (op.readAs i)).src1Val = s.operand rs :=
    State.withOperands_src1Val (by rw [hc]; rfl)
  have hsrc2 : (s.withOperands (op.readAs i)).src2Val = s.operand rt :=
    State.withOperands_src2Val (by rw [hc]; rfl)
  refine ⟨_, he.trans (executeAs_inOp hx hr (congrArg OperandClass.isBranch hc)), ?_⟩
  exact Op.storesTo (congrArg OperandClass.dst hc) (by rw [← hsrc1]; rfl) hmem
    (congrArg OperandClass.memWrite hc) (by rw [← ho, ← hsrc2] at hf; exact hf)
    (Op.notHalt_of_subop hsub)

/-- Settles O21: each store's merge by its opcode. -/
theorem storesComplete : Obligations.StoresComplete := by
  intro s op rt off rs hx
  exact ⟨exec_storesTo hx rfl (opField_iWord ..) rfl fun w => mergeWord_sb _ w _,
    exec_storesTo hx rfl (opField_iWord ..) rfl fun w => mergeWord_sh _ w _,
    exec_storesTo hx rfl (opField_iWord ..) rfl fun w => mergeWord_sw _ w _⟩

/-! ### Branches and jumps (49 R475 to R487) -/

/-- The class of a branch or jump (30 R100): `branchClass` when conditional, `jumpClass` when not. -/
def controlClass (src1 src2 dst : Option Reg) (cond : Bool) : OperandClass :=
  ⟨src1, src2, dst, false, false, true, cond⟩

/-- Execute of a branch or jump resolves the Op it moves (43 R179 to R187), which neither accesses memory
nor halts. -/
theorem exec_branchMoves {i : Instr} {f : Op → Op} {s : State} {op m : Op} {a b rd : Option Reg}
    {taken cond : Bool} {dest : Word} (hx : s.Executes op) (hc : classOf i = controlClass a b rd cond)
    (he : exec i s = executeAs i (inOp f) s) (hm : f (s.withOperands (op.readAs i)) = m)
    (hk : m.ComesFrom op i) (ht : m.branchTaken = taken) (hd : m.branchDest = dest) :
    (m.dst = rd ∧ m.isMem = false ∧ m.isHaltSyscall = false) ∧
      ∃ t, exec i s = .next t ∧ BranchMoves s t op m taken dest cond := by
  have hbr : (classOf i).isBranch = true := congrArg OperandClass.isBranch hc
  obtain ⟨hr, hsub⟩ := readsHiLo_subopOf_of_class (.inr hbr)
  refine ⟨⟨hk.dst.trans (congrArg OperandClass.dst hc), hk.isMem.trans (congrArg OperandClass.isMem hc),
    Op.notHalt_of_subop (hk.subop ▸ hsub)⟩, _,
    he.trans (executeAs_consumes hx (fun e => absurd (hr.symm.trans e) Bool.false_ne_true)), ?_⟩
  simp only [inOp, hm]
  exact branchMoves_of_resolve (hk.isBranch.trans hbr)
    (hk.branchCond.trans (congrArg OperandClass.branchCond hc)) ht hd hk.pc hk.predIsBranch hk.predTaken
    hk.predDest

/-- A branch or jump without a destination register, taken by `c` of its sources, to `d` of its address and
rs. -/
theorem exec_branch {i : Instr} {c : Word → Word → Bool} {d : Word → Word → Word} {s : State} {op : Op}
    {a b : Option Reg} {taken cond : Bool} {dest : Word} (hx : s.Executes op)
    (hc : classOf i = controlClass a b none cond)
    (he : exec i s = executeAs i (inOp fun op => op.branch (c op.src1Val op.src2Val) (d op.pc op.src1Val)) s)
    (ht : c (s.withOperands (op.readAs i)).src1Val (s.withOperands (op.readAs i)).src2Val = taken)
    (hd : d op.pc (s.withOperands (op.readAs i)).src1Val = dest) :
    ∃ t m, exec i s = .next t ∧ m.DeliversNothing ∧ BranchMoves s t op m taken dest cond := by
  obtain ⟨⟨hdst, hmem, hhalt⟩, t, hexec, hmoves⟩ := exec_branchMoves hx hc he rfl
    ⟨rfl, rfl, rfl, rfl, rfl, rfl, rfl, rfl, rfl, rfl, rfl, rfl⟩ ht hd
  exact ⟨t, _, hexec, Op.deliversNothing hdst hmem hhalt, hmoves⟩

/-- A branch or jump that links `pc + 4`, taken or not (43 R184). -/
theorem exec_branchLinking {i : Instr} {c : Word → Bool} {d : Word → Word → Word} {s : State} {op : Op}
    {a b : Option Reg} {taken cond : Bool} {dest : Word} {rd : Reg} (hx : s.Executes op)
    (hc : classOf i = controlClass a b (some rd) cond)
    (he : exec i s =
      executeAs i (inOp fun op => (op.branch (c op.src1Val) (d op.pc op.src1Val)).result (nextSeq op.pc)) s)
    (ht : c (s.withOperands (op.readAs i)).src1Val = taken)
    (hd : d op.pc (s.withOperands (op.readAs i)).src1Val = dest) :
    ∃ t m, exec i s = .next t ∧ m.Delivers rd (nextSeq op.pc) ∧ BranchMoves s t op m taken dest cond := by
  obtain ⟨⟨hdst, hmem, hhalt⟩, t, hexec, hmoves⟩ := exec_branchMoves hx hc he rfl
    ⟨rfl, rfl, rfl, rfl, rfl, rfl, rfl, rfl, rfl, rfl, rfl, rfl⟩ ht hd
  exact ⟨t, _, hexec, Op.delivers hdst rfl rfl hmem hhalt, hmoves⟩

theorem condNe_eq_decide (v w : Word) : condNe v w = decide (v ≠ w) :=
  (decide_not (p := v = w)).symm

/-- Settles O25: each branch by its condition on rs and rt; the destination depends on the Op's address only. -/
theorem conditionalBranchesComplete : Obligations.ConditionalBranchesComplete := by
  intro s op rs rt off hx
  exact ⟨exec_branch (c := condEq) (d := fun pc _ => branchTarget pc off) hx rfl rfl rfl rfl,
    exec_branch (c := condNe) (d := fun pc _ => branchTarget pc off) hx rfl rfl (condNe_eq_decide _ _) rfl,
    exec_branch (c := fun v _ => condLez v) (d := fun pc _ => branchTarget pc off) hx rfl rfl rfl rfl,
    exec_branch (c := fun v _ => condGtz v) (d := fun pc _ => branchTarget pc off) hx rfl rfl rfl rfl,
    exec_branch (c := fun v _ => condLtz v) (d := fun pc _ => branchTarget pc off) hx rfl rfl rfl rfl,
    exec_branch (c := fun v _ => condGez v) (d := fun pc _ => branchTarget pc off) hx rfl rfl rfl rfl⟩

/-- Settles O26: the link is a result of the Op, so it is delivered taken or not. -/
theorem linkingBranchesComplete : Obligations.LinkingBranchesComplete := by
  intro s op rs off hx
  exact ⟨exec_branchLinking (c := condLtz) (d := fun pc _ => branchTarget pc off) hx rfl rfl rfl rfl,
    exec_branchLinking (c := condGez) (d := fun pc _ => branchTarget pc off) hx rfl rfl rfl rfl⟩

/-- Settles O27: J and JAL go to a function of the Op's address, JR and JALR to the rs that execute resolved. -/
theorem jumpsComplete : Obligations.JumpsComplete := by
  intro s op rd rs target hx
  exact ⟨exec_branch (c := fun _ _ => true) (d := fun pc _ => jumpTarget pc target) hx rfl rfl rfl rfl,
    exec_branchLinking (c := fun _ => true) (d := fun pc _ => jumpTarget pc target) hx rfl rfl rfl rfl,
    exec_branch (c := fun _ _ => true) (d := fun _ v => v) hx rfl rfl rfl rfl,
    exec_branchLinking (c := fun _ => true) (d := fun _ v => v) hx rfl rfl rfl rfl⟩

/-! ### SYSCALL (49 R495, 41 R133) -/

/-- SYSCALL's Op halts exactly when the register 2 that execute resolved is 10. -/
theorem isHaltSyscall_withOperands_iff (s : State) (op : Op) :
    (s.withOperands (op.readAs .syscall)).isHaltSyscall = true ↔ s.operand 2 = 10 := by
  have hop : (s.withOperands (op.readAs .syscall)).opcode = 0x00 := opField_rWord ..
  have hsub : (s.withOperands (op.readAs .syscall)).subop = 0x0C := by
    change subopOf (encode .syscall) = 0x0C
    decide
  have hsrc : (s.withOperands (op.readAs .syscall)).src1Val = s.operand 2 := rfl
  rw [Op.isHaltSyscall_iff, hop, hsub, hsrc]
  simp

/-- Settles O28: the Op carries the register 2 that execute resolved, and writeback reads no other. -/
theorem syscallCompletesAndHaltsOnTen : Obligations.SyscallCompletesAndHaltsOnTen := by
  intro s op hx
  refine ⟨s.withOperands (op.readAs .syscall), executeAs_inOp (i := .syscall) (f := id) hx rfl rfl, rfl,
    Op.passesMem rfl, fun z hz => ?_⟩
  rw [writebackStage_of_some hz, State.commit_regs]
  simp only [isHaltSyscall_withOperands_iff]
  rfl

end Sys2Proof.Machine
end

section
/-! PROOFS. What a step does to the bytes the data side reads: the store that completes in mem writes its own, no
other request or handler changes any (O24). -/

namespace Sys2Proof.Machine

theorem State.dataByte_congr {s t : State} (hc : t.cfg = s.cfg) (hh : t.hier = s.hier) (a : Word) :
    t.dataByte a = s.dataByte a := by
  rw [State.dataByte, State.dataByte, hc, hh]

/-- A request of either side changes no byte the data side reads (20 R74, 47 R345). -/
theorem load_dataByte {s : State} {k : Side} {b : Word} {r : Loaded} (hc : s.cfg.wf = true)
    (hi : CachesInv s.cfg s.hier) (hcl : CleanCopies s.cfg s.hier) (hq : QueueInv s.cfg (s.hier.queue k))
    (hl : load s.cfg k s.hier b = .next r) (a : Word) : (s.setHier r.hier).dataByte a = s.dataByte a :=
  congrArg (byteOfWord · (byteIndex a)) (load_dataView hc hi hcl hq hl a)

/-- The Op is a store, and mem has completed it (42 R147, R149). -/
def Op.StoreCompletes (op : Op) (t : State) : Prop :=
  op.isMem = true ∧ op.memWrite = true ∧ t.me = none

/-- Unless a store completes in it, mem changes no byte the data side reads. -/
theorem MemOutcome.dataByte {s t : State} (h : MemOutcome s t) (hc : s.cfg.wf = true)
    (hi : CachesInv s.cfg s.hier) (hcl : CleanCopies s.cfg s.hier) (hq : QueueInv s.cfg s.hier.dq)
    (hn : ∀ op, s.me = some op → ¬ op.StoreCompletes t) (a : Word) : t.dataByte a = s.dataByte a := by
  cases h with
  | empty | held | pass => rfl
  | wait _ _ _ _ _ hl | load _ _ _ _ _ _ hl => exact load_dataByte (k := .d) hc hi hcl hq hl a
  | store op _ _ _ ho _ hm _ _ hw => exact absurd ⟨hm, hw, rfl⟩ (hn op ho)

/-- Fetch changes no byte the data side reads (20 R71). -/
theorem FetchOutcome.dataByte {s t : State} (h : FetchOutcome s t) (hc : s.cfg.wf = true)
    (hi : CachesInv s.cfg s.hier) (hcl : CleanCopies s.cfg s.hier) (hq : QueueInv s.cfg s.hier.iq)
    (a : Word) : t.dataByte a = s.dataByte a := by
  cases h with
  | halted => rfl
  | wait _ _ hl | full _ _ _ hl | deliver _ _ _ hl => exact load_dataByte (k := .i) hc hi hcl hq hl a

/-- After mem no handler of the step changes a byte the data side reads. -/
theorem StepStages.dataByte {s m e f t : State} (h : StepStages s m e f t) (hs : s.Inv) (a : Word) :
    t.dataByte a = m.dataByte a := by
  have hcfg : (decodeStage e).cfg = m.cfg := (decodeStage_cfg e).trans h.execute.keeps.cfg
  have hhier : (decodeStage e).hier = m.hier := (decodeStage_hier e).trans h.execute.keeps.hier
  have hfetch : f.dataByte a = (decodeStage e).dataByte a := by
    refine (fetchStage_outcome h.fetch).dataByte ?_ (h.fetch_cachesInv hs.config hs.caches) ?_ ?_ a
    · rw [hcfg, h.mem_cfg]; exact hs.config
    · rw [hcfg, hhier]; exact h.mem_cleanCopies hs
    · rw [hcfg, hhier]; exact (h.mem_requests hs).miss.iq
  calc t.dataByte a
      _ = f.dataByte a := by
        rw [h.recovery]; exact State.dataByte_congr f.applyRecovery_cfg f.applyRecovery_hier a
      _ = (decodeStage e).dataByte a := hfetch
      _ = m.dataByte a := State.dataByte_congr hcfg hhier a

/-- Settles O24: what mem does to the bytes, by whether a store completes in it, is what the step does. -/
theorem stepChangesMemoryOnlyByTheStoreInMem : Obligations.StepChangesMemoryOnlyByTheStoreInMem := by
  intro s m t hs hm hstep a
  obtain ⟨e, he⟩ := executeStage_next m
  obtain ⟨f, h⟩ := stepStages_of_execute hm he hstep
  have hc : (writebackStage s).cfg.wf = true := by simpa using hs.config
  have hi : CachesInv (writebackStage s).cfg (writebackStage s).hier := by simpa using hs.caches
  have hcl : CleanCopies (writebackStage s).cfg (writebackStage s).hier := by simpa using hs.clean
  have hq : QueueInv (writebackStage s).cfg (writebackStage s).hier.dq := by simpa using hs.miss.dq
  have hwb : (writebackStage s).dataByte a = s.dataByte a :=
    State.dataByte_congr (writebackStage_cfg s) (writebackStage_hier s) a
  have hkeep : (∀ op, s.me = some op → ¬ op.StoreCompletes m) → m.dataByte a = s.dataByte a := fun hn =>
    ((memStage_outcome hm).dataByte hc hi hcl hq (by simpa using hn) a).trans hwb
  rw [h.dataByte hs]
  cases hme : s.me with
  | none => exact hkeep (by rw [hme]; nofun)
  | some op =>
    dsimp only
    split
    · next hst =>
      obtain ⟨hmem, hwrite, hdone⟩ := hst
      rw [← hwb]
      exact memStage_store_dataByte hc hi hcl hq (by simpa using hme) hmem hwrite hm hdone a
    · next hst => exact hkeep fun op' ho => by cases hme.symm.trans ho; exact hst

end Sys2Proof.Machine
end

section
/-! PROOFS. The program-order view of a state (70 R540) under each handler, and so what a cycle does to it: writeback,
mem, decode, fetch and the recovery leave it alone, execute applies the instruction rules to it (O59). -/

namespace Sys2Proof.Machine

/-! ### What the program-order view is made of -/

/-- The states agree on all that the registers and memory of the program-order view read. -/
structure State.SameView (t s : State) : Prop where
  me : t.me = s.me
  wb : t.wb = s.wb
  regs : t.regs = s.regs
  data : ∀ a, t.hier.view t.cfg .d a = s.hier.view s.cfg .d a

theorem State.SameView.archReg {s t : State} (h : t.SameView s) (r : Reg) : t.archReg r = s.archReg r := by
  simp only [State.archReg, h.me, h.data, State.operand_congr h.wb h.regs]

theorem State.SameView.archWord {s t : State} (h : t.SameView s) (a : Word) :
    t.archWord a = s.archWord a := by
  simp only [State.archWord, h.me, h.data]

theorem State.archReg_zero (s : State) : s.archReg 0#5 = 0 := if_pos rfl

theorem State.archWord_of_me_none {s : State} (h : s.me = none) (a : Word) :
    s.archWord a = s.hier.view s.cfg .d a := by
  rw [State.archWord, h]

theorem State.archWord_of_me {s : State} {m : Op} (h : s.me = some m) (a : Word) :
    s.archWord a =
      if m.isMem && m.memWrite && wordAddr m.memAddr == wordAddr a then
        mergeWord m.opcode m.memAddr (s.hier.view s.cfg .d a) m.memValue
      else s.hier.view s.cfg .d a := by
  rw [State.archWord, h]

/-! ### Writeback and mem: an Op completes as the view already has it (41 R131, 42 R146 to R148) -/

/-- What the bypass takes from WB it finds in the register file after writeback. -/
theorem operand_writebackStage (s : State) (r : Reg) : (writebackStage s).operand r = s.operand r := by
  rw [State.operand_of_wb_none (writebackStage_wb s), reg_writebackStage]

/-- A request of the Op in ME, as mem makes it after writeback, changes no word of DataView. -/
theorem State.Inv.load_view {s : State} (hs : s.Inv) {a : Word} {r : Loaded}
    (hl : load (writebackStage s).cfg .d (writebackStage s).hier a = .next r) (b : Word) :
    r.hier.view s.cfg .d b = s.hier.view s.cfg .d b := by
  rw [writebackStage_cfg, writebackStage_hier] at hl
  exact load_dataView hs.config hs.caches hs.clean (k := .d) hs.miss.dq hl b

theorem archReg_of_memOutcome {s m : State} (hs : s.Inv) (h : MemOutcome (writebackStage s) m) (r : Reg) :
    m.archReg r = s.archReg r := by
  by_cases hr : r = 0#5
  · rw [hr, State.archReg_zero, State.archReg_zero]
  cases hme : m.me with
  | none => rw [State.archReg_of_me_none hme, operand_of_memOutcome hs h hme hr]
  | some op =>
    cases h with
    | empty he => rw [he] at hme; cases hme
    | held _ _ hw => rw [writebackStage_wb] at hw; cases hw
    | pass | load | store => cases hme
    | wait _ l _ _ _ hl =>
      have hop : ((writebackStage s).setHier l.hier).operand r = s.operand r := operand_writebackStage s r
      rw [State.archReg_of_me hme hr, State.archReg_of_me (s := s) (by simpa using hme) hr, hop,
        State.setHier_hier, State.setHier_cfg, writebackStage_cfg, hs.load_view hl]

theorem archWord_of_memOutcome {s m : State} (hs : s.Inv) (h : MemOutcome (writebackStage s) m) (a : Word) :
    m.archWord a = s.archWord a := by
  have hcfg : (writebackStage s).cfg = s.cfg := writebackStage_cfg s
  have hhier : (writebackStage s).hier = s.hier := writebackStage_hier s
  cases h with
  | empty he => simp only [State.archWord, writebackStage_me, hcfg, hhier]
  | held _ _ hw => rw [writebackStage_wb] at hw; cases hw
  | pass op ho _ hmem =>
    rw [writebackStage_me] at ho
    rw [State.archWord_of_me_none rfl, State.archWord_of_me ho, hmem]
    simp only [State.moveToWb_hier, State.moveToWb_cfg, hcfg, hhier, Bool.false_and, Bool.false_eq_true,
      if_false]
  | wait op l ho _ _ hl =>
    have ho' : s.me = some op := by simpa using ho
    rw [State.archWord_of_me (State.setHier_me _ _ ▸ ho), State.archWord_of_me ho', State.setHier_hier,
      State.setHier_cfg, hcfg, hs.load_view hl]
  | load op l _ ho _ _ hl _ hw =>
    rw [writebackStage_me] at ho
    rw [State.archWord_of_me_none rfl, State.archWord_of_me ho, hw]
    simp only [State.moveToWb_hier, State.moveToWb_cfg, State.setHier_hier, State.setHier_cfg, hcfg,
      hs.load_view hl, Bool.and_false, Bool.false_and, Bool.false_eq_true, if_false]
  | store op l w hier ho _ hmem hl ha hw hst =>
    rw [writebackStage_me] at ho
    have hview := hs.load_view hl
    rw [hcfg] at hst hl
    rw [hhier] at hl
    have hword : w = s.hier.view s.cfg .d op.memAddr := (load_word hl ha).trans (hview _)
    rw [State.archWord_of_me_none rfl, State.archWord_of_me ho, hmem, hw, Bool.true_and, Bool.true_and]
    simp only [State.moveToWb_hier, State.moveToWb_cfg, State.setHier_hier, State.setHier_cfg, hcfg,
      beq_iff_eq]
    rw [storeWord_dataView hs.config (load_cachesInv hs.config hs.caches hl) hst, hview, hword]
    split
    · next hwa => rw [view_congr hs.config s.hier hwa]
    · rfl

/-! ### Decode, fetch and the recovery (44 R200, 45 R220, 40 R120) -/

/-- Fetch changes no word of DataView (20 R71). -/
theorem FetchOutcome.dataView {s t : State} (h : FetchOutcome s t) (hc : s.cfg.wf = true)
    (hi : CachesInv s.cfg s.hier) (hcl : CleanCopies s.cfg s.hier) (hq : QueueInv s.cfg s.hier.iq)
    (a : Word) : t.hier.view t.cfg .d a = s.hier.view s.cfg .d a := by
  cases h with
  | halted => rfl
  | wait _ _ hl | full _ _ _ hl | deliver _ _ _ hl => exact load_dataView hc hi hcl (k := .i) hq hl a

/-- The handlers after execute leave the program-order view alone. -/
theorem StepStages.sameView {s m e f t : State} (h : StepStages s m e f t) (hs : s.Inv) : t.SameView e := by
  have hrec := h.recoveryInv hs.noRecovery
  have hcfg : (decodeStage e).cfg = m.cfg := (decodeStage_cfg e).trans h.execute.keeps.cfg
  have hhier : (decodeStage e).hier = m.hier := (decodeStage_hier e).trans h.execute.keeps.hier
  have hframe := fetchStage_frame h.fetch
  refine ⟨?_, ?_, ?_, fun a => ?_⟩
  · rw [h.recovery, hrec.applyRecovery_me, h.fetch_me]
  · rw [h.recovery]
    rcases applyRecovery_cases hrec with ⟨ht, -⟩ | ht <;> rw [ht] <;> exact h.fetch_wb
  · rw [h.recovery, State.applyRecovery_regs, hframe]
    exact decodeStage_regs e
  · rw [h.recovery, State.applyRecovery_hier, State.applyRecovery_cfg,
      (fetchStage_outcome h.fetch).dataView, decodeStage_hier, decodeStage_cfg]
    · rw [hcfg, h.mem_cfg]; exact hs.config
    · exact h.fetch_cachesInv hs.config hs.caches
    · rw [hcfg, hhier]; exact h.mem_cleanCopies hs
    · rw [hcfg, hhier]; exact (h.mem_requests hs).miss.iq

end Sys2Proof.Machine
end

section
/-! PROOFS. Execute against the instruction rules (48, 49): the Op each instruction moves to ME, with HI and LO,
amounts to the effect Isa.lean gives the instruction (for O59 and O60). -/

namespace Sys2Proof.Machine

/-! ### What an executed Op amounts to -/

/-- The Op `m` that execute moves to ME, beside `hi` and `lo`, amounts to `e` over memory that reads as `mem`: the
register it delivers (a load's from its word), the word it stores, the next address. -/
structure Op.Performs (m : Op) (hi lo : Word) (mem : Word → Word) (e : IsaEffect) : Prop where
  dst : m.dst = e.dst
  value : m.dst ≠ none →
    (if m.isMem then extractWord m.opcode m.memAddr (mem m.memAddr) else m.dstVal) = e.value
  hi : hi = e.hi
  lo : lo = e.lo
  store : e.store =
    if m.isMem && m.memWrite then
      some (m.memAddr, mergeWord m.opcode m.memAddr (mem m.memAddr) m.memValue)
    else none
  next : e.next = if m.isBranch then m.correctNextPc else nextSeq m.pc

section Kinds
variable {op : Op} {mem : Word → Word} {hi lo v w : Word} {a b : Option Reg} {rs rt r : Reg}

/-- An Op that is no memory access delivers its result, if any, as it stands. -/
theorem Op.performs_of_not_mem {e : IsaEffect} (h : op.isMem = false) (hd : op.dst = e.dst)
    (hv : op.dst ≠ none → op.dstVal = e.value) (hhi : hi = e.hi) (hlo : lo = e.lo) (hs : e.store = none)
    (hn : e.next = if op.isBranch then op.correctNextPc else nextSeq op.pc) : op.Performs hi lo mem e where
  dst := hd
  value hne := by rw [h]; exact hv hne
  hi := hhi
  lo := hlo
  store := by rw [h]; exact hs
  next := hn

/-- An Op that delivers nothing; HI and LO may be written beside it (43 R173, R178). -/
theorem Op.performs_nothing {e : IsaEffect} (h : op.HasClass (aluClass a b none)) (hhi : hi = e.hi)
    (hlo : lo = e.lo) (hd : e.dst = none) (hs : e.store = none) (hn : e.next = nextSeq op.pc) :
    op.Performs hi lo mem e :=
  Op.performs_of_not_mem h.isMem (h.dst.trans hd.symm) (fun hne => absurd h.dst hne) hhi hlo hs
    (by rw [h.isBranch]; exact hn)

theorem Op.performs_result (h : op.HasClass (aluClass a b (some r))) (hv : w = v) :
    (op.result w).Performs hi lo mem ((isaNothing op.pc hi lo).write r v) :=
  Op.performs_of_not_mem h.isMem h.dst (fun _ => hv) rfl rfl rfl
    (by rw [show (op.result w).isBranch = false from h.isBranch]; rfl)

theorem Op.performs_load (h : op.HasClass (loadClass rs rt)) {ea : Word}
    (hv : extractWord op.opcode ea (mem ea) = v) :
    (op.address ea).Performs hi lo mem ((isaNothing op.pc hi lo).write rt v) where
  dst := h.dst
  value _ := by rw [show (op.address ea).isMem = true from h.isMem]; exact hv
  hi := rfl
  lo := rfl
  store := by rw [show (op.address ea).memWrite = false from h.memWrite, Bool.and_false]; rfl
  next := by rw [show (op.address ea).isBranch = false from h.isBranch]; rfl

theorem Op.performs_store (h : op.HasClass (storeClass rs rt)) {ea ea' : Word} (ha : ea = ea')
    (hv : mergeWord op.opcode ea (mem ea) w = v) :
    (op.storeAt ea w).Performs hi lo mem ((isaNothing op.pc hi lo).storeWord ea' v) where
  dst := h.dst
  value hne := absurd h.dst hne
  hi := rfl
  lo := rfl
  store := by
    rw [show (op.storeAt ea w).isMem = true from h.isMem,
      show (op.storeAt ea w).memWrite = true from h.memWrite, ← ha, ← hv]
    rfl
  next := by rw [show (op.storeAt ea w).isBranch = false from h.isBranch]; rfl

section Control
variable {cond c c' : Bool} {t t' : Word}

/-- A branch or jump, taken or not (43 R179). -/
theorem Op.performs_branch (h : op.HasClass (controlClass a b none cond)) (hc : c = c') (ht : t = t') :
    (op.branch c t).Performs hi lo mem ((isaNothing op.pc hi lo).goto c' t') := by
  subst hc ht
  have hbr : (op.branch c t).isBranch = true := h.isBranch
  cases c <;>
    exact Op.performs_of_not_mem h.isMem h.dst (fun hne => absurd h.dst hne) rfl rfl rfl (by rw [hbr]; rfl)

/-- A branch or jump that links, taken or not (43 R184). -/
theorem Op.performs_link (h : op.HasClass (controlClass a b (some r) cond)) (hc : c = c') (ht : t = t') :
    ((op.branch c t).result (nextSeq op.pc)).Performs hi lo mem
      (((isaNothing op.pc hi lo).write r (op.pc + 4)).goto c' t') := by
  subst hc ht
  have hbr : ((op.branch c t).result (nextSeq op.pc)).isBranch = true := h.isBranch
  cases c <;>
    exact Op.performs_of_not_mem h.isMem h.dst (fun _ => rfl) rfl rfl rfl (by rw [hbr]; rfl)

end Control
end Kinds

/-! ### `Compute` of each instruction -/

/-- The rules' signed division, by its divisor, is the model's (48 R433). -/
theorem IsaEffect.hiLo_div (e : IsaEffect) (v w : Word) :
    (if w = 0 then e.hiLo 0 0
      else e.hiLo (BitVec.ofInt 32 (v.toInt.tmod w.toInt)) (BitVec.ofInt 32 (v.toInt.tdiv w.toInt))) =
      e.hiLo (signedRemainder v w) (signedQuotient v w) := by
  by_cases hw : w = 0
  · rw [if_pos hw, hw, signedRemainder_zero, signedQuotient_zero]
  · rw [if_neg hw, signedRemainder_of_ne hw]; rfl

/-- The rules' unsigned division is the model's (48 R434). -/
theorem IsaEffect.hiLo_divu (e : IsaEffect) (v w : Word) :
    (if w = 0 then e.hiLo 0 0 else e.hiLo (v % w) (v / w)) =
      e.hiLo (unsignedRemainder v w) (unsignedQuotient v w) := by
  by_cases hw : w = 0
  · rw [if_pos hw, hw, unsignedRemainder_zero, unsignedQuotient_zero]
  · rw [if_neg hw, unsignedRemainder_of_ne hw, unsignedQuotient_eq_div]

/-- The Op is decoded as `i`, and its sources hold what `x` reads in the registers of `i`. -/
structure Op.Holds (op : Op) (i : Instr) (x : Reg → Word) : Prop where
  cls : op.HasClass (classOf i)
  opcode : op.opcode = opField (encode i)
  src1 : ∀ r, (classOf i).src1 = some r → op.src1Val = x r
  src2 : ∀ r, (classOf i).src2 = some r → op.src2Val = x r

/-- Every meaning is an evaluation of the execute handler with a `Compute` that performs the rules' effect. -/
theorem exec_performs_shape (i : Instr) :
    ∃ compute, (∀ s, exec i s = executeAs i compute s) ∧
      ∀ (op : Op) (s : State) (x : Reg → Word) (mem : Word → Word), op.Holds i x →
        (compute op s).1.Performs (compute op s).2.hi (compute op s).2.lo mem
          (isaEffect i op.pc x s.hi s.lo mem) := by
  cases i
  all_goals
    apply Exists.intro
    apply And.intro
    · intro s
      dsimp only [exec]
      exact rfl
    intro op s x mem h
  case sll | srl | sra => exact Op.performs_result h.cls (by rw [h.src2 _ rfl]; rfl)
  case sllv | srlv | srav =>
    exact Op.performs_result h.cls (by rw [h.src1 _ rfl, h.src2 _ rfl, shiftAmount_eq]; rfl)
  case add | addu | sub | subu | and | or | xor | nor =>
    exact Op.performs_result h.cls (by rw [h.src1 _ rfl, h.src2 _ rfl])
  case slt => exact Op.performs_result h.cls (by rw [h.src1 _ rfl, h.src2 _ rfl, wordOfBool_lessSigned])
  case sltu => exact Op.performs_result h.cls (by rw [h.src1 _ rfl, h.src2 _ rfl, wordOfBool_lessUnsigned])
  case addi | addiu | andi | ori | xori => exact Op.performs_result h.cls (by rw [h.src1 _ rfl]; rfl)
  case slti => exact Op.performs_result h.cls (by rw [h.src1 _ rfl, wordOfBool_lessSigned]; rfl)
  case sltiu => exact Op.performs_result h.cls (by rw [h.src1 _ rfl, wordOfBool_lessUnsigned]; rfl)
  case lui | mfhi | mflo => exact Op.performs_result h.cls rfl
  case syscall => exact Op.performs_nothing h.cls rfl rfl rfl rfl rfl
  case mthi => exact Op.performs_nothing h.cls (h.src1 _ rfl) rfl rfl rfl rfl
  case mtlo => exact Op.performs_nothing h.cls rfl (h.src1 _ rfl) rfl rfl rfl
  case mult | multu =>
    rw [h.src1 _ rfl, h.src2 _ rfl]
    exact Op.performs_nothing h.cls rfl rfl rfl rfl rfl
  case div =>
    rw [h.src1 _ rfl, h.src2 _ rfl, isaEffect, IsaEffect.hiLo_div]
    exact Op.performs_nothing h.cls rfl rfl rfl rfl rfl
  case divu =>
    rw [h.src1 _ rfl, h.src2 _ rfl, isaEffect, IsaEffect.hiLo_divu]
    exact Op.performs_nothing h.cls rfl rfl rfl rfl rfl
  case lb | lh | lw | lbu | lhu =>
    exact Op.performs_load h.cls (by rw [h.src1 _ rfl, h.opcode.trans (opField_iWord ..)]; rfl)
  case sb | sh | sw =>
    exact Op.performs_store h.cls (by rw [h.src1 _ rfl]; rfl)
      (by rw [h.src1 _ rfl, h.src2 _ rfl, h.opcode.trans (opField_iWord ..)]; rfl)
  case beq => exact Op.performs_branch h.cls (by rw [h.src1 _ rfl, h.src2 _ rfl]; rfl) rfl
  case bne => exact Op.performs_branch h.cls (by rw [h.src1 _ rfl, h.src2 _ rfl, condNe_eq_decide]) rfl
  case blez | bgtz | bltz | bgez => exact Op.performs_branch h.cls (by rw [h.src1 _ rfl]; rfl) rfl
  case bltzal | bgezal => exact Op.performs_link h.cls (by rw [h.src1 _ rfl]; rfl) rfl
  case j => exact Op.performs_branch h.cls rfl rfl
  case jal => exact Op.performs_link h.cls rfl rfl
  case jr => exact Op.performs_branch h.cls rfl (h.src1 _ rfl)
  case jalr => exact Op.performs_link h.cls rfl (h.src1 _ rfl)

end Sys2Proof.Machine
end

section
/-! PROOFS. A cycle in program order: its effect on the program-order view is that of at most one instruction (O59). -/

namespace Sys2Proof.Machine

/-! ### Execute of one instruction over the program-order view (70 R540) -/

theorem classOfWord_of_decode {w : Word} {i : Instr} (hi : decodeWord w = .ok i) :
    classOfWord w = classOf i := by
  rw [classOfWord, hi]

/-- A decoded Op, its sources resolved while ME is free, holds the values of the registers it names. -/
theorem State.withOperands_holds {s : State} {op : Op} {i : Instr} {x : Reg → Word} (hd : op.DecodedInv)
    (hi : decodeWord op.instr = .ok i) (hx : ∀ r, s.operand r = x r) : (s.withOperands op).Holds i x := by
  obtain ⟨ho, -, -, -, -, -, c⟩ := op.decodedInv_iff.1 hd
  rw [classOfWord_of_decode hi] at c
  refine ⟨⟨c.src1, c.src2, c.dst, c.isMem, c.memWrite, c.isBranch, c.branchCond⟩,
    ho.trans (selector_of_decodeWord hi).1.symm, fun r hr => ?_, fun r hr => ?_⟩
  · simp only [State.withOperands, c.src1, hr, hx]
  · simp only [State.withOperands, c.src2, hr, hx]

/-- An Op that execute does not hold is consumed, and performs the rules' effect of its word. -/
theorem executeStage_performs {s e : State} {op : Op} {x : Reg → Word} (hx : s.ex = some op)
    (hd : op.DecodedInv) (h : s.exHold op = false) (hop : ∀ r, s.operand r = x r)
    (he : executeStage s = .next e) (mem : Word → Word) :
    ∃ m, ConsumedAs op e m ∧
      m.Performs e.hi e.lo mem (isaEffectOfWord op.instr op.pc x s.hi s.lo mem) := by
  obtain ⟨e', m, he', hc⟩ := executeStage_consumes hx hd h
  cases he.symm.trans he'
  refine ⟨m, hc, ?_⟩
  have hme := State.me_of_exHold h
  rw [State.exHold_of_free hme] at h
  unfold isaEffectOfWord
  cases hi : decodeWord op.instr with
  | ok i =>
    rw [State.hiLoWait_of_decode hi] at h
    rw [executeStage_of_decode hx hi] at he
    obtain ⟨c, hexec, hperf⟩ := exec_performs_shape i
    have hrun := executeAs_consumes (i := i) (compute := c) ⟨hx, hme⟩ fun hr => by simpa [hr] using h
    rw [← hexec, he, Op.readAs_of_decoded hd hi] at hrun
    cases hrun
    cases hc.me
    rw [State.moveToMem_hi, State.moveToMem_lo, State.resolveBranch_hi, State.resolveBranch_lo]
    exact hperf _ s.tickMdu x mem (State.withOperands_holds hd hi hop)
  | error r =>
    have hrun := executeStage_of_decode_error ⟨hx, hme⟩ hi
    rw [he] at hrun
    cases hrun
    cases hc.me
    exact Op.performs_nothing ⟨rfl, rfl, rfl, rfl, rfl, rfl, rfl⟩ rfl rfl rfl rfl rfl

/-- With ME free, the Op execute moves there takes its effect in the program-order view. -/
theorem Op.Performs.appliesIsa {s e : State} {m : Op} {eff : IsaEffect} (hs : s.me = none)
    (hm : e.me = some m) (hwb : e.wb = s.wb) (hk : ExecuteKeeps s e)
    (hp : m.Performs e.hi e.lo s.archWord eff) (hc : s.cfg.wf = true) : AppliesIsa s e eff := by
  have hview : ∀ a, e.hier.view e.cfg .d a = s.archWord a := fun a => by
    rw [State.archWord_of_me_none hs, hk.cfg, hk.hier]
  refine ⟨fun r => ?_, hp.hi, hp.lo, fun a => ?_⟩
  · by_cases hr : r = 0#5
    · rw [hr, State.archReg_zero, State.archReg_zero, if_neg fun hn => hn.1 rfl]
    rw [State.archReg_of_me hm hr, ← hp.dst, State.archReg_of_me_none hs, hview,
      State.operand_congr hwb hk.regs]
    simp only [ne_eq, hr, not_false_eq_true, true_and]
    split
    · next hd => exact hp.value (by rw [hd]; exact Option.some_ne_none r)
    · rfl
  · rw [State.archWord_of_me hm, hp.store, hview]
    cases hst : m.isMem && m.memWrite with
    | false => rfl
    | true =>
      simp only [Bool.true_and, beq_iff_eq, if_true]
      split
      · next ha =>
        rw [State.archWord_of_me_none hs, State.archWord_of_me_none hs, view_congr hc s.hier ha]
      · rfl

theorem ExecuteOutcome.wb_eq {s t : State} (h : ExecuteOutcome s t) : t.wb = s.wb := by
  cases h with
  | tick => rfl
  | moves => simp

/-- The countdown is no part of the program-order view: an evaluation that only ticks does nothing to it. -/
theorem appliesIsa_tickMdu (s : State) (pc : Word) : AppliesIsa s s.tickMdu (isaNothing pc s.hi s.lo) :=
  ⟨fun _ => (if_neg fun h => nomatch h.2).symm, rfl, rfl, fun _ => rfl⟩

/-- An instruction's effect is that on the view, before and after. -/
theorem AppliesIsa.congr {s s' t t' : State} {eff : IsaEffect} (h : AppliesIsa s t eff)
    (hr : ∀ r, s.archReg r = s'.archReg r) (hw : ∀ a, s.archWord a = s'.archWord a) (ht : t'.SameView t)
    (hhi : t'.hi = t.hi) (hlo : t'.lo = t.lo) : AppliesIsa s' t' eff := by
  refine ⟨fun r => ?_, hhi.trans h.hi, hlo.trans h.lo, fun a => ?_⟩
  · rw [ht.archReg, h.regs, hr]
  · rw [ht.archWord, h.mem, hw]

/-- Execute consumes nothing: EX is empty or its Op is held (43 R162, R190). -/
theorem executeStage_of_none {s : State} (h : s.ex = none ∨ ∃ op, s.ex = some op ∧ s.exHold op = true) :
    executeStage s = .next s.tickMdu := by
  rcases h with h | ⟨op, hx, hh⟩
  · simp only [executeStage, h]
  · exact executeStage_of_exHold hx hh

section Cycle
variable {s m : State} (hs : s.Inv) (hm : memStage (writebackStage s) = .next m)
include hs hm

/-- What execute finds in EX is as fetch and decode left it. -/
theorem State.Inv.ex_of_mem {op : Op} (hx : m.ex = some op) :
    op.PredictionInv ∧ op.DecodedInv ∧ op.dstReady = false := by
  rw [memStage_frame hm] at hx
  exact hs.slots.ex op ((writebackStage_ex s).symm.trans hx)

theorem State.Inv.archReg_of_mem (r : Reg) : m.archReg r = s.archReg r :=
  archReg_of_memOutcome hs (memStage_outcome hm) r

theorem State.Inv.archWord_of_mem (a : Word) : m.archWord a = s.archWord a :=
  archWord_of_memOutcome hs (memStage_outcome hm) a

/-- The Op execute consumes performs the rules' effect over the view before the cycle. -/
theorem State.Inv.performs {e : State} {op : Op} (hx : m.ex = some op) (hh : m.exHold op = false)
    (he : executeStage m = .next e) (hhi : m.hi = s.hi) (hlo : m.lo = s.lo) :
    ∃ b, ConsumedAs op e b ∧
      b.Performs e.hi e.lo s.archWord
        (isaEffectOfWord op.instr op.pc s.archReg s.hi s.lo s.archWord) := by
  have hop : ∀ r, m.operand r = s.archReg r := fun r => by
    rw [← State.archReg_of_me_none (State.me_of_exHold hh), hs.archReg_of_mem hm]
  rw [← hhi, ← hlo]
  exact executeStage_performs hx (hs.ex_of_mem hm hx).2.1 hh hop he s.archWord

end Cycle

/-- Settles O59: mem and the handlers after execute keep the program-order view; execute either ticks or moves to ME an
Op that performs the rules' effect. -/
theorem cycleIsOneInstructionInProgramOrder : Obligations.CycleIsOneInstructionInProgramOrder := by
  intro s m t hs hm hstep
  obtain ⟨e, he⟩ := executeStage_next m
  obtain ⟨f, h⟩ := stepStages_of_execute hm he hstep
  obtain ⟨⟨hhi, hlo, -⟩, hthi, htlo, -⟩ := onlyExecuteWritesHiLoAndThePredictor s m e t hm he hstep
  have hview := h.sameView hs
  have hword : m.archWord = s.archWord := funext (hs.archWord_of_mem hm)
  have hlift : ∀ eff, AppliesIsa m e eff → AppliesIsa s t eff := fun eff ha =>
    ha.congr (hs.archReg_of_mem hm) (hs.archWord_of_mem hm) hview hthi htlo
  refine ⟨fun op hx hh => hlift _ ?_, fun hnone => hlift _ ?_⟩
  · obtain ⟨b, hc, hp⟩ := hs.performs hm hx hh he hhi hlo
    rw [← hword] at hp ⊢
    exact hp.appliesIsa (State.me_of_exHold hh) hc.me h.execute.wb_eq h.execute.keeps
      (by rw [h.mem_cfg]; exact hs.config)
  · cases he.symm.trans (executeStage_of_none hnone)
    rw [← hhi, ← hlo]
    exact appliesIsa_tickMdu m 0

end Sys2Proof.Machine
end

section
/-! PROOFS. The order in which execute consumes the instructions: each next one stands where the rules say (O60). -/

namespace Sys2Proof.Machine

/-- Decode marked the consumed Op by the same word. -/
theorem ConsumedAs.isBranch {op b : Op} {e : State} (h : ConsumedAs op e b) (hd : op.DecodedInv) :
    b.isBranch = op.isBranch := by
  obtain ⟨-, -, -, -, -, -, cb⟩ := b.decodedInv_iff.1 h.decoded
  obtain ⟨-, -, -, -, -, -, cop⟩ := op.decodedInv_iff.1 hd
  rw [cb.isBranch, cop.isBranch, h.instr]

/-! ### The next instruction (45 R222, R232, 43 R180 to R184) -/

/-- The front end holds an Op, or fetch brings one (45 R222). -/
def State.FrontEndRuns (s : State) : Prop := s.run = true ∨ s.ex ≠ none ∨ s.de ≠ none

/-- Decode moves the next instruction, if at all, from DE to EX. -/
theorem nextToExecute_decodeStage (s : State) : (decodeStage s).nextToExecute = s.nextToExecute := by
  rcases decodeStage_cases s with ⟨h, -⟩ | ⟨op, hde, hex, h⟩ <;> rw [h]
  simp only [State.nextToExecute, hex, hde]
  rfl

theorem frontEndRuns_decodeStage {s : State} (h : (decodeStage s).FrontEndRuns) : s.FrontEndRuns := by
  rcases decodeStage_cases s with ⟨he, -⟩ | ⟨op, hde, -, -⟩
  · rwa [he] at h
  · exact .inr (.inr (by rw [hde]; exact Option.some_ne_none op))

/-- Fetch delivers the next instruction to an empty front end from PC (45 R228); only halted it steps PC. -/
theorem FetchOutcome.nextToExecute {s t : State} (h : FetchOutcome s t) (ht : t.FrontEndRuns) :
    t.nextToExecute = s.nextToExecute ∧ s.FrontEndRuns := by
  cases h with
  | halted hr =>
    refine ⟨?_, ht⟩
    rcases ht with hrun | hne
    · rw [hr] at hrun; cases hrun
    · unfold State.nextToExecute
      cases hex : s.ex with
      | some e => rfl
      | none =>
        cases hde : s.de with
        | some d => rfl
        | none => simp [hex, hde] at hne
  | wait _ hr | full _ _ hr => exact ⟨rfl, .inl hr⟩
  | deliver _ _ hr _ _ hde =>
    refine ⟨?_, .inl hr⟩
    simp only [State.nextToExecute, State.setHier_ex, hde]
    rfl

section Stages
variable {s m e f t : State} (h : StepStages s m e f t)
include h

/-- Without a recovery the next instruction is the one execute leaves behind it. -/
theorem StepStages.nextToExecute_of_inactive (hr : e.recov = Recovery.inactive) (ht : t.FrontEndRuns) :
    t.nextToExecute = e.nextToExecute ∧ e.FrontEndRuns := by
  have htf : t = f := by
    rw [h.recovery, State.applyRecovery_inactive (by rw [h.fetch_recov, hr]; rfl)]
  rw [htf] at ht ⊢
  obtain ⟨hn, hl⟩ := (fetchStage_outcome h.fetch).nextToExecute ht
  exact ⟨hn.trans (nextToExecute_decodeStage e), frontEndRuns_decodeStage hl⟩

/-- A recovery leaves its destination as the next instruction. -/
theorem StepStages.nextToExecute_of_recovery {dest : Word}
    (hr : e.recov = ⟨true, branchFlushDepth, dest⟩) : t.nextToExecute = dest := by
  have hf := h.fetch_recov.trans hr
  rw [h.recovery, State.applyRecovery_of_active (by rw [hf]), hf]
  rfl

end Stages

/-- What fetch recorded and execute did not contradict is where the branch goes (43 R180, R181). -/
theorem Op.correctNextPc_of_not_mismatch {op : Op} (hp : op.PredictionInv) (h : op.mismatch = false) :
    op.correctNextPc = op.predDest := by
  simp only [Op.mismatch, Bool.or_eq_false_iff, bne_eq_false_iff_eq, Bool.and_eq_false_iff] at h
  obtain ⟨⟨-, htaken⟩, hdest⟩ := h
  unfold Op.correctNextPc
  cases ht : op.branchTaken with
  | true =>
    have hdest : op.predDest = op.branchDest := by simpa [ht] using hdest
    exact hdest.symm
  | false => exact (hp.2 (htaken.trans ht)).symm

/-- Once execute has consumed the Op, the next instruction in the front end stands where fetch predicted. -/
theorem PathInv.nextToExecute {s : State} (h : PathInv s) {op : Op} (hx : s.ex = some op)
    {e : State} (hex : e.ex = none) (hde : e.de = s.de) (hpc : e.pc = s.pc) (hrun : e.run = s.run)
    (hl : e.FrontEndRuns) : e.nextToExecute = op.predDest := by
  unfold State.nextToExecute
  rw [hex, hde]
  cases hd : s.de with
  | some d => exact h.exDe op hx d hd
  | none =>
    have hr : s.run = true := by simpa [State.FrontEndRuns, hex, hde, hd, hrun] using hl
    exact hpc.trans (h.exPc op hx hd hr)

theorem ExecuteOutcome.pc_eq {s t : State} (h : ExecuteOutcome s t) : t.pc = s.pc := by
  cases h with
  | tick => rfl
  | moves => simp

/-- The Op that execute has moved to ME keeps what fetch recorded, and is a recovery's cause exactly when it is a
mispredicted branch (43 R180, R183). -/
theorem ExecuteOutcome.consumed {s e : State} {op b : Op} (h : ExecuteOutcome s e) (hx : s.Executes op)
    (hd : op.DecodedInv) (hrdy : op.dstReady = false) (hb : e.me = some b)
    (hr : s.recov = Recovery.inactive) :
    b.fetchedFields = op.fetchedFields ∧
      e.recov = if b.isBranch && b.mismatch then ⟨true, branchFlushDepth, b.correctNextPc⟩
        else Recovery.inactive := by
  cases h with
  | tick => rw [State.tickMdu_me, hx.2] at hb; cases hb
  | moves held b' _ _ _ hx' hm =>
    cases hx.1.symm.trans hx'.1
    cases hb
    refine ⟨(hm hd hrdy).fetched, ?_⟩
    rw [State.moveToMem_recov]
    cases hbr : b.isBranch with
    | false => rw [State.resolveBranch_of_not_branch _ hbr]; exact hr
    | true =>
      rw [State.resolveBranch_of_branch _ hbr, State.refreshBtb_recov, State.updateIfCond_recov,
        State.recoverIfMismatch_recov, State.writeHiLo_recov, State.tickMdu_recov, hr]
      rfl

/-- After a consumed Op the next instruction stands at the recovery's destination if the Op is a mispredicted branch,
else where fetch predicted; either way at the address the Op goes to. -/
theorem StepStages.nextToExecute_of_consumed {s m e f t : State} (h : StepStages s m e f t)
    (hpath : PathInv m) {op b : Op} (hx : m.ex = some op) (hex : e.ex = none) (hpred : b.PredictionInv)
    (hdest : b.predDest = op.predDest)
    (hrec : e.recov = if b.isBranch && b.mismatch then ⟨true, branchFlushDepth, b.correctNextPc⟩
      else Recovery.inactive)
    (hkind : b.isBranch = true ∨ b.predTaken = false) (ht : t.FrontEndRuns) :
    t.nextToExecute = if b.isBranch then b.correctNextPc else nextSeq b.pc := by
  cases hmis : b.isBranch && b.mismatch with
  | true =>
    rw [hmis, if_pos rfl] at hrec
    rw [if_pos (Bool.and_eq_true_iff.1 hmis).1]
    exact h.nextToExecute_of_recovery hrec
  | false =>
    rw [hmis, if_neg Bool.false_ne_true] at hrec
    obtain ⟨hn, hl⟩ := h.nextToExecute_of_inactive hrec ht
    rw [hn, hpath.nextToExecute hx hex h.execute.de_eq h.execute.pc_eq h.execute.run_eq hl, ← hdest]
    cases hbr : b.isBranch with
    | true =>
      rw [hbr, Bool.true_and] at hmis
      exact (Op.correctNextPc_of_not_mismatch hpred hmis).symm
    | false => exact hpred.2 (hkind.resolve_left (by rw [hbr]; exact Bool.false_ne_true))

/-- Settles O60: the consumed Op's next address is the recovery's destination after a misprediction, else the address
fetch predicted, where the next younger Op or PC stands. -/
theorem executionFollowsProgramOrder : Obligations.ExecutionFollowsProgramOrder := by
  intro s m t hs hm hstep hlive
  obtain ⟨e, he⟩ := executeStage_next m
  obtain ⟨f, h⟩ := stepStages_of_execute hm he hstep
  obtain ⟨⟨hhi, hlo, -⟩, -⟩ := onlyExecuteWritesHiLoAndThePredictor s m e t hm he hstep
  have hframe := memStage_frame hm
  have hrec : m.recov = Recovery.inactive := by
    rw [hframe]; exact (writebackStage_recov s).trans hs.noRecovery
  constructor
  · intro op hx hh hkind
    obtain ⟨hpred, hdec, hrdy⟩ := hs.ex_of_mem hm hx
    obtain ⟨b, hc, hp⟩ := hs.performs hm hx hh he hhi hlo
    obtain ⟨hf, hrecov⟩ := h.execute.consumed ⟨hx, State.me_of_exHold hh⟩ hdec hrdy hc.me hrec
    have hbpred := (Op.predictionInv_congr hf).2 hpred
    simp only [Op.fetchedFields, Prod.mk.injEq] at hf
    obtain ⟨-, -, htaken, hdest⟩ := hf
    have hkind : b.isBranch = true ∨ b.predTaken = false := by rwa [hc.isBranch hdec, htaken]
    rw [hp.next]
    exact h.nextToExecute_of_consumed (hs.path.writeback.mem hm) hx hc.ex hbpred hdest hrecov hkind hlive
  · intro hnone
    cases he.symm.trans (executeStage_of_none hnone)
    obtain ⟨hn, -⟩ := h.nextToExecute_of_inactive hrec hlive
    rw [hn, hframe, writebackStage_frame]
    rfl

end Sys2Proof.Machine
end

section
/-! PROOFS. No fatal condition is reached (O58): every install finds a victim, and the block of an answered data request
is still in L1D when the store writes it, because no other request of DQ can have evicted it. -/

namespace Sys2Proof.Machine

/-! ### The block of an answered request (47 R322, R341) -/

/-- The side's first-level cache holds the block of `a`. -/
def Hierarchy.Resident (h : Hierarchy) (cfg : Config) (k : Side) (a : Word) : Prop :=
  (h.l1 k).copy cfg (l1Geometry cfg k) a ≠ none

section Resident
variable {cfg : Config} (hc : cfg.wf = true) {k : Side}
include hc

section Entry
variable {h : Hierarchy} (hi : CachesInv cfg h)
include hi

/-- A hit stays a hit when it is touched. -/
theorem resident_touch {a : Word} {w : Nat} (hf : (h.l1 k).find cfg (l1Geometry cfg k) a = some w) :
    (h.setL1 k ((h.l1 k).touch cfg (l1Geometry cfg k) a w)).Resident cfg k a := by
  unfold Hierarchy.Resident
  rw [Hierarchy.l1_setL1, Cache.copy_touch (l1Geometry_wf hc k) (hi.l1 k) ((hi.l1 k).find_lt hf), ne_eq,
    Cache.copy_eq_none, hf]
  exact Option.some_ne_none w

theorem installL1_resident {b : Word} {data : List Word} {h' : Hierarchy} (hd : data.length = cfg.blockWords)
    (he : installL1 cfg k h b data = .next h') : h'.Resident cfg k b := by
  cases hf : (h.l1 k).find cfg (l1Geometry cfg k) b with
  | some w =>
    simp only [installL1, hf] at he
    cases he
    exact resident_touch hc hi hf
  | none =>
    obtain ⟨w, h'', -, hw, he', hl1⟩ := installL1_of_absent hc hi hf data
    cases he.symm.trans he'
    unfold Hierarchy.Resident
    rw [hl1, Cache.copy_fill (l1Geometry_wf hc k) (hi.l1 k) false hw hf hd, if_pos rfl]
    exact Option.some_ne_none _

/-- The waited entry finishes only with its block in L1 (R326, R330, R332). -/
theorem advanceEntry_resident {e : QueueEntry} {r : Stepped}
    (he : advanceEntry cfg k h e true = .next r) (hfin : r.finished = true) :
    r.hier.Resident cfg k e.addr := by
  have hg2 := l2Geometry_wf hc
  unfold advanceEntry at he
  split at he
  · cases he; cases hfin
  split at he
  · cases he; cases hfin
  unfold stepEntry at he
  split at he
  · cases he
    unfold stepNotStalled at hfin ⊢
    split at hfin
    · next w hf => simpa only [hf] using resident_touch hc hi hf
    · split at hfin
      · cases hfin
      · split at hfin
        · cases hfin
        · split at hfin <;> cases hfin
  · obtain ⟨h', hins, he⟩ := andThen_eq_next.1 he
    cases he
    exact installL1_resident hc hi (blockBelowL1_length hi hg2 _) hins
  · cases he; cases hfin
  · cases he; cases hfin
  · obtain ⟨h1, hins, he⟩ := andThen_eq_next.1 he
    obtain ⟨hi1, -⟩ := installL2_mshr hc hi (dramReadBlock_length _ _ _) hins
    obtain ⟨h3, hins', he⟩ := andThen_eq_next.1 he
    have hi2 := hi1.setMshr (t := releaseMshr h1.mshr e.addr) (by simp [releaseMshr])
    cases he
    exact installL1_resident hc hi2 (blockBelowL1_length hi2 hg2 _) hins'

end Entry

/-- When every valid entry of the queue is for the waited block, the block is in L1 once it is available: the one entry
that brought it is the last that moves. -/
theorem scanQueue_resident {b : Word} {q : List QueueEntry} {h : Hierarchy} {t : Scanned}
    (hi : CachesInv cfg h)
    (hp : q.Pairwise fun x y => x.valid = true → y.valid = true → x.addr ≠ y.addr)
    (hb : ∀ e ∈ q, e.valid = true → e.addr = b) (hs : scanQueue cfg k b h q = .next t)
    (ha : t.avail = true) : t.hier.Resident cfg k b := by
  induction q generalizing h t with
  | nil => cases hs; cases ha
  | cons e q ih =>
    obtain ⟨r, hr, hs⟩ := andThen_eq_next.1 hs
    obtain ⟨t', ht, hs⟩ := andThen_eq_next.1 hs
    cases hs
    obtain ⟨hhead, htail⟩ := List.pairwise_cons.1 hp
    have hbq : ∀ x ∈ q, x.valid = true → x.addr = b := fun x hx => hb x (List.mem_cons_of_mem e hx)
    rcases Bool.or_eq_true_iff.1 ha with hfin | ha
    · obtain ⟨haddr, hfin⟩ := Bool.and_eq_true_iff.1 hfin
      obtain ⟨hv, -⟩ := (advanceEntry_move hc hi hr).finished hfin
      have hrest : ∀ x ∈ q, x.valid = false := fun x hx => by
        by_contra hxv
        have hxv : x.valid = true := by simpa using hxv
        exact hhead x hx hv hxv ((hb e List.mem_cons_self hv).trans (hbq x hx hxv).symm)
      rw [scanQueue_of_none_valid cfg k b r.hier hrest] at ht
      cases ht
      rw [haddr] at hr
      rw [← hb e List.mem_cons_self hv]
      exact advanceEntry_resident hc hi hr hfin
    · obtain ⟨r', hr', hk, -⟩ := advanceEntry_spec hc hi k e (e.addr == b)
      cases hr.symm.trans hr'
      exact ih (t := t') hk.inv htail hbq ht ha

theorem load_resident {h : Hierarchy} (hi : CachesInv cfg h) {a w : Word} {r : Loaded}
    (hq : QueueInv cfg (h.queue k)) (hb : ∀ e ∈ h.queue k, e.valid = true → e.addr = blockAddr cfg a)
    (hl : load cfg k h a = .next r) (hw : r.word = some w) : r.hier.Resident cfg k a := by
  obtain ⟨t, hs, he⟩ := andThen_eq_next.1 hl
  cases he
  have hav : t.avail = true := by
    by_contra hn
    rw [if_neg hn] at hw
    cases hw
  have hres := scanQueue_resident hc hi (hq.enqueue a).1
    (fun e he hv => (mem_enqueue he hv).elim (fun hm => hb e hm hv) id) hs hav
  have hl1 : (t.hier.setQueue k t.entries).l1 k = t.hier.l1 k := by cases k <;> rfl
  unfold Hierarchy.Resident at hres ⊢
  rwa [hl1, ← Cache.copy_congr (l1Geometry_wf hc k) (blockAddr_blockAddr a)]

end Resident

theorem storeWord_next {cfg : Config} {h : Hierarchy} {a : Word} (hr : h.Resident cfg .d a) (v : Word) :
    ∃ h', storeWord cfg h a v = .next h' := by
  unfold storeWord
  split
  · next hf => exact absurd (Cache.copy_eq_none.2 hf) hr
  · exact ⟨_, rfl⟩

/-! ### The handlers (60 R506) -/

/-- Mem answers: while the Op in ME waits, DQ has requests for its block only (42 R150). -/
theorem memStage_next {s : State} (hc : s.cfg.wf = true) (hi : CachesInv s.cfg s.hier) (hr : RequestsInv s) :
    ∃ t, memStage s = .next t := by
  unfold memStage
  split
  · exact ⟨_, rfl⟩
  next op ho =>
  split
  · exact ⟨_, rfl⟩
  split
  · obtain ⟨r, hl, -⟩ := load_spec hc hi .d op.memAddr
    rw [hl, andThen_next]
    split
    · exact ⟨_, rfl⟩
    next w hw =>
    unfold completeAccess
    split
    · have hdq : ∀ e ∈ s.hier.dq, e.valid = true → e.addr = blockAddr s.cfg op.memAddr := fun e he hv => by
        obtain ⟨op', ho', -, ha⟩ := hr.data e he hv
        cases ho.symm.trans ho'
        exact ha
      have hres := load_resident hc hi (k := .d) hr.miss.dq hdq hl hw
      obtain ⟨h', hst⟩ := storeWord_next hres (mergeWord op.opcode op.memAddr w op.memValue)
      exact ⟨_, by rw [State.setHier_cfg, State.setHier_hier, hst]; rfl⟩
    · exact ⟨_, rfl⟩
  · exact ⟨_, rfl⟩

/-- Fetch answers: its request only fills and evicts. -/
theorem fetchStage_next {s : State} (hc : s.cfg.wf = true) (hi : CachesInv s.cfg s.hier) :
    ∃ t, fetchStage s = .next t := by
  unfold fetchStage fetchRunning
  split
  · obtain ⟨r, hl, -⟩ := load_spec hc hi .i s.pc
    rw [hl, andThen_next]
    split <;> exact ⟨_, rfl⟩
  · exact ⟨_, rfl⟩

/-- Settles O58: each handler finds the invariants it needs as the one before left them. -/
theorem noFatalConditionOccurs : Obligations.NoFatalConditionOccurs := by
  intro s hs hstop
  have hc : (writebackStage s).cfg.wf = true := by simpa using hs.config
  have hi : CachesInv (writebackStage s).cfg (writebackStage s).hier := by simpa using hs.caches
  have hr : RequestsInv (writebackStage s) :=
    ⟨by simpa using hs.miss, DataQueueInv.congr (s := s) hs.dataQueue (by simp) (by simp) (by simp)⟩
  obtain ⟨m, hm⟩ := memStage_next hc hi hr
  obtain ⟨e, he⟩ := executeStage_next m
  have hk := (executeStage_outcome he).keeps
  have hmc : m.cfg = (writebackStage s).cfg := by rw [memStage_frame hm]
  have hmi := (memStage_outcome hm).cachesInv hc hi
  have hde : CachesInv (decodeStage e).cfg (decodeStage e).hier := by
    rwa [decodeStage_cfg, decodeStage_hier, hk.cfg, hk.hier]
  obtain ⟨f, hf⟩ := fetchStage_next (by rwa [decodeStage_cfg, hk.cfg, hmc]) hde
  exact ⟨f.applyRecovery, step_eq_next.2 ⟨hstop, hs.config, m, e, f, hm, he, hf, rfl⟩⟩

end Sys2Proof.Machine
end

section
/-! PROOFS. The counters against the slots (O52), `init()` (O50) and `stop()` (O51), and words of the spec (O5). -/

namespace Sys2Proof.Machine

/-! ### Fetched, retired and in flight (60 R512) -/

/-- From `s` to `t` the Ops fetched are those retired and those that came into flight. -/
def Balanced (s t : State) : Prop :=
  t.statFetched + s.statRetired + s.inFlight = s.statFetched + t.statRetired + t.inFlight

theorem Balanced.trans {s t u : State} (h : Balanced s t) (h' : Balanced t u) : Balanced s u := by
  unfold Balanced at *
  omega

theorem Balanced.of_same {s t : State} (hf : t.statFetched = s.statFetched)
    (hr : t.statRetired = s.statRetired) (hs : t.inFlight = s.inFlight) : Balanced s t := by
  unfold Balanced
  omega

theorem balanced_writebackStage (s : State) : Balanced s (writebackStage s) := by
  cases hw : s.wb with
  | none => rw [writebackStage_of_none hw]; exact .of_same rfl rfl rfl
  | some op =>
    rw [writebackStage_of_some hw]
    simp only [Balanced, State.inFlight, hw, Option.toList_some, Option.toList_none, List.length_cons,
      List.length_nil]
    omega

/-- An Op moves to WB only when that is empty (42 R141). -/
theorem MemOutcome.balanced {s t : State} (h : MemOutcome s t) : Balanced s t := by
  cases h with
  | empty | held | wait => exact .of_same rfl rfl rfl
  | pass _ ho hw | load _ _ _ ho hw | store _ _ _ _ ho hw =>
    refine .of_same rfl rfl ?_
    simp [State.inFlight, ho, hw]

/-- An Op moves to ME only when that is empty (43 R163). -/
theorem ExecuteOutcome.balanced {s t : State} (h : ExecuteOutcome s t) : Balanced s t := by
  cases h with
  | tick => exact .of_same rfl rfl rfl
  | moves _ _ _ _ _ hx =>
    refine .of_same (by simp) (by simp) ?_
    simp [State.inFlight, hx.1, hx.2]

theorem balanced_decodeStage (s : State) : Balanced s (decodeStage s) := by
  rcases decodeStage_cases s with ⟨h, -⟩ | ⟨op, hde, hex, h⟩ <;> rw [h]
  · exact .of_same rfl rfl rfl
  · exact .of_same rfl rfl (by simp [State.inFlight, hde, hex])

/-- Fetch counts the Op it puts into DE (45 R229). -/
theorem FetchOutcome.balanced {s t : State} (h : FetchOutcome s t) : Balanced s t := by
  cases h with
  | halted | wait | full => exact .of_same rfl rfl rfl
  | deliver _ _ _ _ _ hde =>
    simp only [Balanced, State.inFlight, hde, State.setHier_statRetired, State.setHier_ex,
      State.setHier_me, State.setHier_wb, Option.toList_some, Option.toList_none, List.length_cons,
      List.length_nil]
    omega

theorem FetchOutcome.statFetched_bounds {s t : State} (h : FetchOutcome s t) :
    s.statFetched ≤ t.statFetched ∧ t.statFetched ≤ s.statFetched + 1 := by
  cases h with
  | halted | wait | full => exact ⟨le_rfl, Nat.le_succ _⟩
  | deliver => exact ⟨Nat.le_succ _, le_rfl⟩

theorem writebackStage_statRetired_bounds (s : State) :
    s.statRetired ≤ (writebackStage s).statRetired ∧ (writebackStage s).statRetired ≤ s.statRetired + 1 := by
  cases hw : s.wb with
  | none => rw [writebackStage_of_none hw]; exact ⟨le_rfl, Nat.le_succ _⟩
  | some op => rw [writebackStage_of_some hw]; exact ⟨Nat.le_succ _, le_rfl⟩

theorem ExecuteOutcome.statFetched_eq {s t : State} (h : ExecuteOutcome s t) :
    t.statFetched = s.statFetched := by
  cases h with
  | tick => rfl
  | moves => simp

theorem slot_length_le (o : Option Op) : o.toList.length ≤ 1 := by cases o <;> simp

section Stages
variable {s m e f t : State} (h : StepStages s m e f t)
include h

theorem StepStages.balanced_fetch : Balanced s f :=
  (balanced_writebackStage s).trans <| (memStage_outcome h.mem).balanced.trans <|
    h.execute.balanced.trans <| (balanced_decodeStage e).trans (fetchStage_outcome h.fetch).balanced

theorem StepStages.decode_statFetched : (decodeStage e).statFetched = s.statFetched := by
  rw [decodeStage_frame]
  refine h.execute.statFetched_eq.trans ?_
  rw [memStage_frame h.mem, writebackStage_frame]

end Stages

/-- Settles O52: each handler keeps the balance, and the one recovery a step can apply empties DE and EX. -/
theorem countersBalanceTheSlots : Obligations.CountersBalanceTheSlots := by
  intro s t hr hstep
  obtain ⟨m, e, f, h⟩ := step_stages hstep
  have hbal := h.balanced_fetch
  obtain ⟨hf, hf'⟩ := (fetchStage_outcome h.fetch).statFetched_bounds
  rw [h.decode_statFetched] at hf hf'
  obtain ⟨hret, hret'⟩ := writebackStage_statRetired_bounds s
  rw [← h.statRetired] at hret hret'
  have hft : t.statFetched = f.statFetched := by rw [h.recovery, State.applyRecovery_statFetched]
  have hrt : t.statRetired = f.statRetired := by rw [h.recovery, State.applyRecovery_statRetired]
  rw [← hft] at hf hf'
  refine ⟨hf, hf', hret, hret', ?_⟩
  unfold Balanced at hbal
  rw [← hft, ← hrt] at hbal
  have hsq := h.fetch_statSquash
  rcases applyRecovery_cases (h.recoveryInv hr) with ⟨ht, -⟩ | ht <;> rw [← h.recovery] at ht
  · subst ht
    exact ⟨hsq.ge, by omega, 0, by decide, fun _ => rfl, by omega⟩
  · have hde := slot_length_le f.de
    have hex := slot_length_le f.ex
    have hts : t.statSquash = s.statSquash + 1 := by rw [ht, ← hsq]
    have hin : f.inFlight = t.inFlight + (f.de.toList.length + f.ex.toList.length) := by
      rw [ht]
      simp only [State.inFlight, Option.toList_none, List.length_nil]
      omega
    exact ⟨by omega, by omega, f.de.toList.length + f.ex.toList.length, by omega, fun hn => by omega,
      by omega⟩

/-! ### `init()` and `stop()` (10 R42, 70 R530, R537) -/

/-- Way `way` of a set after `init()`: all zero, of rank `way`. -/
theorem blockAt_cacheInitial {cfg : Config} {g : Geometry} {set way : Nat} (hset : set < g.sets)
    (hway : way < g.ways) :
    blockAt ((Cache.initial cfg g).ways set) way =
      ⟨false, false, 0, way, List.replicate cfg.blockWords 0⟩ := by
  have hways : (Cache.initial cfg g).ways set = (List.range g.ways).map (CacheBlock.initial cfg) :=
    mem_cacheInitial (Cache.ways_mem (by rwa [Cache.initial, List.length_replicate]))
  rw [hways, blockAt_eq (by simpa using hway), List.getElem_map, List.getElem_range]
  rfl

/-- Settles O50: `init()` is the state of the table, made of the parameters, `run` and the flat store only. -/
theorem initGivesTheResetState : Obligations.InitGivesTheResetState := by
  intro s
  refine ⟨fun r => ?_, Table.get_fill .., rfl, rfl, rfl, rfl, rfl, rfl, rfl, rfl, rfl, rfl,
    fun i => Table.get_fill .., fun i => Table.get_fill .., fun k set way hset hway => ?_,
    fun set way hset hway => blockAt_cacheInitial hset hway, rfl, fun e he => ?_, rfl, rfl, rfl, rfl, rfl,
    rfl, fun t hc hr hst => ?_⟩
  · by_cases hr : r = 0#5
    · rw [hr, State.reg_zero]
    · rw [State.reg_of_ne _ hr]
      exact Table.get_fill ..
  · cases k <;> exact blockAt_cacheInitial hset hway
  · rcases List.mem_append.1 he with he | he <;> rw [List.eq_of_mem_replicate he] <;> rfl
  · rw [State.init, hc, hr, hst]
    rfl

/-- Settles O51: `stop()` writes the three caches and the bit that a step looks at first. -/
theorem stopKeepsArchitectureAndEndsTheRun : Obligations.StopKeepsArchitectureAndEndsTheRun :=
  fun _ => ⟨rfl, rfl, rfl, rfl, rfl, rfl, rfl, rfl, rfl, if_pos rfl, rfl⟩

/-- Settles O5: the decoder evaluated on the eleven words. -/
theorem wordsOfTheSpecDecode : Obligations.WordsOfTheSpecDecode :=
  ⟨rfl, rfl, rfl, rfl, rfl, rfl, rfl, rfl, rfl, rfl, rfl⟩

end Sys2Proof.Machine
end
